-- ==== Sys2Proof/Word.lean ====
section
/-!
DEFINITION. The words of the decoder: stream bytes, 16-bit header fields, colour words and codebook entries.
-/

namespace Sys2Proof

/-- A stream byte, luma or index byte (R10, R118). -/
abbrev Byte := BitVec 8

/-- A 16-bit header field, big-endian in the stream (R102 to R105). -/
abbrev U16 := BitVec 16

/-- A colour word `0 ++ b5 ++ g5 ++ r5` of 16 bits, 15 of them significant (R14). -/
abbrev Colour := BitVec 16

/-- A codebook entry: four colours `c[0]` to `c[3]` (R36). -/
structure Entry where
  c0 : Colour
  c1 : Colour
  c2 : Colour
  c3 : Colour
deriving DecidableEq, Repr

end Sys2Proof
end

