-- ==== Sys2Proof/Config.lean ====
section
/-!
DEFINITION. What the build fixes (R7): postures, the rounding of `u/2`, the record ids, the parameters the spec
leaves open, and the free values of what it leaves undefined.
-/

namespace Sys2Proof

/-- The build-time validation posture (R8, D2). -/
inductive Posture where
  | checked
  | unchecked
deriving DecidableEq, Repr

/-- The build-time rounding of `u/2` (R145, D6, U10): toward zero, or down. -/
inductive ChromaHalf where
  | trunc
  | floor
deriving DecidableEq, Repr

/-- The order of the two bytes of a pixel, where a platform exposes the framebuffer as bytes (R74, D23): at the lower
address stands the low byte (little) or the high byte (big). -/
inductive ByteOrder where
  | little
  | big
deriving DecidableEq, Repr, Inhabited

/-- The commands and the read-only status values a register map would place (R7, R43). -/
inductive HostRegister where
  | init
  | hasNext
  | decodeFrame
  | fbView
  | fsm
  | err
deriving DecidableEq, Repr

namespace Config

/-- `FB_BYTE_ORDER` (R7, R74, D23, U15): OPEN, a parameter of the model with no value. -/
opaque fbByteOrder : ByteOrder
/-- `REGMAP` (R7, R43, R81, D1): the address of each register; OPEN, a parameter of the model with no value. -/
opaque regMap : HostRegister → Nat

/-- `STRIP_ID_INTRA` (R104, D3). -/
abbrev stripIdIntra : U16 := 0x1000
/-- `STRIP_ID_INTER` (R104, D3). -/
abbrev stripIdInter : U16 := 0x1100

/-! `CHUNK_ID[...]`, the eleven values of R106 (D4). -/
abbrev idCbV412Full : U16 := 0x2000
abbrev idCbV412Sel : U16 := 0x2100
abbrev idCbV112Full : U16 := 0x2200
abbrev idCbV112Sel : U16 := 0x2300
abbrev idCbV48Full : U16 := 0x2400
abbrev idCbV48Sel : U16 := 0x2500
abbrev idCbV18Full : U16 := 0x2600
abbrev idCbV18Sel : U16 := 0x2700
abbrev idVecMixed : U16 := 0x3000
abbrev idVecDelta : U16 := 0x3100
abbrev idVecUniform : U16 := 0x3200

/-- How many record steps one frame can take at most, with room to spare: a frame has fewer than 2^24 bytes
(R102) and every record step uses up at least one bit of it (R304). -/
def frameFuel : Nat := 2 ^ 28

/-- FREE VALUE: the cursor after the n-th undefined event of a run (R269, U8). -/
opaque freeCursor : Nat → Nat
/-- FREE VALUE: box coordinate number j (four to a slot) after a failure (R269, U8). -/
opaque freeBox : Nat → Nat → Nat
/-- FREE VALUE: codebook colour number j after a failure (R269, U8). -/
opaque freeColour : Nat → Nat → BitVec 16
/-- FREE VALUE: written flag number j after a failure (R269, U8). -/
opaque freeFlag : Nat → Nat → Bool
/-- FREE VALUE: the pixels of framebuffer row y after a failure, as (column, 15-bit colour) pairs (R269, R46). -/
opaque freeRow : Nat → Nat → List (Nat × BitVec 15)
/-- FREE VALUE: colour j of an entry never written, read in the unchecked posture (U3). -/
opaque freeEntryColour : Nat → Nat → BitVec 15

end Config
end Sys2Proof
end

