-- ==== Sys2Proof/Syntax.lean ====
section
/-!
DEFINITION. The instructions: one constructor per row of spec/opcode_table.json (R123), and the names the
records use: record levels, codebook targets, kinds of vector chunk.
-/

namespace Sys2Proof

/-- Which codebook of a slot (R36): `v1`/`w1` or `v4`/`w4`. -/
inductive Target where
  | v1
  | v4
deriving DecidableEq, Repr

/-- The kind of a vector chunk (R180). -/
inductive VecKind where
  | mixed
  | uniform
  | delta
deriving DecidableEq, Repr

/-- What record the parser reads: the five levels of R2, the two lowest by format. A group is gated by a mask
bit in a selective chunk only. -/
inductive Level where
  | frame
  | strip
  | chunk
  | group8 (selective : Bool)
  | group12 (selective : Bool)
  | block (kind : VecKind)
deriving DecidableEq, Repr

/-- The instructions. -/
inductive Instr where
  /-- FRAME.INTRA (R231); `spare` is flags bits 7:1, ignored (R119). -/
  | frameIntra (spare : BitVec 7) (flen : BitVec 24) (width height nstrips : U16)
  /-- FRAME.INTER (R232). -/
  | frameInter (spare : BitVec 7) (flen : BitVec 24) (width height nstrips : U16)
  /-- STRIP.INTRA (R213). -/
  | stripIntra (slen py0 px0 py1 px1 : U16)
  /-- STRIP.INTER (R214). -/
  | stripInter (slen py0 px0 py1 px1 : U16)
  /-- CB.V4.12.FULL (R157). -/
  | cbV412Full (clen : U16)
  /-- CB.V4.12.SEL (R158). -/
  | cbV412Sel (clen : U16)
  /-- CB.V1.12.FULL (R159). -/
  | cbV112Full (clen : U16)
  /-- CB.V1.12.SEL (R160). -/
  | cbV112Sel (clen : U16)
  /-- CB.V4.8.FULL (R161). -/
  | cbV48Full (clen : U16)
  /-- CB.V4.8.SEL (R162). -/
  | cbV48Sel (clen : U16)
  /-- CB.V1.8.FULL (R163). -/
  | cbV18Full (clen : U16)
  /-- CB.V1.8.SEL (R164). -/
  | cbV18Sel (clen : U16)
  /-- VEC.MIXED (R190). -/
  | vecMixed (clen : U16)
  /-- VEC.DELTA (R192). -/
  | vecDelta (clen : U16)
  /-- VEC.UNIFORM (R191). -/
  | vecUniform (clen : U16)
  /-- G8: four lumas (R110, R152). -/
  | g8 (y0 y1 y2 y3 : Byte)
  /-- G12: four lumas and one signed chroma pair (R111, R152). -/
  | g12 (y0 y1 y2 y3 u v : Byte)
  /-- GSKIP (R154). -/
  | gskip
  /-- BU.V1 (R114, R185). -/
  | buV1 (i0 : Byte)
  /-- BM.V1 (R115, R185). -/
  | bmV1 (i0 : Byte)
  /-- BM.V4 (R115, R186). -/
  | bmV4 (i0 i1 i2 i3 : Byte)
  /-- BC.SKIP (R116, R184). -/
  | bcSkip
  /-- BC.V1 (R116, R185). -/
  | bcV1 (i0 : Byte)
  /-- BC.V4 (R116, R186). -/
  | bcV4 (i0 i1 i2 i3 : Byte)
  /-- CT, the colour transform (R140). -/
  | ct (y u v : Byte)
  /-- BW.V1, block write from one entry (R171). -/
  | bwV1 (x y : Nat) (e : Entry)
  /-- BW.V4, block write from four entries (R172). -/
  | bwV4 (x y : Nat) (e0 e1 e2 e3 : Entry)
  /-- INIT (R241). -/
  | init (stream : List Byte) (length : Nat)
  /-- HAS_NEXT (R244). -/
  | hasNext
  /-- DECODE_FRAME (R245). -/
  | decodeFrame
  /-- FB_VIEW (R249). -/
  | fbView
deriving DecidableEq, Repr

end Sys2Proof
end

