-- ==== Sys2Proof/WellFormed.lean ====
section
/-!
DEFINITION. The operand contracts of the spec that an instruction's type does not already hold. Records of the
stream have none: a decoder of records is total on any bytes and validity is decided during execution (R277).
-/

namespace Sys2Proof

/-- A colour word has bit 15 clear (R14). -/
abbrev Colour.plain (c : Colour) : Prop := c.toNat < 2 ^ 15

/-- All four colours of an entry have bit 15 clear. -/
abbrev Entry.plain (e : Entry) : Prop := e.c0.plain ∧ e.c1.plain ∧ e.c2.plain ∧ e.c3.plain

/-- A block position of the Block Writer: multiples of 4, inside the framebuffer (R77, R171, R173). -/
abbrev blockPosition (x y : Nat) : Prop := x % 4 = 0 ∧ y % 4 = 0 ∧ x + 4 ≤ 320 ∧ y + 4 ≤ 240

/-- The contracts, as a test that evaluates. INIT is given exactly `length` bytes and a length of at most 32 bits
(R241, D22). -/
def Instr.wellFormed (i : Instr) : Bool :=
  match i with
  | .bwV1 x y e => decide (blockPosition x y ∧ e.plain)
  | .bwV4 x y e0 e1 e2 e3 => decide (blockPosition x y ∧ e0.plain ∧ e1.plain ∧ e2.plain ∧ e3.plain)
  | .init stream length => decide (stream.length = length ∧ length < 2 ^ 32)
  | .frameIntra .. | .frameInter .. | .stripIntra .. | .stripInter .. => true
  | .cbV412Full _ | .cbV412Sel _ | .cbV112Full _ | .cbV112Sel _ => true
  | .cbV48Full _ | .cbV48Sel _ | .cbV18Full _ | .cbV18Sel _ => true
  | .vecMixed _ | .vecDelta _ | .vecUniform _ => true
  | .g8 .. | .g12 .. | .gskip => true
  | .buV1 _ | .bmV1 _ | .bmV4 .. | .bcSkip | .bcV1 _ | .bcV4 .. => true
  | .ct .. | .hasNext | .decodeFrame | .fbView => true

end Sys2Proof
end

