-- ==== Sys2Proof/Decode.lean ====
section
/-!
DEFINITION. The decoder, total on any mask bits and bytes and rejecting by name, and the encoder, both from the
formats of 30_encoding.md. A record's encoding is the mask bits it takes, first bit first, and its bytes.
-/

namespace Sys2Proof

/-- Why the decoder refuses: too few bits or bytes; a strip id that is neither of R104's; a chunk id that is
unrecognised; a chunk id in the band R108 leaves without meaning (listed high byte, non-zero low byte). -/
inductive Reject where
  | truncated
  | unknownStripId (sid : U16)
  | unknownChunkId (cid clen : U16)
  | unclearChunkId (cid clen : U16)
deriving DecidableEq, Repr

/-- A decoded record with the bits and bytes that follow it. -/
structure Decoded where
  instr : Instr
  bits : List Bool
  bytes : List Byte
deriving DecidableEq, Repr

/-- The encoding of a record. -/
structure Code where
  bits : List Bool
  bytes : List Byte
deriving DecidableEq, Repr

/-- BE16 of two bytes (R10, R72). -/
def joinU16 (hi lo : Byte) : U16 := (hi ++ lo : BitVec (8 + 8))

/-- BE24 of three bytes (R10, R72). -/
def joinU24 (b2 b1 b0 : Byte) : BitVec 24 := (b2 ++ b1 ++ b0 : BitVec (8 + 8 + 8))

/-- BE32 of four bytes (R10, R72). -/
def joinU32 (b3 b2 b1 b0 : Byte) : BitVec 32 := (b3 ++ b2 ++ b1 ++ b0 : BitVec (8 + 8 + 8 + 8))

/-- The more significant byte of a 16-bit field, the one at the lower offset. -/
def highByte (w : U16) : Byte := w.extractLsb' 8 8

/-- The less significant byte of a 16-bit field. -/
def lowByte (w : U16) : Byte := w.extractLsb' 0 8

/-- The two bytes of a 16-bit field in stream order. -/
def bytesU16 (w : U16) : List Byte := [highByte w, lowByte w]

/-- The three bytes of a 24-bit field in stream order. -/
def bytesU24 (w : BitVec 24) : List Byte := [w.extractLsb' 16 8, w.extractLsb' 8 8, w.extractLsb' 0 8]

/-- The flags byte: bits 7:1 and bit 0 (R102). -/
def flagsByte (spare : BitVec 7) (intra : BitVec 1) : Byte := (spare ++ intra : BitVec (7 + 1))

/-- The chunk ids and the records they name (R106, R107). -/
def chunkRecords : List (U16 × (U16 → Instr)) :=
  [(Config.idCbV412Full, .cbV412Full), (Config.idCbV412Sel, .cbV412Sel), (Config.idCbV112Full, .cbV112Full),
   (Config.idCbV112Sel, .cbV112Sel), (Config.idCbV48Full, .cbV48Full), (Config.idCbV48Sel, .cbV48Sel),
   (Config.idCbV18Full, .cbV18Full), (Config.idCbV18Sel, .cbV18Sel), (Config.idVecMixed, .vecMixed),
   (Config.idVecDelta, .vecDelta), (Config.idVecUniform, .vecUniform)]

/-- The record of a chunk id that equals a listed one in all 16 bits; an unlisted id whose high byte is listed is in
the band R108 leaves without meaning, every other one is unrecognised. -/
def decodeChunkHeader (cid clen : U16) : Except Reject Instr :=
  match chunkRecords.find? (fun row => row.1 == cid) with
  | some row => .ok (row.2 clen)
  | none =>
    if chunkRecords.any (fun row => highByte row.1 == highByte cid) then .error (.unclearChunkId cid clen)
    else .error (.unknownChunkId cid clen)

/-- Format FH (R102): flags bit 0 clear marks the frame inter-coded (R222). -/
def decodeFrameHeader (bytes : List Byte) : Except Reject (Instr × List Byte) :=
  match bytes with
  | f :: l2 :: l1 :: l0 :: w1 :: w0 :: h1 :: h0 :: n1 :: n0 :: rest =>
    let spare := f.extractLsb' 1 7
    let flen := joinU24 l2 l1 l0
    if f.getLsbD 0 then .ok (.frameIntra spare flen (joinU16 w1 w0) (joinU16 h1 h0) (joinU16 n1 n0), rest)
    else .ok (.frameInter spare flen (joinU16 w1 w0) (joinU16 h1 h0) (joinU16 n1 n0), rest)
  | _ => .error .truncated

/-- Format SH (R103), in the order sid, slen, y0, x0, y1, x1. -/
def decodeStripHeader (bytes : List Byte) : Except Reject (Instr × List Byte) :=
  match bytes with
  | s1 :: s0 :: l1 :: l0 :: a1 :: a0 :: b1 :: b0 :: c1 :: c0 :: d1 :: d0 :: rest =>
    let sid := joinU16 s1 s0
    let slen := joinU16 l1 l0
    if sid = Config.stripIdIntra then
      .ok (.stripIntra slen (joinU16 a1 a0) (joinU16 b1 b0) (joinU16 c1 c0) (joinU16 d1 d0), rest)
    else if sid = Config.stripIdInter then
      .ok (.stripInter slen (joinU16 a1 a0) (joinU16 b1 b0) (joinU16 c1 c0) (joinU16 d1 d0), rest)
    else .error (.unknownStripId sid)
  | _ => .error .truncated

/-- Format G8 (R110). -/
def decodeGroup8 (bytes : List Byte) : Except Reject (Instr × List Byte) :=
  match bytes with
  | y0 :: y1 :: y2 :: y3 :: rest => .ok (.g8 y0 y1 y2 y3, rest)
  | _ => .error .truncated

/-- Format G12 (R111), read left to right: four lumas, U, V (D7). -/
def decodeGroup12 (bytes : List Byte) : Except Reject (Instr × List Byte) :=
  match bytes with
  | y0 :: y1 :: y2 :: y3 :: u :: v :: rest => .ok (.g12 y0 y1 y2 y3 u v, rest)
  | _ => .error .truncated

/-- One index byte (R112). -/
def decodeIndex1 (make : Byte → Instr) (bytes : List Byte) : Except Reject (Instr × List Byte) :=
  match bytes with
  | i0 :: rest => .ok (make i0, rest)
  | _ => .error .truncated

/-- Four index bytes (R112). -/
def decodeIndex4 (make : Byte → Byte → Byte → Byte → Instr) (bytes : List Byte) : Except Reject (Instr × List Byte) :=
  match bytes with
  | i0 :: i1 :: i2 :: i3 :: rest => .ok (make i0 i1 i2 i3, rest)
  | _ => .error .truncated

/-- Pairs the bits left with a decoded record. -/
def withBits (bits : List Bool) (r : Except Reject (Instr × List Byte)) : Except Reject Decoded :=
  match r with
  | .ok (i, rest) => .ok { instr := i, bits := bits, bytes := rest }
  | .error e => .error e

/-- The group of a selective chunk: bit 0 is GSKIP, bit 1 a group (R154, R151). -/
def decodeSelective (group : List Byte → Except Reject (Instr × List Byte)) (bits : List Bool) (bytes : List Byte) :
    Except Reject Decoded :=
  match bits with
  | false :: more => .ok { instr := .gskip, bits := more, bytes := bytes }
  | true :: more => withBits more (group bytes)
  | [] => .error .truncated

/-- The block codes of a vector chunk (R114 to R116). -/
def decodeBlock (kind : VecKind) (bits : List Bool) (bytes : List Byte) : Except Reject Decoded :=
  match kind, bits with
  | .uniform, more => withBits more (decodeIndex1 .buV1 bytes)
  | .mixed, false :: more => withBits more (decodeIndex1 .bmV1 bytes)
  | .mixed, true :: more => withBits more (decodeIndex4 .bmV4 bytes)
  | .delta, false :: more => .ok { instr := .bcSkip, bits := more, bytes := bytes }
  | .delta, true :: false :: more => withBits more (decodeIndex1 .bcV1 bytes)
  | .delta, true :: true :: more => withBits more (decodeIndex4 .bcV4 bytes)
  | .mixed, [] => .error .truncated
  | .delta, [] => .error .truncated
  | .delta, [true] => .error .truncated

/-- Format CH (R105). -/
def decodeChunk (bytes : List Byte) : Except Reject (Instr × List Byte) :=
  match bytes with
  | i1 :: i0 :: l1 :: l0 :: rest =>
    match decodeChunkHeader (joinU16 i1 i0) (joinU16 l1 l0) with
    | .ok i => .ok (i, rest)
    | .error e => .error e
  | _ => .error .truncated

/-- The decoder: the record of a level that the given mask bits and bytes begin with. -/
def decode (level : Level) (bits : List Bool) (bytes : List Byte) : Except Reject Decoded :=
  match level with
  | .frame => withBits bits (decodeFrameHeader bytes)
  | .strip => withBits bits (decodeStripHeader bytes)
  | .chunk => withBits bits (decodeChunk bytes)
  | .group8 false => withBits bits (decodeGroup8 bytes)
  | .group8 true => decodeSelective decodeGroup8 bits bytes
  | .group12 false => withBits bits (decodeGroup12 bytes)
  | .group12 true => decodeSelective decodeGroup12 bits bytes
  | .block kind => decodeBlock kind bits bytes

/-! ## The encoder -/

/-- The bytes of a frame header (R102). -/
def encodeFrameHeader (flags : Byte) (flen : BitVec 24) (width height nstrips : U16) : Code :=
  { bits := [], bytes := flags :: (bytesU24 flen ++ bytesU16 width ++ bytesU16 height ++ bytesU16 nstrips) }

/-- The bytes of a strip header (R103). -/
def encodeStripHeader (sid slen py0 px0 py1 px1 : U16) : Code :=
  { bits := [], bytes := bytesU16 sid ++ bytesU16 slen ++ bytesU16 py0 ++ bytesU16 px0 ++ bytesU16 py1 ++ bytesU16 px1 }

/-- The bytes of a chunk header at the chunk level (R105); nothing at another level. -/
def encodeChunkHeader (level : Level) (cid clen : U16) : Option Code :=
  if level = .chunk then some { bits := [], bytes := bytesU16 cid ++ bytesU16 clen } else none

/-- The encoding of an instruction as a record of a level; none where the level has no such record, and none for
the datapath operations and the host's commands, which have no encoding (R123, R240). -/
def encode (level : Level) (i : Instr) : Option Code :=
  match i with
  | .frameIntra spare flen w h n => if level = .frame then some (encodeFrameHeader (flagsByte spare 1) flen w h n) else none
  | .frameInter spare flen w h n => if level = .frame then some (encodeFrameHeader (flagsByte spare 0) flen w h n) else none
  | .stripIntra l a b c d => if level = .strip then some (encodeStripHeader Config.stripIdIntra l a b c d) else none
  | .stripInter l a b c d => if level = .strip then some (encodeStripHeader Config.stripIdInter l a b c d) else none
  | .cbV412Full clen => encodeChunkHeader level Config.idCbV412Full clen
  | .cbV412Sel clen => encodeChunkHeader level Config.idCbV412Sel clen
  | .cbV112Full clen => encodeChunkHeader level Config.idCbV112Full clen
  | .cbV112Sel clen => encodeChunkHeader level Config.idCbV112Sel clen
  | .cbV48Full clen => encodeChunkHeader level Config.idCbV48Full clen
  | .cbV48Sel clen => encodeChunkHeader level Config.idCbV48Sel clen
  | .cbV18Full clen => encodeChunkHeader level Config.idCbV18Full clen
  | .cbV18Sel clen => encodeChunkHeader level Config.idCbV18Sel clen
  | .vecMixed clen => encodeChunkHeader level Config.idVecMixed clen
  | .vecDelta clen => encodeChunkHeader level Config.idVecDelta clen
  | .vecUniform clen => encodeChunkHeader level Config.idVecUniform clen
  | .g8 y0 y1 y2 y3 =>
    if level = .group8 false then some { bits := [], bytes := [y0, y1, y2, y3] }
    else if level = .group8 true then some { bits := [true], bytes := [y0, y1, y2, y3] }
    else none
  | .g12 y0 y1 y2 y3 u v =>
    if level = .group12 false then some { bits := [], bytes := [y0, y1, y2, y3, u, v] }
    else if level = .group12 true then some { bits := [true], bytes := [y0, y1, y2, y3, u, v] }
    else none
  | .gskip => if level = .group8 true ∨ level = .group12 true then some { bits := [false], bytes := [] } else none
  | .buV1 i0 => if level = .block .uniform then some { bits := [], bytes := [i0] } else none
  | .bmV1 i0 => if level = .block .mixed then some { bits := [false], bytes := [i0] } else none
  | .bmV4 i0 i1 i2 i3 => if level = .block .mixed then some { bits := [true], bytes := [i0, i1, i2, i3] } else none
  | .bcSkip => if level = .block .delta then some { bits := [false], bytes := [] } else none
  | .bcV1 i0 => if level = .block .delta then some { bits := [true, false], bytes := [i0] } else none
  | .bcV4 i0 i1 i2 i3 => if level = .block .delta then some { bits := [true, true], bytes := [i0, i1, i2, i3] } else none
  | .ct .. => none
  | .bwV1 .. => none
  | .bwV4 .. => none
  | .init .. => none
  | .hasNext => none
  | .decodeFrame => none
  | .fbView => none

/-! ## The opcode table's words -/

/-- The n bytes of a number, most significant first (R72). -/
def bigEndianBytes (n : Nat) (w : Nat) : List Byte :=
  match n with
  | 0 => []
  | m + 1 => BitVec.ofNat 8 (w >>> (8 * m)) :: bigEndianBytes m w

/-- The level, mask bits and bytes of an opcode-table word. The table writes a record as ONE number whose most
significant byte comes first in the stream (98_reader.md). A 32-bit word is a chunk header where its upper half
is a chunk id or in R108's band, else a G8, whose four bytes the table leaves free. The words of at most 8 bits are
mask-bit codes, first bit first, followed by index bytes of zero: BM.V1 0, BM.V4 1, BC.V1 10, BC.V4 11; the word of
no bits is GSKIP's (log entry 9). -/
def tableRecord (nbits w : Nat) : Level × List Bool × List Byte :=
  if nbits = 80 then (.frame, [], bigEndianBytes 10 w)
  else if nbits = 96 then (.strip, [], bigEndianBytes 12 w)
  else if nbits = 48 then (.group12 false, [], bigEndianBytes 6 w)
  else if nbits = 32 then
    match decode .chunk [] (bigEndianBytes 4 w) with
    | .error (.unknownChunkId _ _) => (.group8 false, [], bigEndianBytes 4 w)
    | _ => (.chunk, [], bigEndianBytes 4 w)
  else if nbits = 0 then (.group8 true, [false], [])
  else if w = 0 then (.block .mixed, [false], [0])
  else if w = 1 then (.block .mixed, [true], [0, 0, 0, 0])
  else if w = 2 then (.block .delta, [true, false], [0])
  else if w = 3 then (.block .delta, [true, true], [0, 0, 0, 0])
  else (.block .delta, [], [])

/-- The instruction the decoder reads from an opcode-table word. -/
def decodeTableWord (nbits w : Nat) : Option Instr :=
  match tableRecord nbits w with
  | (level, bits, bytes) =>
    match decode level bits bytes with
    | .ok d => some d.instr
    | .error _ => none

end Sys2Proof
end

