-- ==== Sys2Proof/Machine/State.lean ====
section
/-!
DEFINITION. The state of the decoder (10_state.md), the reasons a step can stop, and the state at power-on.
-/

namespace Sys2Proof.Machine

/-- A memory of w-bit units: (address, value) pairs in one canonical form, addresses strictly rising and no value
0, which is what an unlisted address reads as. `Memory 8` is a list of `Host.Cell`. -/
abbrev Memory (w : Nat) := List (Nat × BitVec w)

/-- A strip slot (R34 to R38): the bounding box, the two codebooks, and the written flags of their entries. -/
structure Slot where
  x0 : Nat
  x1 : Nat
  y0 : Nat
  y1 : Nat
  v1 : Vector Entry 256
  v4 : Vector Entry 256
  w1 : Vector Bool 256
  w4 : Vector Bool 256
deriving DecidableEq, Repr

/-- The error kinds and the success value (R260). -/
inductive ErrKind where
  | ok
  | eof
  | invalidData
  | badDimensions
  | internal
deriving DecidableEq, Repr

/-- What the last transaction returned to the host (R244, R246, R249), or the datapath's last CT result (R140). -/
inductive Reply where
  | none
  | bool (b : Bool)
  | status (k : ErrKind)
  | view
  | colour (c : Colour)
deriving DecidableEq, Repr

/-- The host's commands (R240). -/
inductive HostCmd where
  | init (stream : List Byte) (length : Nat)
  | hasNext
  | decodeFrame
  | fbView
deriving DecidableEq, Repr

/-- Working registers of a frame (R44): header offset, inter flag, declared length, strip count, strip index. -/
structure FrameRegs where
  F : Nat
  inter : Bool
  flen : Nat
  nstrips : Nat
  i : Fin 32
deriving DecidableEq, Repr

/-- Working registers of a strip (R44, R208): header offset, declared length, chunk pointer. -/
structure StripRegs where
  S : Nat
  slen : Nat
  c : Nat
deriving DecidableEq, Repr

/-- Working registers of a chunk payload (R44): read pointer, exclusive end, current mask word shifted left as its
bits are taken, bits not yet taken. -/
structure Payload where
  p : Nat
  E : Nat
  mask : BitVec 32
  left : Nat
deriving DecidableEq, Repr

/-- Working registers of a codebook chunk (R44, R150, R151). -/
structure CodebookRegs where
  target : Target
  bpp12 : Bool
  selective : Bool
  k : Nat
  pl : Payload
deriving DecidableEq, Repr

/-- Working registers of a vector chunk (R44, R181): the block whose code is due. -/
structure VectorRegs where
  kind : VecKind
  bx : Nat
  by_ : Nat
  pl : Payload
deriving DecidableEq, Repr

/-- What record is due while a frame is being decoded, with the working registers that are live there. -/
inductive Due where
  /-- A frame header, at the cursor. -/
  | frame
  /-- A strip header, at the cursor. -/
  | strip (fr : FrameRegs)
  /-- A chunk header, at the chunk pointer. -/
  | chunk (fr : FrameRegs) (st : StripRegs)
  /-- A group or GSKIP, at the payload pointer. -/
  | group (fr : FrameRegs) (st : StripRegs) (cb : CodebookRegs)
  /-- A block code, at the payload pointer. -/
  | block (fr : FrameRegs) (st : StripRegs) (vp : VectorRegs)
deriving DecidableEq, Repr

/-- The state machine (R40). -/
inductive Fsm where
  | uninit
  | ready
  | decoding (due : Due)
  | exhausted
  | failed
deriving DecidableEq, Repr

/-- Faults. All are safe: the model stops where the spec says that nothing exists to go on with, and no run from an
initialised decoder reaches one. -/
inductive Fault where
  /-- A stream read outside `[0, length)` (R10); raised when a record's bytes are fetched. Safe. -/
  | streamRange (offset : Nat)
  /-- A block write outside the 320×240 framebuffer (R39, R77); raised by the block writer. Safe. -/
  | noSuchPixel (x y : Nat)
  /-- A strip after slot 31 (R34); raised when a strip ends. Safe. -/
  | noSuchSlot
  /-- DECODE_FRAME has not ended within the bound of `Config.frameFuel` (R304 says every command ends). Safe. -/
  | frameNeverEnds
deriving DecidableEq, Repr

/-- Refusals: the model has no step. All are safe. -/
inductive Refusal where
  /-- An instruction that has no meaning yet; raised by exec alone. Safe. -/
  | notModelled (mnemonic : String)
  /-- A check fails in the unchecked posture (R8, R266, U1, U2); raised by every check. Safe. -/
  | uncheckedInvalid
  /-- A chunk id of the band R108 leaves without meaning (U9); raised when a chunk header is fetched. Safe. -/
  | unclearChunkId (cid : U16)
  /-- A zero-strip frame whose declared length is not 10 (R226, U5); raised by the two frame headers. Safe. -/
  | zeroStripFrame
  /-- HAS_NEXT, DECODE_FRAME or FB_VIEW before the first INIT (R292, U4); raised by these three. Safe. -/
  | uninitialised
  /-- HAS_NEXT, DECODE_FRAME or FB_VIEW after a failure (R271, U4); raised by these three. Safe. -/
  | failedDecoder
  /-- INIT, HAS_NEXT, DECODE_FRAME or FB_VIEW while a frame is being decoded (R86, R295, U7); raised by these four.
  Safe. -/
  | overlap
  /-- INIT with fewer than `length` stream bytes (R242: the host must pass them); raised by INIT. Safe. -/
  | shortStream
  /-- A stream record run where no record of its format is due (R2: records stand inside their containers);
  raised by the record meanings. Safe. -/
  | notDue
deriving DecidableEq, Repr

/-- The complete state (R30, R47). -/
structure State where
  /-- The build's validation posture (R8); no instruction writes it. -/
  posture : Posture
  /-- The build's rounding of `u/2` (R145); no instruction writes it. -/
  chromaHalf : ChromaHalf
  /-- The bound stream `M` (R30, R33). -/
  stream : Memory 8
  /-- The bound stream's length (R33). -/
  length : Nat
  /-- The program counter (R31). -/
  cursor : Nat
  /-- The strip slots (R34). -/
  slots : Vector Slot 32
  /-- The framebuffer (R39): row y lists the non-zero pixels of columns 0 to 319. -/
  fb : Vector (Memory 16) 240
  /-- The state machine (R40), with the working registers of R44 while a frame is decoded. -/
  fsm : Fsm
  /-- The result of the last DECODE_FRAME (R41). -/
  err : ErrKind
  /-- The value the last transaction returned (R246). -/
  reply : Reply
  /-- Whether the host's framebuffer view is valid (R250). -/
  viewValid : Bool
  /-- The model's own: the host's commands not yet issued, oldest first. -/
  cmds : List HostCmd
  /-- The model's own: how many free values have been drawn. -/
  free : Nat
deriving DecidableEq, Repr

/-- The all-zero entry (R36). -/
def Entry.zero : Entry := { c0 := 0, c1 := 0, c2 := 0, c3 := 0 }

/-- The slot INIT leaves: zero box, zero codebooks, nothing written (R47). -/
def Slot.zero : Slot :=
  { x0 := 0, x1 := 0, y0 := 0, y1 := 0
    v1 := Vector.replicate 256 Entry.zero, v4 := Vector.replicate 256 Entry.zero
    w1 := Vector.replicate 256 false, w4 := Vector.replicate 256 false }

/-- Power-on (R47, R290): `fsm = Uninit`; every other value is the model's choice (log entries 1 and 3). -/
def State.reset : State :=
  { posture := .checked, chromaHalf := .trunc
    stream := [], length := 0, cursor := 0
    slots := Vector.replicate 32 Slot.zero, fb := Vector.replicate 240 []
    fsm := .uninit, err := .ok, reply := .none, viewValid := false, cmds := [], free := 0 }

end Sys2Proof.Machine
end

