-- ==== Sys2Proof/Machine/Ops.lean ====
section
/-!
DEFINITION. The named operations over memory, stream, framebuffer and slots; the checks; taking an error
(R268, R269) and what leaves `Failed` (R271).
-/

namespace Sys2Proof.Machine

/-- The outcome of a step. -/
abbrev Outcome := Host.Outcome State Fault Refusal

/-! ## Memory -/

/-- What an address reads: its listed value, else 0. -/
def Memory.read {w : Nat} (m : Memory w) (a : Nat) : BitVec w :=
  match m with
  | [] => 0
  | (b, v) :: rest => if b = a then v else Memory.read rest a

/-- Removes an address. -/
def Memory.erase {w : Nat} (m : Memory w) (a : Nat) : Memory w := m.filter (fun cell => cell.1 != a)

/-- Puts a cell before the first higher address. -/
def Memory.insert {w : Nat} (m : Memory w) (a : Nat) (v : BitVec w) : Memory w :=
  match m with
  | [] => [(a, v)]
  | (b, u) :: rest => if a < b then (a, v) :: (b, u) :: rest else (b, u) :: Memory.insert rest a v

/-- Writes an address, keeping the canonical form: the value 0 is not listed. -/
def Memory.write {w : Nat} (m : Memory w) (a : Nat) (v : BitVec w) : Memory w :=
  if v = 0 then m.erase a else (m.erase a).insert a v

/-- The canonical form: addresses strictly rising from `lo` on, and no value 0. -/
def Memory.wfFrom {w : Nat} (lo : Nat) (m : Memory w) : Bool :=
  match m with
  | [] => true
  | (a, v) :: rest => decide (lo ≤ a) && v != 0 && Memory.wfFrom (a + 1) rest

/-- The canonical form. -/
def Memory.wf {w : Nat} (m : Memory w) : Bool := Memory.wfFrom 0 m

/-- Every listed address is below n. -/
def Memory.below {w : Nat} (m : Memory w) (n : Nat) : Bool := m.all (fun cell => decide (cell.1 < n))

/-! ## The stream (R10) -/

/-- The memory that holds a byte sequence from address a on. -/
def streamCells (a : Nat) (bytes : List Byte) : Memory 8 :=
  match bytes with
  | [] => []
  | b :: rest => if b = 0 then streamCells (a + 1) rest else (a, b) :: streamCells (a + 1) rest

/-- `U8(a)`; none outside `[0, length)`. -/
def State.byte (s : State) (a : Nat) : Option Byte := if a < s.length then some (s.stream.read a) else none

/-- n bytes from a on; none if one of them is outside `[0, length)`. -/
def State.bytes (s : State) (a n : Nat) : Option (List Byte) :=
  match n with
  | 0 => some []
  | m + 1 =>
    match s.byte a, s.bytes (a + 1) m with
    | some b, some rest => some (b :: rest)
    | _, _ => none

/-- `BE32(a)`. -/
def State.be32 (s : State) (a : Nat) : Option (BitVec 32) :=
  match s.bytes a 4 with
  | some [b3, b2, b1, b0] => some (joinU32 b3 b2 b1 b0)
  | _ => none

/-! ## The framebuffer (R11, R39) -/

/-- A framebuffer: 240 rows. -/
abbrev Framebuffer := Vector (Memory 16) 240

/-- `FB[y][x]`; 0 outside the grid. -/
def Framebuffer.pixel (fb : Framebuffer) (x y : Nat) : Colour :=
  if h : y < 240 then fb[y].read x else 0

/-- `FB[y][x] <- v`, on the grid's rows. -/
def Framebuffer.setPixel (fb : Framebuffer) (x y : Nat) (v : Colour) : Framebuffer :=
  if h : y < 240 then fb.set y (fb[y].write x v) else fb

/-- The sixteen (dx, dy) of a block (R170). -/
def blockLanes : List (Nat × Nat) :=
  [(0, 0), (1, 0), (2, 0), (3, 0), (0, 1), (1, 1), (2, 1), (3, 1),
   (0, 2), (1, 2), (2, 2), (3, 2), (0, 3), (1, 3), (2, 3), (3, 3)]

/-- Sixteen word writes at the block whose top-left pixel is (x, y); lane (dx, dy) gets `colour dx dy` (R173, R174). -/
def Framebuffer.setBlock (fb : Framebuffer) (x y : Nat) (colour : Nat → Nat → Colour) : Framebuffer :=
  blockLanes.foldl (fun f lane => f.setPixel (x + lane.1) (y + lane.2) (colour lane.1 lane.2)) fb

/-- What the host reads at (x, y) through its view (R249, R250): nothing without a valid view or off the grid. -/
def State.viewPixel (s : State) (x y : Nat) : Option Colour :=
  if s.viewValid = true ∧ x < 320 ∧ y < 240 then some (Framebuffer.pixel s.fb x y) else none

/-! ## The slots (R34 to R38) -/

/-- The codebook of a target. -/
def Slot.codebook (sl : Slot) (t : Target) : Vector Entry 256 :=
  match t with
  | .v1 => sl.v1
  | .v4 => sl.v4

/-- The written flags of a target. -/
def Slot.written (sl : Slot) (t : Target) : Vector Bool 256 :=
  match t with
  | .v1 => sl.w1
  | .v4 => sl.w4

/-- `WriteEntry(k, e)` (R153): the four colours and the written flag. -/
def Slot.writeEntry (sl : Slot) (t : Target) (k : Nat) (e : Entry) (h : k < 256) : Slot :=
  match t with
  | .v1 => { sl with v1 := sl.v1.set k e, w1 := sl.w1.set k true }
  | .v4 => { sl with v4 := sl.v4.set k e, w4 := sl.w4.set k true }

/-- Both codebooks and their flags copied from another slot (R206). -/
def Slot.seedFrom (sl prev : Slot) : Slot :=
  { sl with v1 := prev.v1, v4 := prev.v4, w1 := prev.w1, w4 := prev.w4 }

/-- Replaces slot i. -/
def State.setSlot (s : State) (i : Fin 32) (sl : Slot) : State := { s with slots := s.slots.set i sl }

/-! ## Free values after a failure (R269, U8; log entry 4) -/

/-- An entry of free colours; `base` numbers its first colour. -/
def freeEntry (n base : Nat) : Entry :=
  { c0 := Config.freeColour n base, c1 := Config.freeColour n (base + 1)
    c2 := Config.freeColour n (base + 2), c3 := Config.freeColour n (base + 3) }

/-- Slot i with every field free. -/
def freeSlot (n i : Nat) : Slot :=
  { x0 := Config.freeBox n (4 * i), x1 := Config.freeBox n (4 * i + 1)
    y0 := Config.freeBox n (4 * i + 2), y1 := Config.freeBox n (4 * i + 3)
    v1 := Vector.ofFn (fun k => freeEntry n (2048 * i + 4 * k.val))
    v4 := Vector.ofFn (fun k => freeEntry n (2048 * i + 1024 + 4 * k.val))
    w1 := Vector.ofFn (fun k => Config.freeFlag n (512 * i + k.val))
    w4 := Vector.ofFn (fun k => Config.freeFlag n (512 * i + 256 + k.val)) }

/-- Thirty-two free slots. -/
def freeSlots (n : Nat) : Vector Slot 32 := Vector.ofFn (fun i => freeSlot n i.val)

/-- Writes (column, 15-bit colour) pairs into a row. -/
def rowOf (pixels : List (Nat × BitVec 15)) (row : Memory 16) : Memory 16 :=
  match pixels with
  | [] => row
  | (x, c) :: rest => rowOf rest (row.write (x % 320) (c.setWidth 16))

/-- A free framebuffer: any pixels with bit 15 clear (R46). -/
def freeFramebuffer (n : Nat) : Framebuffer := Vector.ofFn (fun y => rowOf (Config.freeRow n y.val) [])

/-! ## Checks and errors -/

/-- Taking an error, `fail K` (R268): `err` and the reply are K, `fsm` is Failed; cursor, slots and framebuffer hold
free values (R269). Nothing is saved and nothing is resumed. -/
def State.fail (s : State) (k : ErrKind) : State :=
  { s with
    cursor := Config.freeCursor s.free, slots := freeSlots s.free, fb := freeFramebuffer s.free
    fsm := .failed, err := k, reply := .status k, free := s.free + 1 }

/-- A `[C]` check that does not hold (R8, R12): the error in the checked posture, no step in the unchecked one. -/
def State.failCheck (s : State) (k : ErrKind) : Outcome :=
  match s.posture with
  | .checked => .next (s.fail k)
  | .unchecked => .refused .uncheckedInvalid

/-- There is no return from an error (R271): INIT alone leaves `Failed`, and gives every piece of state the value of
R47. The build's parameters, the host's queue and the free counter are no part of what it sets. -/
def State.bind (s : State) (stream : List Byte) (length : Nat) : State :=
  { s with
    stream := streamCells 0 (stream.take length), length := length, cursor := 0
    slots := Vector.replicate 32 Slot.zero, fb := Vector.replicate 240 []
    fsm := if 0 < length then .ready else .exhausted
    err := .ok, reply := .none, viewValid := false }

end Sys2Proof.Machine
end

