-- ==== Sys2Proof/Machine/Flags.lean ====
section
/-!
DEFINITION. The status the machine keeps. It has no condition codes, carry or overflow flags (R42); its status is
`fsm` and `err`.
-/

namespace Sys2Proof.Machine

/-- `Ready` or `Exhausted`, a function of cursor and length (R40, R230). -/
def idleFsm (cursor length : Nat) : Fsm := if cursor = length then .exhausted else .ready

/-- The numeric code of a result (R260, D20). -/
def ErrKind.code (k : ErrKind) : Nat :=
  match k with
  | .ok => 0
  | .eof => 1
  | .invalidData => 2
  | .badDimensions => 3
  | .internal => 4

/-- Whether a frame is being decoded. -/
def Fsm.isDecoding (f : Fsm) : Bool :=
  match f with
  | .decoding _ => true
  | .uninit => false
  | .ready => false
  | .exhausted => false
  | .failed => false

/-- The end of a frame that succeeds (R230). -/
def State.finishFrame (s : State) : State :=
  { s with fsm := idleFsm s.cursor s.length, err := .ok, reply := .status .ok }

end Sys2Proof.Machine
end

