-- ==== Sys2Proof/Machine/Operands.lean ====
section
/-!
DEFINITION. Operand forms: mask bits, payload bytes, relative coordinates, block geometry, codebook entries read by
index.
-/

namespace Sys2Proof.Machine

/-! ## Mask bits (R73, R109, R155, R183) -/

/-- What taking a mask bit gives. -/
inductive MaskBit where
  /-- The bit and the payload registers after it. -/
  | bit (b : Bool) (pl : Payload)
  /-- The payload ends inside the mask word. -/
  | endsInside
  /-- The mask word is outside the stream. -/
  | outside (offset : Nat)
deriving DecidableEq, Repr

/-- `NextBit()` and `FetchMask()`: a new word is read at `p` only when no bit is left; bit 31 is taken first. -/
def State.nextBit (s : State) (pl : Payload) : MaskBit :=
  if pl.left = 0 then
    if pl.p + 4 ≤ pl.E then
      match s.be32 pl.p with
      | some w => .bit w.msb { pl with p := pl.p + 4, mask := w <<< 1, left := 31 }
      | none => .outside pl.p
    else .endsInside
  else .bit pl.mask.msb { pl with mask := pl.mask <<< 1, left := pl.left - 1 }

/-! ## Strip coordinates (R203, R204) -/

/-- The resolved box of a strip. -/
structure Box where
  x0 : Nat
  x1 : Nat
  y0 : Nat
  y1 : Nat
deriving DecidableEq, Repr

/-- Resolves the parsed coordinates: relative to the previous strip of the frame when `py0 = 0` and there is one;
the sum does not wrap (D11). -/
def State.resolveBox (s : State) (i : Fin 32) (py0 px0 py1 px1 : U16) : Box :=
  if py0.toNat = 0 ∧ 0 < i.val then
    let prev := s.slots[i.val - 1]
    { x0 := px0.toNat, x1 := px1.toNat, y0 := prev.y1, y1 := prev.y1 + py1.toNat }
  else { x0 := px0.toNat, x1 := px1.toNat, y0 := py0.toNat, y1 := py1.toNat }

/-- Each coordinate is a multiple of 4 (R204). -/
abbrev Box.aligned (b : Box) : Prop := b.x0 % 4 = 0 ∧ b.x1 % 4 = 0 ∧ b.y0 % 4 = 0 ∧ b.y1 % 4 = 0

/-- The edges are in order (R204). -/
abbrev Box.ordered (b : Box) : Prop := b.x0 < b.x1 ∧ b.y0 < b.y1

/-- The box is inside the frame (R204). -/
abbrev Box.inFrame (b : Box) : Prop := b.x1 ≤ 320 ∧ b.y1 ≤ 240

/-- The slot with another box (R205). -/
def Slot.withBox (sl : Slot) (b : Box) : Slot := { sl with x0 := b.x0, x1 := b.x1, y0 := b.y0, y1 := b.y1 }

/-! ## Block geometry (R170) -/

/-- Sub-quadrant number of a pixel of a block. -/
def subQuadrant (dx dy : Nat) : Nat := 2 * (dy / 2) + dx / 2

/-- Pixel number inside its sub-quadrant. -/
def subPixel (dx dy : Nat) : Nat := 2 * (dy % 2) + dx % 2

/-- `e.c[j]` (R11). -/
def Entry.colour (e : Entry) (j : Nat) : Colour :=
  match j with
  | 0 => e.c0
  | 1 => e.c1
  | 2 => e.c2
  | _ => e.c3

/-- The colour selector of BW.V1 (R171, R176): `e.c[q]`. -/
def lanesV1 (e : Entry) (dx dy : Nat) : Colour := Entry.colour e (subQuadrant dx dy)

/-- The colour selector of BW.V4 (R172, R176): `eq.c[s]`. -/
def lanesV4 (e0 e1 e2 e3 : Entry) (dx dy : Nat) : Colour :=
  match subQuadrant dx dy with
  | 0 => Entry.colour e0 (subPixel dx dy)
  | 1 => Entry.colour e1 (subPixel dx dy)
  | 2 => Entry.colour e2 (subPixel dx dy)
  | _ => Entry.colour e3 (subPixel dx dy)

/-! ## Codebook entries by index (R185, R186, R188) -/

/-- An entry of undefined colours (U3; log entry 5). -/
def undefinedEntry (n : Nat) : Entry :=
  { c0 := (Config.freeEntryColour n 0).setWidth 16, c1 := (Config.freeEntryColour n 1).setWidth 16
    c2 := (Config.freeEntryColour n 2).setWidth 16, c3 := (Config.freeEntryColour n 3).setWidth 16 }

/-- Entry `idx` of a codebook of slot i. An entry never written is none in the checked posture (R188); in the
unchecked one its colours are undefined: free values (U3). -/
def State.lookup (s : State) (i : Fin 32) (t : Target) (idx : Byte) : Option (Entry × State) :=
  if (s.slots[i.val].written t)[idx.toNat] = true then some ((s.slots[i.val].codebook t)[idx.toNat], s)
  else
    match s.posture with
    | .checked => none
    | .unchecked => some (undefinedEntry s.free, { s with free := s.free + 1 })

end Sys2Proof.Machine
end

