-- ==== Sys2Proof/Machine/Closing.lean ====
section
/-!
DEFINITION. What follows a record: the ends of a chunk, a strip and a frame (R208, R228, R229, R230), and the guard
of records that are not due.
-/

namespace Sys2Proof.Machine

/-- The end of the strip loop (R229, R230): the cursor must be at the declared end of the frame. -/
def State.endFrame (s : State) (fr : FrameRegs) : Outcome :=
  if s.cursor = fr.F + fr.flen then .next s.finishFrame else s.failCheck .invalidData

/-- The end of a strip (R228, R227): the cursor moves past it; the next strip is due, or the frame ends. -/
def State.endStrip (s : State) (fr : FrameRegs) (st : StripRegs) : Outcome :=
  let s := { s with cursor := st.S + st.slen }
  if fr.i.val + 1 < fr.nstrips then
    if h : fr.i.val + 1 < 32 then .next { s with fsm := .decoding (.strip { fr with i := ⟨fr.i.val + 1, h⟩ }) }
    else .fault .noSuchSlot
  else s.endFrame fr

/-- The head of the chunk loop (R208) with the chunk pointer at c: a chunk is due there, or the strip ends. -/
def State.chunkLoop (s : State) (fr : FrameRegs) (st : StripRegs) (c : Nat) : Outcome :=
  if c < st.S + st.slen then .next { s with fsm := .decoding (.chunk fr { st with c := c }) }
  else s.endStrip fr { st with c := c }

/-- A record where none of its format is due. -/
def notDue : Outcome := .refused .notDue

end Sys2Proof.Machine
end

