-- ==== Sys2Proof/Machine/Colour.lean ====
section
/-!
DEFINITION. The Color Transform (40_color_transform.md).
-/

namespace Sys2Proof.Machine

/-- `HALF(U)` (R145): the quotient by 2, toward zero or down. -/
def half (h : ChromaHalf) (u : Int) : Int :=
  match h with
  | .trunc => u.tdiv 2
  | .floor => u.fdiv 2

/-- Saturation to 0..255 (R143). -/
def clampByte (t : Int) : Nat := if t < 0 then 0 else if 255 < t then 255 else t.toNat

/-- A clamped channel without its three low bits (R144). -/
def channel (t : Int) : Colour := BitVec.ofNat 16 (clampByte t >>> 3)

/-- `(b5 << 10) | (g5 << 5) | r5` (R144). -/
def packColour (r g b : Colour) : Colour := (b <<< 10) ||| (g <<< 5) ||| r

/-- `CT(y, u, v)` (R141, R142): r = Y + 2V, g = Y - HALF(U) - V, b = Y + 2U in the integers. -/
def colourTransform (h : ChromaHalf) (y u v : Byte) : Colour :=
  packColour (channel ((y.toNat : Int) + 2 * v.toInt)) (channel ((y.toNat : Int) - half h u.toInt - v.toInt))
    (channel ((y.toNat : Int) + 2 * u.toInt))

/-- CT (R140): the colour word is the datapath's result and nothing else changes. -/
def execCt (y u v : Byte) (s : State) : Outcome :=
  .next { s with reply := .colour (colourTransform s.chromaHalf y u v) }

end Sys2Proof.Machine
end

