-- ==== Sys2Proof/Machine/BlockWriter.lean ====
section
/-!
DEFINITION. The Block Writer (42_block_writer.md).
-/

namespace Sys2Proof.Machine

/-- Sixteen writes into the framebuffer; none where the block is not inside it (R77, R173). -/
def State.writeBlock (s : State) (x y : Nat) (colour : Nat → Nat → Colour) : Option State :=
  if x + 4 ≤ 320 ∧ y + 4 ≤ 240 then some { s with fb := Framebuffer.setBlock s.fb x y colour } else none

/-- A block write by itself. -/
def State.blockWrite (s : State) (x y : Nat) (colour : Nat → Nat → Colour) : Outcome :=
  match s.writeBlock x y colour with
  | some t => .next t
  | none => .fault (.noSuchPixel x y)

/-- BW.V1 (R171). -/
def execBwV1 (x y : Nat) (e : Entry) (s : State) : Outcome := s.blockWrite x y (lanesV1 e)

/-- BW.V4 (R172). -/
def execBwV4 (x y : Nat) (e0 e1 e2 e3 : Entry) (s : State) : Outcome := s.blockWrite x y (lanesV4 e0 e1 e2 e3)

end Sys2Proof.Machine
end

