-- ==== Sys2Proof/Machine/Codebook.lean ====
section
/-!
DEFINITION. The Codebook Updater (41_codebook_update.md): the eight CB.* chunks and the groups G8, G12, GSKIP.
-/

namespace Sys2Proof.Machine

/-- A chunk header at the chunk pointer (R208): its length must hold the header and stay inside the strip; then the
payload `[c + 4, c + clen)` is opened with no mask bit left. -/
def State.openChunk (s : State) (clen : U16) (body : FrameRegs → StripRegs → Payload → Outcome) : Outcome :=
  match s.fsm with
  | .decoding (.chunk fr st) =>
    if ¬ (st.c + 4 ≤ st.S + st.slen) then s.failCheck .invalidData
    else if ¬ (4 ≤ clen.toNat ∧ st.c + clen.toNat ≤ st.S + st.slen) then s.failCheck .invalidData
    else body fr st { p := st.c + 4, E := st.c + clen.toNat, mask := 0, left := 0 }
  | _ => notDue

/-- The head of the group loop (R151): a group is due while payload bytes remain; then the end check of R156. -/
def State.codebookLoop (s : State) (fr : FrameRegs) (st : StripRegs) (cb : CodebookRegs) : Outcome :=
  if cb.pl.p < cb.pl.E then .next { s with fsm := .decoding (.group fr st cb) }
  else if cb.selective = true ∧ cb.pl.mask ≠ 0 then s.failCheck .invalidData
  else s.chunkLoop fr st cb.pl.E

/-- `CodebookUpdate(p, E, target, bpp12, selective)` up to its first group (R150, R151). -/
def State.openCodebook (s : State) (target : Target) (bpp12 selective : Bool) (clen : U16) : Outcome :=
  s.openChunk clen (fun fr st pl =>
    s.codebookLoop fr st { target := target, bpp12 := bpp12, selective := selective, k := 0, pl := pl })

/-- CB.V4.12.FULL (R157). -/
def execCbV412Full (clen : U16) (s : State) : Outcome := s.openCodebook .v4 true false clen
/-- CB.V4.12.SEL (R158). -/
def execCbV412Sel (clen : U16) (s : State) : Outcome := s.openCodebook .v4 true true clen
/-- CB.V1.12.FULL (R159). -/
def execCbV112Full (clen : U16) (s : State) : Outcome := s.openCodebook .v1 true false clen
/-- CB.V1.12.SEL (R160). -/
def execCbV112Sel (clen : U16) (s : State) : Outcome := s.openCodebook .v1 true true clen
/-- CB.V4.8.FULL (R161). -/
def execCbV48Full (clen : U16) (s : State) : Outcome := s.openCodebook .v4 false false clen
/-- CB.V4.8.SEL (R162). -/
def execCbV48Sel (clen : U16) (s : State) : Outcome := s.openCodebook .v4 false true clen
/-- CB.V1.8.FULL (R163). -/
def execCbV18Full (clen : U16) (s : State) : Outcome := s.openCodebook .v1 false false clen
/-- CB.V1.8.SEL (R164). -/
def execCbV18Sel (clen : U16) (s : State) : Outcome := s.openCodebook .v1 false true clen

/-- The entry of a group (R152): one colour per luma, one chroma pair for the four. -/
def groupEntry (h : ChromaHalf) (y0 y1 y2 y3 u v : Byte) : Entry :=
  { c0 := colourTransform h y0 u v, c1 := colourTransform h y1 u v
    c2 := colourTransform h y2 u v, c3 := colourTransform h y3 u v }

/-- `DecodeGroup(k)` (R151 to R153) for a group of n bytes: no 257th entry, the group inside the payload, entry k
written, `p` past the group, k advanced. -/
def State.decodeGroup (s : State) (fr : FrameRegs) (st : StripRegs) (cb : CodebookRegs) (n : Nat) (e : Entry) : Outcome :=
  if h : cb.k < 256 then
    if ¬ (cb.pl.p + n ≤ cb.pl.E) then s.failCheck .invalidData
    else
      (s.setSlot fr.i (s.slots[fr.i.val].writeEntry cb.target cb.k e h)).codebookLoop fr st
        { cb with k := cb.k + 1, pl := { cb.pl with p := cb.pl.p + n } }
  else s.failCheck .invalidData

/-- G8 (R152): chroma is zero. -/
def execG8 (y0 y1 y2 y3 : Byte) (s : State) : Outcome :=
  match s.fsm with
  | .decoding (.group fr st cb) =>
    if cb.bpp12 = true then notDue else s.decodeGroup fr st cb 4 (groupEntry s.chromaHalf y0 y1 y2 y3 0 0)
  | _ => notDue

/-- G12 (R152). -/
def execG12 (y0 y1 y2 y3 u v : Byte) (s : State) : Outcome :=
  match s.fsm with
  | .decoding (.group fr st cb) =>
    if cb.bpp12 = false then notDue else s.decodeGroup fr st cb 6 (groupEntry s.chromaHalf y0 y1 y2 y3 u v)
  | _ => notDue

/-- GSKIP (R154): the entry index advances, no byte is consumed, the codebook is untouched. -/
def execGskip (s : State) : Outcome :=
  match s.fsm with
  | .decoding (.group fr st cb) =>
    if cb.selective = false then notDue
    else if ¬ (cb.k < 256) then s.failCheck .invalidData
    else s.codebookLoop fr st { cb with k := cb.k + 1 }
  | _ => notDue

end Sys2Proof.Machine
end

