-- ==== Sys2Proof/Machine/Vector.lean ====
section
/-!
DEFINITION. The Vector Placer (43_vector_placer.md): the three VEC.* chunks and the block codes.
-/

namespace Sys2Proof.Machine

/-- The head of the block walk (R181): a block code is due while a block of the box remains; then every payload byte
must have been used (R189). -/
def State.blockLoop (s : State) (fr : FrameRegs) (st : StripRegs) (vp : VectorRegs) : Outcome :=
  if vp.by_ < s.slots[fr.i.val].y1 ∧ vp.bx < s.slots[fr.i.val].x1 then .next { s with fsm := .decoding (.block fr st vp) }
  else if vp.pl.p = vp.pl.E then s.chunkLoop fr st vp.pl.E
  else s.failCheck .invalidData

/-- The block after (bx, by) in raster order (R181). -/
def State.nextBlock (s : State) (fr : FrameRegs) (vp : VectorRegs) : VectorRegs :=
  if vp.bx + 4 < s.slots[fr.i.val].x1 then { vp with bx := vp.bx + 4 }
  else { vp with bx := s.slots[fr.i.val].x0, by_ := vp.by_ + 4 }

/-- `VectorPlace(p, E, i, kind)` up to its first block (R180, R181). -/
def State.openVector (s : State) (kind : VecKind) (clen : U16) : Outcome :=
  s.openChunk clen (fun fr st pl =>
    s.blockLoop fr st { kind := kind, bx := s.slots[fr.i.val].x0, by_ := s.slots[fr.i.val].y0, pl := pl })

/-- VEC.MIXED (R190). -/
def execVecMixed (clen : U16) (s : State) : Outcome := s.openVector .mixed clen
/-- VEC.DELTA (R192). -/
def execVecDelta (clen : U16) (s : State) : Outcome := s.openVector .delta clen
/-- VEC.UNIFORM (R191). -/
def execVecUniform (clen : U16) (s : State) : Outcome := s.openVector .uniform clen

/-- The walk goes on after a block that took n index bytes. -/
def State.blockDone (s : State) (fr : FrameRegs) (st : StripRegs) (vp : VectorRegs) (n : Nat) : Outcome :=
  s.blockLoop fr st { s.nextBlock fr vp with pl := { vp.pl with p := vp.pl.p + n } }

/-- The block is written and the walk goes on. -/
def State.drawBlock (s : State) (fr : FrameRegs) (st : StripRegs) (vp : VectorRegs) (n : Nat)
    (colour : Nat → Nat → Colour) : Outcome :=
  match s.writeBlock vp.bx vp.by_ colour with
  | some t => t.blockDone fr st vp n
  | none => .fault (.noSuchPixel vp.bx vp.by_)

/-- A V1 block (R185): the index byte inside the payload, the entry written before, one block write. -/
def State.placeV1 (s : State) (fr : FrameRegs) (st : StripRegs) (vp : VectorRegs) (i0 : Byte) : Outcome :=
  if ¬ (vp.pl.p + 1 ≤ vp.pl.E) then s.failCheck .invalidData
  else
    match s.lookup fr.i .v1 i0 with
    | some (e, t) => t.drawBlock fr st vp 1 (lanesV1 e)
    | none => s.failCheck .invalidData

/-- The four entries of a V4 block, looked up in order (R186). -/
def State.lookup4 (s : State) (i : Fin 32) (i0 i1 i2 i3 : Byte) : Option (Entry × Entry × Entry × Entry × State) :=
  match s.lookup i .v4 i0 with
  | none => none
  | some (e0, s0) =>
    match s0.lookup i .v4 i1 with
    | none => none
    | some (e1, s1) =>
      match s1.lookup i .v4 i2 with
      | none => none
      | some (e2, s2) =>
        match s2.lookup i .v4 i3 with
        | none => none
        | some (e3, s3) => some (e0, e1, e2, e3, s3)

/-- A V4 block (R186): the four index bytes inside the payload, the four entries written before, one block write. -/
def State.placeV4 (s : State) (fr : FrameRegs) (st : StripRegs) (vp : VectorRegs) (i0 i1 i2 i3 : Byte) : Outcome :=
  if ¬ (vp.pl.p + 4 ≤ vp.pl.E) then s.failCheck .invalidData
  else
    match s.lookup4 fr.i i0 i1 i2 i3 with
    | some (e0, e1, e2, e3, t) => t.drawBlock fr st vp 4 (lanesV4 e0 e1 e2 e3)
    | none => s.failCheck .invalidData

/-- Runs a block code where one of its kind of chunk is due. -/
def State.inBlock (s : State) (kind : VecKind) (body : FrameRegs → StripRegs → VectorRegs → Outcome) : Outcome :=
  match s.fsm with
  | .decoding (.block fr st vp) => if vp.kind = kind then body fr st vp else notDue
  | _ => notDue

/-- BU.V1 (R185). -/
def execBuV1 (i0 : Byte) (s : State) : Outcome := s.inBlock .uniform (fun fr st vp => s.placeV1 fr st vp i0)
/-- BM.V1 (R185). -/
def execBmV1 (i0 : Byte) (s : State) : Outcome := s.inBlock .mixed (fun fr st vp => s.placeV1 fr st vp i0)
/-- BM.V4 (R186). -/
def execBmV4 (i0 i1 i2 i3 : Byte) (s : State) : Outcome :=
  s.inBlock .mixed (fun fr st vp => s.placeV4 fr st vp i0 i1 i2 i3)
/-- BC.SKIP (R184): no byte consumed, no entry read, no pixel written. -/
def execBcSkip (s : State) : Outcome := s.inBlock .delta (fun fr st vp => s.blockDone fr st vp 0)
/-- BC.V1 (R185). -/
def execBcV1 (i0 : Byte) (s : State) : Outcome := s.inBlock .delta (fun fr st vp => s.placeV1 fr st vp i0)
/-- BC.V4 (R186). -/
def execBcV4 (i0 i1 i2 i3 : Byte) (s : State) : Outcome :=
  s.inBlock .delta (fun fr st vp => s.placeV4 fr st vp i0 i1 i2 i3)

end Sys2Proof.Machine
end

