-- ==== Sys2Proof/Machine/Strip.lean ====
section
/-!
DEFINITION. The Strip Decoder's header (44_strip.md): coordinates, checks, the box, seeding.
-/

namespace Sys2Proof.Machine

/-- The slot of strip i after its header: the box stored (R205), the codebooks seeded from the previous slot in an
inter frame (R206). -/
def State.headedSlot (s : State) (fr : FrameRegs) (b : Box) : Slot :=
  if fr.inter = true ∧ 0 < fr.i.val then (s.slots[fr.i.val].withBox b).seedFrom s.slots[fr.i.val - 1]
  else s.slots[fr.i.val].withBox b

/-- A strip header at the cursor (R201 to R208). Its id has been checked by the decoder (R202) and plays no further
part (R214); all checks precede the writes (R207). -/
def State.stripHeader (s : State) (slen py0 px0 py1 px1 : U16) : Outcome :=
  match s.fsm with
  | .decoding (.strip fr) =>
    let S := s.cursor
    let FE := fr.F + fr.flen
    let b := s.resolveBox fr.i py0 px0 py1 px1
    if ¬ (S + 12 ≤ FE) then s.failCheck .invalidData
    else if ¬ (12 ≤ slen.toNat ∧ S + slen.toNat ≤ FE) then s.failCheck .invalidData
    else if ¬ b.aligned then s.failCheck .invalidData
    else if ¬ b.ordered then s.failCheck .invalidData
    else if ¬ b.inFrame then s.failCheck .invalidData
    else (s.setSlot fr.i (s.headedSlot fr b)).chunkLoop fr { S := S, slen := slen.toNat, c := S + 12 } (S + 12)
  | _ => notDue

/-- STRIP.INTRA (R213). -/
def execStripIntra (slen py0 px0 py1 px1 : U16) (s : State) : Outcome := s.stripHeader slen py0 px0 py1 px1

/-- STRIP.INTER (R214). -/
def execStripInter (slen py0 px0 py1 px1 : U16) (s : State) : Outcome := s.stripHeader slen py0 px0 py1 px1

end Sys2Proof.Machine
end

