-- ==== Sys2Proof/Machine/Frame.lean ====
section
/-!
DEFINITION. The Frame Decoder's header (45_frame.md): the header checks in their order and the empty frame.
-/

namespace Sys2Proof.Machine

/-- A frame header at the cursor (R221 to R227). A zero-strip frame succeeds with the cursor past the header when its
declared length is 10 and is refused otherwise (R226, U5). -/
def State.frameHeader (s : State) (inter : Bool) (flen : BitVec 24) (width height nstrips : U16) : Outcome :=
  match s.fsm with
  | .decoding .frame =>
    let F := s.cursor
    let s' := { s with cursor := F + 10 }
    if ¬ (F + 10 ≤ s.length) then s.failCheck .invalidData
    else if ¬ (10 ≤ flen.toNat ∧ F + flen.toNat ≤ s.length) then s.failCheck .invalidData
    else if ¬ (width.toNat = 320 ∧ height.toNat = 240) then s.failCheck .badDimensions
    else if ¬ (nstrips.toNat ≤ 32) then s.failCheck .invalidData
    else if nstrips.toNat = 0 then
      if flen.toNat = 10 then .next s'.finishFrame else .refused .zeroStripFrame
    else
      .next { s' with fsm := .decoding (.strip
        { F := F, inter := inter, flen := flen.toNat, nstrips := nstrips.toNat, i := 0 }) }
  | _ => notDue

/-- FRAME.INTRA (R231); the spare flag bits are ignored (R119). -/
def execFrameIntra (_spare : BitVec 7) (flen : BitVec 24) (width height nstrips : U16) (s : State) : Outcome :=
  s.frameHeader false flen width height nstrips

/-- FRAME.INTER (R232). -/
def execFrameInter (_spare : BitVec 7) (flen : BitVec 24) (width height nstrips : U16) (s : State) : Outcome :=
  s.frameHeader true flen width height nstrips

end Sys2Proof.Machine
end

