-- ==== Sys2Proof/Machine/Fetch.lean ====
section
/-!
DEFINITION. Fetching the record that is due: its mask bits are taken from the payload's mask stream, its bytes are
read at the due position and the decoder names the instruction.
-/

namespace Sys2Proof.Machine

/-- What fetching gives: an instruction with the state it runs in (its mask bits taken), or an outcome without one. -/
inductive Fetched where
  | run (i : Instr) (s : State)
  | halt (o : Outcome)

/-- A decoder's rejection (R202, R210, R108). A chunk id in R108's band is refused where its chunk is contained in the
strip; a chunk that is not has already failed (R208). -/
def State.reject (s : State) (r : Reject) : Outcome :=
  match r with
  | .unclearChunkId cid clen =>
    match s.fsm with
    | .decoding (.chunk _ st) =>
      if 4 ≤ clen.toNat ∧ st.c + clen.toNat ≤ st.S + st.slen then .refused (.unclearChunkId cid)
      else s.failCheck .invalidData
    | _ => .refused (.unclearChunkId cid)
  | .truncated => s.failCheck .invalidData
  | .unknownStripId _ => s.failCheck .invalidData
  | .unknownChunkId _ _ => s.failCheck .invalidData

/-- Reads n bytes at a and decodes them with the mask bits already taken. -/
def State.fetchAt (s : State) (level : Level) (bits : List Bool) (a n : Nat) : Fetched :=
  match s.bytes a n with
  | none => .halt (.fault (.streamRange a))
  | some bytes =>
    match decode level bits bytes with
    | .ok d => .run d.instr s
    | .error r => .halt (s.reject r)

/-- The same for bytes that must end by `limit` (the `[C]` length checks of R152, R185, R186, R201, R208, R221). -/
def State.fetchWithin (s : State) (level : Level) (bits : List Bool) (a n limit : Nat) : Fetched :=
  if a + n ≤ limit then s.fetchAt level bits a n else .halt (s.failCheck .invalidData)

/-- The group level of a codebook chunk (R107). -/
def CodebookRegs.level (cb : CodebookRegs) : Level :=
  if cb.bpp12 = true then .group12 cb.selective else .group8 cb.selective

/-- The bytes of a group (R151). -/
def CodebookRegs.groupBytes (cb : CodebookRegs) : Nat := if cb.bpp12 = true then 6 else 4

/-- A mask bit that cannot be taken (R155, R183). -/
def State.noBit (s : State) (offset : Option Nat) : Fetched :=
  match offset with
  | some a => .halt (.fault (.streamRange a))
  | none => .halt (s.failCheck .invalidData)

/-- The group or GSKIP that is due (R151, R154, R155). -/
def State.fetchGroup (s : State) (fr : FrameRegs) (st : StripRegs) (cb : CodebookRegs) : Fetched :=
  if ¬ (cb.pl.p < cb.pl.E) then .halt (s.codebookLoop fr st cb)
  else if ¬ (cb.k < 256) then .halt (s.failCheck .invalidData)
  else if cb.selective = true then
    match s.nextBit cb.pl with
    | .bit b pl =>
      let s' := { s with fsm := .decoding (.group fr st { cb with pl := pl }) }
      s'.fetchWithin cb.level [b] pl.p (if b = true then cb.groupBytes else 0) pl.E
    | .endsInside => s.noBit none
    | .outside a => s.noBit (some a)
  else s.fetchWithin cb.level [] cb.pl.p cb.groupBytes cb.pl.E

/-- The index bytes of a block after its mask bits (R114 to R116). -/
def indexBytes (kind : VecKind) (bits : List Bool) : Nat :=
  match kind, bits with
  | .uniform, _ => 1
  | .mixed, [true] => 4
  | .mixed, _ => 1
  | .delta, [true, true] => 4
  | .delta, [true, false] => 1
  | .delta, _ => 0

/-- The block code whose mask bits have been taken, with its index bytes at `p`. -/
def State.fetchIndices (s : State) (fr : FrameRegs) (st : StripRegs) (vp : VectorRegs) (bits : List Bool) (pl : Payload) :
    Fetched :=
  let s' := { s with fsm := .decoding (.block fr st { vp with pl := pl }) }
  s'.fetchWithin (.block vp.kind) bits pl.p (indexBytes vp.kind bits) pl.E

/-- The block code that is due (R190 to R192). The second bit of a delta code may fetch a new mask word (R117). -/
def State.fetchBlock (s : State) (fr : FrameRegs) (st : StripRegs) (vp : VectorRegs) : Fetched :=
  match vp.kind with
  | .uniform => s.fetchIndices fr st vp [] vp.pl
  | .mixed =>
    match s.nextBit vp.pl with
    | .bit b pl => s.fetchIndices fr st vp [b] pl
    | .endsInside => s.noBit none
    | .outside a => s.noBit (some a)
  | .delta =>
    match s.nextBit vp.pl with
    | .bit false pl => s.fetchIndices fr st vp [false] pl
    | .bit true pl =>
      match s.nextBit pl with
      | .bit b pl' => s.fetchIndices fr st vp [true, b] pl'
      | .endsInside => s.noBit none
      | .outside a => s.noBit (some a)
    | .endsInside => s.noBit none
    | .outside a => s.noBit (some a)

/-- The record that is due (R220, R208, R151, R181). -/
def State.fetch (s : State) (due : Due) : Fetched :=
  match due with
  | .frame => s.fetchWithin .frame [] s.cursor 10 s.length
  | .strip fr => s.fetchWithin .strip [] s.cursor 12 (fr.F + fr.flen)
  | .chunk _ st => s.fetchWithin .chunk [] st.c 4 (st.S + st.slen)
  | .group fr st cb => s.fetchGroup fr st cb
  | .block fr st vp => s.fetchBlock fr st vp

end Sys2Proof.Machine
end

