-- ==== Sys2Proof/Machine/Records.lean ====
section
/-!
DEFINITION. One record step of a frame, and the run of them that DECODE_FRAME is (R220).
-/

namespace Sys2Proof.Machine

/-- Runs a stream record: what exec does with it. The datapath operations and the host's commands are no records. -/
def runRecord (i : Instr) (s : State) : Outcome :=
  match i with
  | .frameIntra spare flen w h n => execFrameIntra spare flen w h n s
  | .frameInter spare flen w h n => execFrameInter spare flen w h n s
  | .stripIntra l a b c d => execStripIntra l a b c d s
  | .stripInter l a b c d => execStripInter l a b c d s
  | .cbV412Full clen => execCbV412Full clen s
  | .cbV412Sel clen => execCbV412Sel clen s
  | .cbV112Full clen => execCbV112Full clen s
  | .cbV112Sel clen => execCbV112Sel clen s
  | .cbV48Full clen => execCbV48Full clen s
  | .cbV48Sel clen => execCbV48Sel clen s
  | .cbV18Full clen => execCbV18Full clen s
  | .cbV18Sel clen => execCbV18Sel clen s
  | .vecMixed clen => execVecMixed clen s
  | .vecDelta clen => execVecDelta clen s
  | .vecUniform clen => execVecUniform clen s
  | .g8 y0 y1 y2 y3 => execG8 y0 y1 y2 y3 s
  | .g12 y0 y1 y2 y3 u v => execG12 y0 y1 y2 y3 u v s
  | .gskip => execGskip s
  | .buV1 i0 => execBuV1 i0 s
  | .bmV1 i0 => execBmV1 i0 s
  | .bmV4 i0 i1 i2 i3 => execBmV4 i0 i1 i2 i3 s
  | .bcSkip => execBcSkip s
  | .bcV1 i0 => execBcV1 i0 s
  | .bcV4 i0 i1 i2 i3 => execBcV4 i0 i1 i2 i3 s
  | .ct .. | .bwV1 .. | .bwV4 .. | .init .. | .hasNext | .decodeFrame | .fbView => notDue

/-- One record step: the record that is due is fetched and run. -/
def recordStep (due : Due) (s : State) : Outcome :=
  match s.fetch due with
  | .run i t => runRecord i t
  | .halt o => o

/-- Record steps until the frame ends, at most n of them. -/
def runFrame (n : Nat) (s : State) : Outcome :=
  match s.fsm with
  | .decoding due =>
    match n with
    | 0 => .fault .frameNeverEnds
    | m + 1 =>
      match recordStep due s with
      | .next t => runFrame m t
      | .fault r => .fault r
      | .refused r => .refused r
  | _ => .next s

end Sys2Proof.Machine
end

