-- ==== Sys2Proof/Machine/HostCommands.lean ====
section
/-!
DEFINITION. The host's commands (46_host_commands.md).
-/

namespace Sys2Proof.Machine

/-- HAS_NEXT, DECODE_FRAME and FB_VIEW have a meaning in `Ready` and `Exhausted` only (R244, R271, R292, R295, U4). -/
def State.whenIdle (s : State) (command : State → Outcome) : Outcome :=
  match s.fsm with
  | .ready => command s
  | .exhausted => command s
  | .uninit => .refused .uninitialised
  | .failed => .refused .failedDecoder
  | .decoding _ => .refused .overlap

/-- INIT (R241), legal in `Uninit`, `Ready`, `Exhausted` and `Failed` (R242); while a DECODE_FRAME is in progress it is an
overlapping command, which has no step (R86, R295, U7). -/
def execInit (stream : List Byte) (length : Nat) (s : State) : Outcome :=
  if s.fsm.isDecoding = true then .refused .overlap
  else if length ≤ stream.length then .next (s.bind stream length)
  else .refused .shortStream

/-- HAS_NEXT (R244): it answers `cursor < length` and changes nothing else. -/
def execHasNext (s : State) : Outcome := s.whenIdle (fun s => .next { s with reply := .bool (decide (s.cursor < s.length)) })

/-- The `Eof` answer (R233, R261). -/
def State.eof (s : State) : State := { s with err := .eof, reply := .status .eof, viewValid := false }

/-- The start of a frame (R220): `fsm` is Decoding and a frame header is due. -/
def State.beginFrame (s : State) : State := { s with fsm := .decoding .frame, viewValid := false }

/-- DECODE_FRAME (R245): one whole frame in one step (R80, D26). -/
def execDecodeFrame (s : State) : Outcome :=
  s.whenIdle (fun s => if s.cursor = s.length then .next s.eof else runFrame Config.frameFuel s.beginFrame)

/-- FB_VIEW (R249): the host may read the framebuffer until the next decode (R250). -/
def execFbView (s : State) : Outcome := s.whenIdle (fun s => .next { s with reply := .view, viewValid := true })

end Sys2Proof.Machine
end

