-- ==== Sys2Proof/Machine/Dispatch.lean ====
section
/-!
DEFINITION. exec: one arm per instruction.
-/

namespace Sys2Proof.Machine

def exec (i : Instr) (s : State) : Host.Outcome State Fault Refusal :=
  match i with
  | .frameIntra spare flen w h n => Sys2Proof.Machine.execFrameIntra spare flen w h n s
  | .frameInter spare flen w h n => Sys2Proof.Machine.execFrameInter spare flen w h n s
  | .stripIntra l a b c d => Sys2Proof.Machine.execStripIntra l a b c d s
  | .stripInter l a b c d => Sys2Proof.Machine.execStripInter l a b c d s
  | .cbV412Full clen => Sys2Proof.Machine.execCbV412Full clen s
  | .cbV412Sel clen => Sys2Proof.Machine.execCbV412Sel clen s
  | .cbV112Full clen => Sys2Proof.Machine.execCbV112Full clen s
  | .cbV112Sel clen => Sys2Proof.Machine.execCbV112Sel clen s
  | .cbV48Full clen => Sys2Proof.Machine.execCbV48Full clen s
  | .cbV48Sel clen => Sys2Proof.Machine.execCbV48Sel clen s
  | .cbV18Full clen => Sys2Proof.Machine.execCbV18Full clen s
  | .cbV18Sel clen => Sys2Proof.Machine.execCbV18Sel clen s
  | .vecMixed clen => Sys2Proof.Machine.execVecMixed clen s
  | .vecDelta clen => Sys2Proof.Machine.execVecDelta clen s
  | .vecUniform clen => Sys2Proof.Machine.execVecUniform clen s
  | .g8 y0 y1 y2 y3 => Sys2Proof.Machine.execG8 y0 y1 y2 y3 s
  | .g12 y0 y1 y2 y3 u v => Sys2Proof.Machine.execG12 y0 y1 y2 y3 u v s
  | .gskip => Sys2Proof.Machine.execGskip s
  | .buV1 i0 => Sys2Proof.Machine.execBuV1 i0 s
  | .bmV1 i0 => Sys2Proof.Machine.execBmV1 i0 s
  | .bmV4 i0 i1 i2 i3 => Sys2Proof.Machine.execBmV4 i0 i1 i2 i3 s
  | .bcSkip => Sys2Proof.Machine.execBcSkip s
  | .bcV1 i0 => Sys2Proof.Machine.execBcV1 i0 s
  | .bcV4 i0 i1 i2 i3 => Sys2Proof.Machine.execBcV4 i0 i1 i2 i3 s
  | .ct y u v => Sys2Proof.Machine.execCt y u v s
  | .bwV1 x y e => Sys2Proof.Machine.execBwV1 x y e s
  | .bwV4 x y e0 e1 e2 e3 => Sys2Proof.Machine.execBwV4 x y e0 e1 e2 e3 s
  | .init stream length => Sys2Proof.Machine.execInit stream length s
  | .hasNext => Sys2Proof.Machine.execHasNext s
  | .decodeFrame => Sys2Proof.Machine.execDecodeFrame s
  | .fbView => Sys2Proof.Machine.execFbView s

end Sys2Proof.Machine
end

