-- ==== Sys2Proof/Machine/Step.lean ====
section
/-!
DEFINITION. The step: while a frame is being decoded, the record that is due; otherwise the host's next command.
-/

namespace Sys2Proof.Machine

/-- The instruction of a host command (R240). -/
def HostCmd.instr (c : HostCmd) : Instr :=
  match c with
  | .init stream length => .init stream length
  | .hasNext => .hasNext
  | .decodeFrame => .decodeFrame
  | .fbView => .fbView

/-- One step. No command is taken while a frame is being decoded (R295); without a command the decoder is idle and
all state survives (R281). -/
def step (s : State) : Host.Outcome State Fault Refusal :=
  match s.fsm with
  | .decoding due =>
    match s.fetch due with
    | .run i t => exec i t
    | .halt o => o
  | _ =>
    match s.cmds with
    | [] => .next s
    | c :: rest => exec c.instr { s with cmds := rest }

/-- Writes bytes into the stream from a on, lengthening it where needed. -/
def State.placeBytes (s : State) (a : Nat) (bytes : List Byte) : State :=
  match bytes with
  | [] => { s with length := max s.length a }
  | b :: rest => State.placeBytes { s with stream := s.stream.write a b } (a + 1) rest

/-- A mask register with the given bits on top. -/
def maskOf (bits : List Bool) : BitVec 32 :=
  match bits with
  | [] => 0
  | b :: rest => (BitVec.ofBool b ++ (0 : BitVec 31) : BitVec (1 + 31)) ||| (maskOf rest >>> 1)

/-- The working registers in which a record of a level is due: the record stands at `cursor` (a frame or strip
header), or at the start of the first chunk or of its payload (R100), and the mask register holds its bits. -/
def dueFor (level : Level) (bits : List Bool) (a n : Nat) : Due × Nat :=
  let fr : FrameRegs := { F := a, inter := false, flen := 28 + n, nstrips := 1, i := 0 }
  let st : StripRegs := { S := a, slen := 16 + n, c := a + 12 }
  let pl : Payload := { p := a + 16, E := a + 16 + max n 1, mask := maskOf bits, left := bits.length }
  match level with
  | .frame => (.frame, a)
  | .strip => (.strip fr, a)
  | .chunk => (.chunk fr st, a + 12)
  | .group8 sel => (.group fr st { target := .v4, bpp12 := false, selective := sel, k := 0, pl := pl }, a + 16)
  | .group12 sel => (.group fr st { target := .v4, bpp12 := true, selective := sel, k := 0, pl := pl }, a + 16)
  | .block kind => (.block fr st { kind := kind, bx := 0, by_ := 0, pl := pl }, a + 16)

/-- The state with an opcode-table word's record due and stored where the step fetches it (log entry 9). -/
def State.withFetchWord (s : State) (nbits w : Nat) : State :=
  match tableRecord nbits w with
  | (level, bits, bytes) =>
    match dueFor level bits s.cursor bytes.length with
    | (due, a) => State.placeBytes { s with fsm := .decoding due } a bytes

end Sys2Proof.Machine
end

