-- ==== Sys2Proof/Machine/Platform.lean ====
section
/-!
DEFINITION. What a platform may show of the decoder, under the two parameters the spec leaves open (R7, R74, R81): the
framebuffer as bytes, the status values at addresses. No command and no record depends on either.
-/

namespace Sys2Proof.Machine

/-- The byte of a colour word at the lower (false) or the higher (true) of its two addresses (R74). -/
def pixelByte (order : ByteOrder) (c : Colour) (upper : Bool) : Byte :=
  match order, upper with
  | .little, false => lowByte c
  | .little, true => highByte c
  | .big, false => highByte c
  | .big, true => lowByte c

/-- Byte `a` of the framebuffer's byte image under a byte order, counted from its start: pixel `(x, y)` is word
`y*320 + x` (R249) and has the bytes `2*(y*320 + x)` and the one after it. Nothing without a valid view. -/
def State.imageByte (s : State) (order : ByteOrder) (a : Nat) : Option Byte :=
  (s.viewPixel (a / 2 % 320) (a / 2 / 320)).map (fun c => pixelByte order c (decide (a % 2 = 1)))

/-- The byte image a platform that exposes the framebuffer as bytes shows (R74, D23). -/
def State.viewByte (s : State) (a : Nat) : Option Byte := s.imageByte Config.fbByteOrder a

/-- A status value the host reads (R43). -/
inductive Status where
  | fsm (f : Fsm)
  | err (k : ErrKind)
deriving DecidableEq, Repr

/-- What a register shows: the two status values are read-only, a command shows nothing (R40, R41, R43). In `Uninit` the
spec leaves `err` unspecified (R41, R47) and has reads of it refused (U13): it shows nothing there, which is the model's
form of that refusal (DESIGN CHOICE, log entry 26), and the `Ok` of State.reset is never shown. -/
def State.status (s : State) (r : HostRegister) : Option Status :=
  match r with
  | .fsm => some (.fsm s.fsm)
  | .err => if s.fsm = .uninit then none else some (.err s.err)
  | .init => none
  | .hasNext => none
  | .decodeFrame => none
  | .fbView => none

/-- The registers a map places at an address. -/
def registersAt (regMap : HostRegister → Nat) (a : Nat) : List HostRegister :=
  [.init, .hasNext, .decodeFrame, .fbView, .fsm, .err].filter (fun r => regMap r == a)

/-- The status values that `REGMAP` places at an address; the map is open, so it may place several or none there. -/
def State.statusAt (s : State) (a : Nat) : List Status := (registersAt Config.regMap a).filterMap s.status

end Sys2Proof.Machine
end

