-- ==== Sys2Proof/Safety.lean ====
section
/-!
DEFINITION. What a good state and a safe run are, and the terms the statements use.
-/

namespace Sys2Proof.Machine

/-! ## The invariant -/

/-- Every colour of a codebook has bit 15 clear (R46 c). -/
def plainCodebook (cb : Vector Entry 256) : Prop := ∀ k : Fin 256, cb[k.val].plain

/-- A slot between operations: its box block-aligned and inside the frame (R35, R46 b), its colours plain (R46 c). -/
def Slot.Good (sl : Slot) : Prop :=
  (sl.x0 % 4 = 0 ∧ sl.x1 % 4 = 0 ∧ sl.y0 % 4 = 0 ∧ sl.y1 % 4 = 0) ∧ (sl.x1 ≤ 320 ∧ sl.y1 ≤ 240) ∧
  plainCodebook sl.v1 ∧ plainCodebook sl.v4

/-- The stream memory is canonical and lists bound offsets only (R10). -/
def State.StreamGood (s : State) : Prop := s.stream.wf = true ∧ s.stream.below s.length = true

/-- Every framebuffer row is canonical, lists columns of the grid only, and its words have bit 15 clear (R39, R46). -/
def Framebuffer.Good (fb : Framebuffer) : Prop :=
  ∀ y : Fin 240, fb[y.val].wf = true ∧ fb[y.val].below 320 = true ∧ ∀ x : Nat, Colour.plain (fb[y.val].read x)

/-- The framebuffer of a good state. -/
def State.FramebufferGood (s : State) : Prop := Framebuffer.Good s.fb

/-- Working registers of a frame: declared end inside the stream, strip index below the strip count (R223, R225). -/
def FrameRegs.Good (fr : FrameRegs) (length : Nat) : Prop :=
  fr.F + fr.flen ≤ length ∧ fr.flen < 2 ^ 24 ∧ fr.nstrips ≤ 32 ∧ fr.i.val < fr.nstrips

/-- Working registers of a strip: it begins at the cursor, ends inside its frame, and a chunk starts inside it
(R204, R208). -/
def StripRegs.Good (st : StripRegs) (fr : FrameRegs) (cursor : Nat) : Prop :=
  st.S = cursor ∧ st.S + st.slen ≤ fr.F + fr.flen ∧ st.S ≤ st.c ∧ st.c < st.S + st.slen

/-- The payload of a chunk stands between the chunk pointer and the strip's end (R208). -/
def Payload.Good (pl : Payload) (st : StripRegs) : Prop :=
  st.c ≤ pl.p ∧ pl.p ≤ pl.E ∧ pl.E ≤ st.S + st.slen ∧ pl.left ≤ 32

/-- The record that is due is inside what contains it. -/
def State.DueGood (s : State) (due : Due) : Prop :=
  match due with
  | .frame => s.cursor < s.length
  | .strip fr => fr.Good s.length ∧ fr.F < s.cursor ∧ s.cursor ≤ fr.F + fr.flen
  | .chunk fr st => fr.Good s.length ∧ fr.F < s.cursor ∧ st.Good fr s.cursor
  | .group fr st cb => fr.Good s.length ∧ fr.F < s.cursor ∧ st.Good fr s.cursor ∧ cb.pl.Good st ∧ cb.pl.p < cb.pl.E
  | .block fr st vp =>
    fr.Good s.length ∧ fr.F < s.cursor ∧ st.Good fr s.cursor ∧ vp.pl.Good st ∧
    vp.bx % 4 = 0 ∧ vp.by_ % 4 = 0 ∧ vp.bx < s.slots[fr.i.val].x1 ∧ vp.by_ < s.slots[fr.i.val].y1

/-- The invariant of R46, R40 and R35. After power-on and after a failure nothing is said of cursor and slots. -/
def State.Inv (s : State) : Prop :=
  s.StreamGood ∧ s.FramebufferGood ∧
  match s.fsm with
  | .uninit => True
  | .failed => True
  | .ready => (∀ i : Fin 32, s.slots[i.val].Good) ∧ s.cursor < s.length
  | .exhausted => (∀ i : Fin 32, s.slots[i.val].Good) ∧ s.cursor = s.length
  | .decoding due => (∀ i : Fin 32, s.slots[i.val].Good) ∧ s.DueGood due

/-! ## Runs -/

/-- Up to n record steps of the machine, stopping where no frame is being decoded. -/
def recordRun (n : Nat) (s : State) : Outcome :=
  match n with
  | 0 => .next s
  | m + 1 =>
    match s.fsm with
    | .decoding _ =>
      match step s with
      | .next t => recordRun m t
      | .fault r => .fault r
      | .refused r => .refused r
    | _ => .next s

/-- n mask bits, first bit first, with the payload registers after them. -/
def State.takeBits (s : State) (n : Nat) (pl : Payload) : Option (List Bool × Payload) :=
  match n with
  | 0 => some ([], pl)
  | m + 1 =>
    match s.nextBit pl with
    | .bit b pl' =>
      match s.takeBits m pl' with
      | some (bits, pl'') => some (b :: bits, pl'')
      | none => none
    | _ => none

/-! ## What a record leaves unchanged -/

/-- The fields no record of the stream changes unless it fails. -/
def State.SameContext (s t : State) : Prop :=
  t.posture = s.posture ∧ t.chromaHalf = s.chromaHalf ∧ t.stream = s.stream ∧ t.length = s.length ∧
  t.viewValid = s.viewValid ∧ t.cmds = s.cmds

/-- After a record either the frame goes on with `err` and the reply as they were, or it has ended with `Ok` (R230). -/
def State.GoesOn (s t : State) : Prop :=
  (t.fsm.isDecoding = true ∧ t.err = s.err ∧ t.reply = s.reply) ∨
  (t.fsm = idleFsm t.cursor t.length ∧ t.err = .ok ∧ t.reply = .status .ok)

/-- The cursor moves only to the end of the strip that a record ends (R228). -/
def State.CursorKept (s t : State) (st : StripRegs) : Prop := t.cursor = s.cursor ∨ t.cursor = st.S + st.slen

/-- With its chunk pointer moved to c the strip goes on or ends well: another chunk stands at c, another strip
follows, or the frame's declared end is met (R208, R227, R229). -/
def ClosesWell (fr : FrameRegs) (st : StripRegs) (c : Nat) : Prop :=
  c < st.S + st.slen ∨ (fr.i.val + 1 < fr.nstrips ∧ fr.i.val + 1 < 32) ∨
  (fr.nstrips ≤ fr.i.val + 1 ∧ st.S + st.slen = fr.F + fr.flen)

/-- What is due where a chunk has ended with the chunk pointer at c: a chunk at c, or the next strip with the cursor past
this one, or nothing more of the frame, which has succeeded at the cursor (R208, R227, R228, R230). -/
def State.ChunkEnded (s t : State) (fr : FrameRegs) (st : StripRegs) (c : Nat) : Prop :=
  (c < st.S + st.slen → t.cursor = s.cursor ∧ t.fsm = .decoding (.chunk fr { st with c := c })) ∧
  (st.S + st.slen ≤ c → t.cursor = st.S + st.slen ∧
    (∀ h : fr.i.val + 1 < 32, fr.i.val + 1 < fr.nstrips →
      t.fsm = .decoding (.strip { fr with i := ⟨fr.i.val + 1, h⟩ })) ∧
    (fr.nstrips ≤ fr.i.val + 1 → t.fsm = if t.cursor = t.length then .exhausted else .ready))

/-- What follows a group with its payload pointer at p: another group, or the end of the chunk, which passes its end
check and closes well (R151, R156). -/
def GroupEndsWell (fr : FrameRegs) (st : StripRegs) (cb : CodebookRegs) (p : Nat) : Prop :=
  p < cb.pl.E ∨ ((cb.selective = true → cb.pl.mask = 0) ∧ ClosesWell fr st cb.pl.E)

/-- Whether block (bx, by) is the last of the slot's box in raster order (R181). -/
def Slot.lastBlock (sl : Slot) (bx by_ : Nat) : Prop := sl.x1 ≤ bx + 4 ∧ sl.y1 ≤ by_ + 4

/-- What follows a block with its payload pointer at p: another block of a box that is not empty, or the end of the
chunk with every payload byte used (R189). -/
def State.BlockEndsWell (s : State) (fr : FrameRegs) (st : StripRegs) (vp : VectorRegs) (p : Nat) : Prop :=
  (s.slots[fr.i.val].x0 < s.slots[fr.i.val].x1 ∧ vp.by_ < s.slots[fr.i.val].y1 ∧ ¬ s.slots[fr.i.val].lastBlock vp.bx vp.by_) ∨
  (s.slots[fr.i.val].lastBlock vp.bx vp.by_ ∧ p = vp.pl.E ∧ ClosesWell fr st vp.pl.E)

/-- The walk after a block with the payload pointer at p: the next block in raster order is due with the cursor where it
was, or the chunk has ended after the last one (R181, R189). -/
def State.WalkGoesOn (s t : State) (fr : FrameRegs) (st : StripRegs) (vp : VectorRegs) (p : Nat) : Prop :=
  (¬ s.slots[fr.i.val].lastBlock vp.bx vp.by_ → t.cursor = s.cursor ∧
    t.fsm = .decoding (.block fr st
      { vp with
        bx := if vp.bx + 4 < s.slots[fr.i.val].x1 then vp.bx + 4 else s.slots[fr.i.val].x0
        by_ := if vp.bx + 4 < s.slots[fr.i.val].x1 then vp.by_ else vp.by_ + 4
        pl := { vp.pl with p := p } })) ∧
  (s.slots[fr.i.val].lastBlock vp.bx vp.by_ → s.ChunkEnded t fr st vp.pl.E)

/-- Pixel (px, py) is in the block whose top-left pixel is (x, y) (R170). -/
abbrev pixelInBlock (x y px py : Nat) : Prop := x ≤ px ∧ px < x + 4 ∧ y ≤ py ∧ py < y + 4

/-- The framebuffer of t is that of s with the block at (x, y) drawn: its pixels are given by `colour dx dy`, every
other pixel of the grid reads as before (R173). -/
def State.Drew (s t : State) (x y : Nat) (colour : Nat → Nat → Colour) : Prop :=
  ∀ px py : Nat, px < 320 → py < 240 →
    Framebuffer.pixel t.fb px py =
      if pixelInBlock x y px py then colour (px - x) (py - y) else Framebuffer.pixel s.fb px py

/-- The codebooks of t are those of s with entry k of one target of slot i written; every box is as before (R153). -/
def State.WroteEntry (s t : State) (i : Fin 32) (target : Target) (k : Nat) (e : Entry) : Prop :=
  ∀ j : Fin 32,
    (t.slots[j.val].x0 = s.slots[j.val].x0 ∧ t.slots[j.val].x1 = s.slots[j.val].x1 ∧
      t.slots[j.val].y0 = s.slots[j.val].y0 ∧ t.slots[j.val].y1 = s.slots[j.val].y1) ∧
    ∀ (g : Target) (n : Fin 256),
      (t.slots[j.val].codebook g)[n.val] =
        (if j = i ∧ g = target ∧ n.val = k then e else (s.slots[j.val].codebook g)[n.val]) ∧
      (t.slots[j.val].written g)[n.val] =
        (if j = i ∧ g = target ∧ n.val = k then true else (s.slots[j.val].written g)[n.val])

/-- What every record of a strip leaves as it was: context, `err` and reply while the frame goes on, the cursor. -/
def State.RecordDone (s t : State) (st : StripRegs) : Prop := s.SameContext t ∧ s.GoesOn t ∧ s.CursorKept t st

/-- Instructions that may write pixels (R39, R173). -/
def Instr.writesPixels (i : Instr) : Bool :=
  match i with
  | .buV1 _ | .bmV1 _ | .bmV4 .. | .bcV1 _ | .bcV4 .. | .bwV1 .. | .bwV4 .. | .init .. | .decodeFrame => true
  | .frameIntra .. | .frameInter .. | .stripIntra .. | .stripInter .. => false
  | .cbV412Full _ | .cbV412Sel _ | .cbV112Full _ | .cbV112Sel _ => false
  | .cbV48Full _ | .cbV48Sel _ | .cbV18Full _ | .cbV18Sel _ => false
  | .vecMixed _ | .vecDelta _ | .vecUniform _ => false
  | .g8 .. | .g12 .. | .gskip | .bcSkip | .ct .. | .hasNext | .fbView => false

/-- Instructions that may write slots (R36, R37, R205, R206). -/
def Instr.writesSlots (i : Instr) : Bool :=
  match i with
  | .stripIntra .. | .stripInter .. | .g8 .. | .g12 .. | .init .. | .decodeFrame => true
  | .frameIntra .. | .frameInter .. => false
  | .cbV412Full _ | .cbV412Sel _ | .cbV112Full _ | .cbV112Sel _ => false
  | .cbV48Full _ | .cbV48Sel _ | .cbV18Full _ | .cbV18Sel _ => false
  | .vecMixed _ | .vecDelta _ | .vecUniform _ => false
  | .gskip | .buV1 _ | .bmV1 _ | .bmV4 .. | .bcSkip | .bcV1 _ | .bcV4 .. => false
  | .ct .. | .bwV1 .. | .bwV4 .. | .hasNext | .fbView => false

/-- The answer to an error of kind k in the checked posture (R268): a next state, Failed, with k delivered and what an
error does not touch as before. -/
def FailsWith (s : State) (o : Outcome) (k : ErrKind) : Prop :=
  ∃ t, o = .next t ∧ t.fsm = .failed ∧ t.err = k ∧ t.reply = .status k ∧ t.posture = s.posture ∧
    t.chromaHalf = s.chromaHalf ∧ t.stream = s.stream ∧ t.length = s.length ∧ t.viewValid = s.viewValid ∧ t.cmds = s.cmds

end Sys2Proof.Machine
end

