-- ==== Sys2Proof/Certificates/Slice0/Obligations.lean ====
section
/-!
DEFINITION. The statements for the provers. Each docstring names the rules it formalises.
-/

open Sys2Proof Sys2Proof.Machine

/-! ## Encoding -/

/-- Words written out from the formats of 30_encoding.md decode to the records they stand for (R102, R103, R105, R110,
R111, R115, R116). -/
def Obligations.SpecWordsDecode : Prop :=
  decode .frame [] [0x01, 0x00, 0x12, 0xE2, 0x01, 0x40, 0x00, 0xF0, 0x00, 0x01] =
    .ok { instr := .frameIntra 0 4834 320 240 1, bits := [], bytes := [] } ∧
  decode .frame [] [0xFE, 0x00, 0x00, 0x0A, 0x01, 0x40, 0x00, 0xF0, 0x00, 0x00] =
    .ok { instr := .frameInter 0x7F 10 320 240 0, bits := [], bytes := [] } ∧
  decode .strip [] [0x11, 0x00, 0x00, 0x21, 0x00, 0x04, 0x00, 0x08, 0x00, 0x0C, 0x00, 0x10] =
    .ok { instr := .stripInter 33 4 8 12 16, bits := [], bytes := [] } ∧
  decode .chunk [] [0x27, 0x00, 0x00, 0x0C] = .ok { instr := .cbV18Sel 12, bits := [], bytes := [] } ∧
  decode .chunk [] [0x31, 0x00, 0x00, 0x09] = .ok { instr := .vecDelta 9, bits := [], bytes := [] } ∧
  decode (.group12 false) [] [0x64, 0x65, 0x66, 0x67, 0x32, 0xEC] =
    .ok { instr := .g12 100 101 102 103 50 0xEC, bits := [], bytes := [] } ∧
  decode (.group8 true) [false] [] = .ok { instr := .gskip, bits := [], bytes := [] } ∧
  decode (.block .mixed) [true] [0, 1, 2, 3] = .ok { instr := .bmV4 0 1 2 3, bits := [], bytes := [] } ∧
  decode (.block .delta) [true, false] [7] = .ok { instr := .bcV1 7, bits := [], bytes := [] }

/-- Decoding an encoding, whatever follows it, gives the record back with every operand (R102 to R117). -/
def Obligations.DecodeOfEncode : Prop :=
  ∀ (level : Level) (i : Instr) (c : Code) (bits : List Bool) (bytes : List Byte),
    encode level i = some c →
    decode level (c.bits ++ bits) (c.bytes ++ bytes) = .ok { instr := i, bits := bits, bytes := bytes }

/-- What decodes is an encoding: the bits and bytes taken are exactly the record's own (R102 to R117). -/
def Obligations.EncodeOfDecode : Prop :=
  ∀ (level : Level) (bits : List Bool) (bytes : List Byte) (d : Decoded),
    decode level bits bytes = .ok d →
    ∃ c, encode level d.instr = some c ∧ bits = c.bits ++ d.bits ∧ bytes = c.bytes ++ d.bytes

/-- Chunk ids are matched in all 16 bits (R108): the eleven listed ones are recognised, an unlisted one with a listed
high byte has no meaning, every other one is unrecognised. -/
def Obligations.ChunkIdMatching : Prop :=
  ∀ cid clen : U16,
    let listed : List Nat :=
      [0x2000, 0x2100, 0x2200, 0x2300, 0x2400, 0x2500, 0x2600, 0x2700, 0x3000, 0x3100, 0x3200]
    let high : List Nat := [0x20, 0x21, 0x22, 0x23, 0x24, 0x25, 0x26, 0x27, 0x30, 0x31, 0x32]
    if cid.toNat ∈ listed then ∃ i, decodeChunkHeader cid clen = .ok i
    else if cid.toNat / 256 ∈ high then decodeChunkHeader cid clen = .error (.unclearChunkId cid clen)
    else decodeChunkHeader cid clen = .error (.unknownChunkId cid clen)

/-- The mask word's bits are taken from bit 31 down, and the word is read once, at the payload pointer (R73, R109,
R183). -/
def Obligations.MaskBitsMsbFirst : Prop :=
  ∀ (s : State) (pl : Payload) (w : BitVec 32) (n : Nat),
    pl.left = 0 → pl.p + 4 ≤ pl.E → s.be32 pl.p = some w → 1 ≤ n → n ≤ 32 →
    ∃ pl', s.takeBits n pl = some ((List.range n).map (fun j => w.getLsbD (31 - j)), pl') ∧
      pl'.p = pl.p + 4 ∧ pl'.E = pl.E ∧ pl'.left = 32 - n ∧ pl'.mask = w <<< n

/-- A mask word that runs out inside a two-bit code is followed by the next one, read at the payload pointer before the
block's index bytes (R117, R183). -/
def Obligations.MaskRefreshInsideCode : Prop :=
  ∀ (s : State) (pl : Payload) (w : BitVec 32), pl.left = 1 → pl.p + 4 ≤ pl.E → s.be32 pl.p = some w →
    s.takeBits 2 pl = some ([pl.mask.msb, w.msb], { p := pl.p + 4, E := pl.E, mask := w <<< 1, left := 31 })

/-! ## The datapath -/

/-- CT (R140 to R145): r = Y + 2V, g = Y - HALF(U) - V, b = Y + 2U in the integers, each saturated to 0..255 and divided
by 8, packed b5, g5, r5; HALF is either rounding of the build. Nothing but the result port changes. -/
def Obligations.ColourTransformResult : Prop :=
  ∀ (y u v : Byte) (s : State),
    let Y : Int := y.toNat
    let U : Int := u.toInt
    let V : Int := v.toInt
    let H : Int :=
      match s.chromaHalf with
      | .trunc => if U < 0 then -((-U) / 2) else U / 2
      | .floor => U / 2
    let five (t : Int) : Nat := (max 0 (min 255 t)).toNat / 8
    exec (.ct y u v) s =
      .next { s with
        reply := .colour (BitVec.ofNat 16 (five (Y + 2 * U) * 1024 + five (Y - H - V) * 32 + five (Y + 2 * V))) }

/-- With zero chroma all three 5-bit channels are y / 8, for either rounding (R146). -/
def Obligations.GreyWithoutChroma : Prop :=
  ∀ (y : Byte) (s : State),
    exec (.ct y 0 0) s = .next { s with reply := .colour (BitVec.ofNat 16 (y.toNat / 8 * 0x0421)) }

/-- BW.V1 (R171, R173): the four colours fill the four sub-quadrants; no other pixel and nothing else changes. The spec
says so for positions that are multiples of 4 and colours with bit 15 clear; for the others it is the model's choice (log
entry 25). -/
def Obligations.BlockWriteV1 : Prop :=
  ∀ (s : State) (x y : Nat) (e : Entry), x + 4 ≤ 320 → y + 4 ≤ 240 →
    ∃ t, exec (.bwV1 x y e) s = .next t ∧ t = { s with fb := t.fb } ∧
      s.Drew t x y (fun dx dy =>
        if dy < 2 then (if dx < 2 then e.c0 else e.c1) else (if dx < 2 then e.c2 else e.c3))

/-- BW.V4 (R172, R173): entry q fills sub-quadrant q, its four colours in the order top-left, top-right, bottom-left,
bottom-right; no other pixel and nothing else changes. The spec says so for positions that are multiples of 4 and colours
with bit 15 clear; for the others it is the model's choice (log entry 25). -/
def Obligations.BlockWriteV4 : Prop :=
  ∀ (s : State) (x y : Nat) (e0 e1 e2 e3 : Entry), x + 4 ≤ 320 → y + 4 ≤ 240 →
    ∃ t, exec (.bwV4 x y e0 e1 e2 e3) s = .next t ∧ t = { s with fb := t.fb } ∧
      s.Drew t x y (fun dx dy =>
        let e := if dy < 2 then (if dx < 2 then e0 else e1) else (if dx < 2 then e2 else e3)
        if dy % 2 = 0 then (if dx % 2 = 0 then e.c0 else e.c1) else (if dx % 2 = 0 then e.c2 else e.c3))

/-- BW.V1 is BW.V4 with sub-quadrant q filled from an entry that holds c[q] four times (R176). -/
def Obligations.BlockWriteV1IsConstantV4 : Prop :=
  ∀ (s : State) (x y : Nat) (e : Entry),
    exec (.bwV1 x y e) s =
      exec (.bwV4 x y ⟨e.c0, e.c0, e.c0, e.c0⟩ ⟨e.c1, e.c1, e.c1, e.c1⟩ ⟨e.c2, e.c2, e.c2, e.c2⟩
        ⟨e.c3, e.c3, e.c3, e.c3⟩) s

/-- A block that is not inside the framebuffer is a fault of the model, not a write (R77, R82; log entry 10). -/
def Obligations.BlockWriteOffGridFaults : Prop :=
  ∀ (s : State) (x y : Nat) (e e0 e1 e2 e3 : Entry), ¬ (x + 4 ≤ 320 ∧ y + 4 ≤ 240) →
    exec (.bwV1 x y e) s = .fault (.noSuchPixel x y) ∧ exec (.bwV4 x y e0 e1 e2 e3) s = .fault (.noSuchPixel x y)

/-! ## Power-on and the host's commands -/

/-- Power-on sets `Uninit`, where only INIT is accepted (R290, R292). -/
def Obligations.PowerOnAcceptsInitOnly : Prop :=
  State.reset.fsm = .uninit ∧
  ∀ s : State, s.fsm = .uninit →
    exec .hasNext s = .refused .uninitialised ∧ exec .decodeFrame s = .refused .uninitialised ∧
    exec .fbView s = .refused .uninitialised ∧
    ∀ (stream : List Byte) (n : Nat), n ≤ stream.length → exec (.init stream n) s = .next (s.bind stream n)

/-- `Failed` is absorbing (R271): INIT alone leaves it, and the other commands have no step. -/
def Obligations.FailedIsAbsorbing : Prop :=
  ∀ s : State, s.fsm = .failed →
    exec .hasNext s = .refused .failedDecoder ∧ exec .decodeFrame s = .refused .failedDecoder ∧
    exec .fbView s = .refused .failedDecoder ∧
    ∀ (stream : List Byte) (n : Nat), n ≤ stream.length →
      ∃ t, exec (.init stream n) s = .next t ∧ t.fsm = (if 0 < n then .ready else .exhausted)

/-- INIT in `Uninit`, `Ready`, `Exhausted` and `Failed` gives every piece of state the value of R47 and binds the stream
(R241, R242). In `Decoding` it is an overlap and refused: StepIssuesHostCommand says so. -/
def Obligations.InitGivesResetValues : Prop :=
  ∀ (s : State) (stream : List Byte) (n : Nat), s.fsm.isDecoding = false → n ≤ stream.length →
    ∃ t, exec (.init stream n) s = .next t ∧
      t.length = n ∧ (∀ a, a < n → t.byte a = stream[a]?) ∧ (∀ a, n ≤ a → t.byte a = none) ∧ t.cursor = 0 ∧
      (∀ i : Fin 32,
        t.slots[i.val].x0 = 0 ∧ t.slots[i.val].x1 = 0 ∧ t.slots[i.val].y0 = 0 ∧ t.slots[i.val].y1 = 0 ∧
        ∀ k : Fin 256,
          t.slots[i.val].v1[k.val] = ⟨0, 0, 0, 0⟩ ∧ t.slots[i.val].v4[k.val] = ⟨0, 0, 0, 0⟩ ∧
          t.slots[i.val].w1[k.val] = false ∧ t.slots[i.val].w4[k.val] = false) ∧
      (∀ x y, Framebuffer.pixel t.fb x y = 0) ∧ t.err = .ok ∧ t.fsm = (if 0 < n then .ready else .exhausted) ∧
      t.posture = s.posture ∧ t.chromaHalf = s.chromaHalf ∧ t.cmds = s.cmds

/-- HAS_NEXT (R244): in `Ready` and `Exhausted` it answers `cursor < length` and changes no state, true in a good `Ready`
state and false in a good `Exhausted` one; in `Failed` and `Uninit` it is refused. The answer stands in `reply` (log
entry 7). -/
def Obligations.HasNextAnswers : Prop :=
  ∀ s : State,
    (s.fsm = .ready ∨ s.fsm = .exhausted →
      exec .hasNext s = .next { s with reply := .bool (decide (s.cursor < s.length)) }) ∧
    (s.Inv → (s.fsm = .ready → exec .hasNext s = .next { s with reply := .bool true }) ∧
      (s.fsm = .exhausted → exec .hasNext s = .next { s with reply := .bool false })) ∧
    (s.fsm = .failed → exec .hasNext s = .refused .failedDecoder) ∧
    (s.fsm = .uninit → exec .hasNext s = .refused .uninitialised)

/-- FB_VIEW in `Ready` and `Exhausted` lets the host read every pixel and changes no state (R249). -/
def Obligations.FbViewShowsPixels : Prop :=
  ∀ s : State, s.fsm = .ready ∨ s.fsm = .exhausted →
    ∃ t, exec .fbView s = .next t ∧ t = { s with reply := .view, viewValid := true } ∧
      ∀ x y, x < 320 → y < 240 → t.viewPixel x y = some (Framebuffer.pixel s.fb x y)

/-- A view is invalid after a DECODE_FRAME and after an INIT (R250). -/
def Obligations.ViewEndsAtDecodeAndInit : Prop :=
  ∀ (s t : State) (i : Instr), (i = .decodeFrame ∨ ∃ stream n, i = .init stream n) → exec i s = .next t →
    ∀ x y, t.viewPixel x y = none

/-- DECODE_FRAME with `cursor == length` answers `Eof` and changes no other state of the decoder (R233, R261). -/
def Obligations.DecodeFrameEof : Prop :=
  ∀ s : State, s.fsm = .ready ∨ s.fsm = .exhausted → s.cursor = s.length →
    exec .decodeFrame s = .next { s with err := .eof, reply := .status .eof, viewValid := false }

/-- DECODE_FRAME of an empty frame (R226, R230): the cursor moves past the header and nothing is decoded. -/
def Obligations.DecodeFrameEmptyFrame : Prop :=
  ∀ (s : State) (l : List Byte) (d : Decoded) (spare : BitVec 7), s.fsm = .ready ∨ s.fsm = .exhausted →
    s.cursor ≠ s.length → s.bytes s.cursor 10 = some l → decode .frame [] l = .ok d →
    (d.instr = .frameIntra spare 10 320 240 0 ∨ d.instr = .frameInter spare 10 320 240 0) →
    exec .decodeFrame s =
      .next { s with
        cursor := s.cursor + 10, fsm := if s.cursor + 10 = s.length then .exhausted else .ready
        err := .ok, reply := .status .ok, viewValid := false }

/-- DECODE_FRAME is the run of the machine's own record steps from the frame header to the end of the frame, in one
atomic step (R80, R220, R245); the bound on their number is the model's (log entry 11). -/
def Obligations.DecodeFrameIsRecordRun : Prop :=
  ∀ s t : State, s.fsm = .ready ∨ s.fsm = .exhausted → s.cursor ≠ s.length →
    (exec .decodeFrame s = .next t ↔
      ∃ n, n ≤ Config.frameFuel ∧ recordRun n s.beginFrame = .next t ∧ t.fsm.isDecoding = false)

/-! ## Frame headers -/

/-- A frame header that passes its checks, with strips (R222 to R227): the cursor moves past it and strip 0 is due; the
inter flag alone tells the two records apart. -/
def Obligations.FrameHeaderOpensStrips : Prop :=
  ∀ (s : State) (spare : BitVec 7) (flen : BitVec 24) (w h n : U16), s.fsm = .decoding .frame →
    s.cursor + 10 ≤ s.length → 10 ≤ flen.toNat → s.cursor + flen.toNat ≤ s.length → w.toNat = 320 → h.toNat = 240 →
    1 ≤ n.toNat → n.toNat ≤ 32 →
    let opened (inter : Bool) : Outcome :=
      .next { s with
        cursor := s.cursor + 10
        fsm := .decoding (.strip { F := s.cursor, inter := inter, flen := flen.toNat, nstrips := n.toNat, i := 0 }) }
    exec (.frameIntra spare flen w h n) s = opened false ∧ exec (.frameInter spare flen w h n) s = opened true

/-- A frame header with no strips (R226, R230): with a declared length of 10 the frame succeeds at once, with any other
length that passes the length check it is refused. -/
def Obligations.EmptyFrameHeader : Prop :=
  ∀ (s : State) (spare : BitVec 7) (flen : BitVec 24) (w h n : U16) (i : Instr), s.fsm = .decoding .frame →
    s.cursor + 10 ≤ s.length → 10 ≤ flen.toNat → s.cursor + flen.toNat ≤ s.length → w.toNat = 320 → h.toNat = 240 →
    n.toNat = 0 → (i = .frameIntra spare flen w h n ∨ i = .frameInter spare flen w h n) →
    exec i s =
      if flen.toNat = 10 then
        .next { s with
          cursor := s.cursor + 10, fsm := if s.cursor + 10 = s.length then .exhausted else .ready
          err := .ok, reply := .status .ok }
      else .refused .zeroStripFrame

/-- The header checks in their order (R221, R223, R224, R225, R267), checked posture. -/
def Obligations.FrameHeaderErrors : Prop :=
  ∀ (s : State) (spare : BitVec 7) (flen : BitVec 24) (w h n : U16) (i : Instr), s.fsm = .decoding .frame →
    s.posture = .checked → (i = .frameIntra spare flen w h n ∨ i = .frameInter spare flen w h n) →
    if s.length < s.cursor + 10 then FailsWith s (exec i s) .invalidData
    else if flen.toNat < 10 ∨ s.length < s.cursor + flen.toNat then FailsWith s (exec i s) .invalidData
    else if w.toNat ≠ 320 ∨ h.toNat ≠ 240 then FailsWith s (exec i s) .badDimensions
    else if 32 < n.toNat then FailsWith s (exec i s) .invalidData
    else ∀ t, exec i s = .next t → t.fsm ≠ .failed

/-! ## Strip headers -/

/-- A strip header that passes its checks (R203, R205, R206, R212): coordinates resolved, box stored, codebooks and flags
seeded in an inter frame from the slot before, every other slot and every pixel as before; the first chunk is due, or
the strip of 12 bytes ends and the next strip is due or the frame has ended. -/
def Obligations.StripHeaderStoresBox : Prop :=
  ∀ (s : State) (fr : FrameRegs) (slen py0 px0 py1 px1 : U16) (i : Instr), s.fsm = .decoding (.strip fr) →
    (i = .stripIntra slen py0 px0 py1 px1 ∨ i = .stripInter slen py0 px0 py1 px1) →
    let prev := s.slots[fr.i.val - 1]
    let relative : Prop := py0.toNat = 0 ∧ 0 < fr.i.val
    let y0 := if relative then prev.y1 else py0.toNat
    let y1 := if relative then prev.y1 + py1.toNat else py1.toNat
    let st : StripRegs := { S := s.cursor, slen := slen.toNat, c := s.cursor + 12 }
    12 ≤ slen.toNat → s.cursor + slen.toNat ≤ fr.F + fr.flen →
    px0.toNat % 4 = 0 → px1.toNat % 4 = 0 → y0 % 4 = 0 → y1 % 4 = 0 → px0.toNat < px1.toNat → y0 < y1 →
    px1.toNat ≤ 320 → y1 ≤ 240 → ClosesWell fr st (s.cursor + 12) →
    ∃ t, exec i s = .next t ∧
      (t.slots[fr.i.val].x0 = px0.toNat ∧ t.slots[fr.i.val].x1 = px1.toNat ∧ t.slots[fr.i.val].y0 = y0 ∧
        t.slots[fr.i.val].y1 = y1) ∧
      (let from_ := if fr.inter = true ∧ 0 < fr.i.val then prev else s.slots[fr.i.val]
       t.slots[fr.i.val].v1 = from_.v1 ∧ t.slots[fr.i.val].v4 = from_.v4 ∧
       t.slots[fr.i.val].w1 = from_.w1 ∧ t.slots[fr.i.val].w4 = from_.w4) ∧
      (∀ j : Fin 32, j ≠ fr.i → t.slots[j.val] = s.slots[j.val]) ∧
      t.fb = s.fb ∧ t.free = s.free ∧ s.RecordDone t st ∧
      (12 < slen.toNat → t.cursor = s.cursor ∧ t.fsm = .decoding (.chunk fr st)) ∧
      (slen.toNat = 12 → t.cursor = s.cursor + 12) ∧ s.ChunkEnded t fr st (s.cursor + 12)

/-- The two strip records are identical in every respect (R214). -/
def Obligations.StripIdHasNoEffect : Prop :=
  ∀ (s : State) (slen py0 px0 py1 px1 : U16),
    exec (.stripIntra slen py0 px0 py1 px1) s = exec (.stripInter slen py0 px0 py1 px1) s

/-- The strip checks (R201, R204), checked posture: any that does not hold on the resolved coordinates is
`InvalidData`. -/
def Obligations.StripHeaderErrors : Prop :=
  ∀ (s : State) (fr : FrameRegs) (slen py0 px0 py1 px1 : U16) (i : Instr), s.fsm = .decoding (.strip fr) →
    s.posture = .checked →
    (i = .stripIntra slen py0 px0 py1 px1 ∨ i = .stripInter slen py0 px0 py1 px1) →
    let relative : Prop := py0.toNat = 0 ∧ 0 < fr.i.val
    let y0 := if relative then s.slots[fr.i.val - 1].y1 else py0.toNat
    let y1 := if relative then s.slots[fr.i.val - 1].y1 + py1.toNat else py1.toNat
    (fr.F + fr.flen < s.cursor + 12 ∨ slen.toNat < 12 ∨ fr.F + fr.flen < s.cursor + slen.toNat ∨
      px0.toNat % 4 ≠ 0 ∨ px1.toNat % 4 ≠ 0 ∨ y0 % 4 ≠ 0 ∨ y1 % 4 ≠ 0 ∨
      px1.toNat ≤ px0.toNat ∨ y1 ≤ y0 ∨ 320 < px1.toNat ∨ 240 < y1) →
    FailsWith s (exec i s) .invalidData

/-! ## Chunk headers -/

/-- The eight codebook chunks with a payload (R151, R157 to R164, R209): target, group size and mode of each; entry 0 is
due with no mask bit left. -/
def Obligations.CodebookChunkOpens : Prop :=
  ∀ (s : State) (fr : FrameRegs) (st : StripRegs) (clen : U16), s.fsm = .decoding (.chunk fr st) →
    5 ≤ clen.toNat → st.c + clen.toNat ≤ st.S + st.slen →
    let opened (target : Target) (bpp12 selective : Bool) : Outcome :=
      .next { s with
        fsm := .decoding (.group fr st
          { target := target, bpp12 := bpp12, selective := selective, k := 0
            pl := { p := st.c + 4, E := st.c + clen.toNat, mask := 0, left := 0 } }) }
    exec (.cbV412Full clen) s = opened .v4 true false ∧ exec (.cbV412Sel clen) s = opened .v4 true true ∧
    exec (.cbV112Full clen) s = opened .v1 true false ∧ exec (.cbV112Sel clen) s = opened .v1 true true ∧
    exec (.cbV48Full clen) s = opened .v4 false false ∧ exec (.cbV48Sel clen) s = opened .v4 false true ∧
    exec (.cbV18Full clen) s = opened .v1 false false ∧ exec (.cbV18Sel clen) s = opened .v1 false true

/-- A codebook chunk with an empty payload writes nothing and ends at once, in every mode (R165 a). -/
def Obligations.EmptyCodebookChunk : Prop :=
  ∀ (s : State) (fr : FrameRegs) (st : StripRegs) (clen : U16) (i : Instr), s.fsm = .decoding (.chunk fr st) →
    clen.toNat = 4 → st.c + 4 ≤ st.S + st.slen → ClosesWell fr st (st.c + 4) →
    i ∈ [.cbV412Full clen, .cbV412Sel clen, .cbV112Full clen, .cbV112Sel clen,
      .cbV48Full clen, .cbV48Sel clen, .cbV18Full clen, .cbV18Sel clen] →
    ∃ t, exec i s = .next t ∧ t.slots = s.slots ∧ t.fb = s.fb ∧ t.free = s.free ∧ s.RecordDone t st ∧
      s.ChunkEnded t fr st (st.c + 4)

/-- The three vector chunks (R181, R190 to R192): the walk starts at the top-left block of the strip's box with no mask
bit left. -/
def Obligations.VectorChunkOpens : Prop :=
  ∀ (s : State) (fr : FrameRegs) (st : StripRegs) (clen : U16), s.fsm = .decoding (.chunk fr st) →
    4 ≤ clen.toNat → st.c + clen.toNat ≤ st.S + st.slen →
    s.slots[fr.i.val].x0 < s.slots[fr.i.val].x1 → s.slots[fr.i.val].y0 < s.slots[fr.i.val].y1 →
    let opened (kind : VecKind) : Outcome :=
      .next { s with
        fsm := .decoding (.block fr st
          { kind := kind, bx := s.slots[fr.i.val].x0, by_ := s.slots[fr.i.val].y0
            pl := { p := st.c + 4, E := st.c + clen.toNat, mask := 0, left := 0 } }) }
    exec (.vecMixed clen) s = opened .mixed ∧ exec (.vecDelta clen) s = opened .delta ∧
    exec (.vecUniform clen) s = opened .uniform

/-- A chunk whose length does not hold its header or reaches past its strip is `InvalidData` (R208), for all eleven
records, checked posture. -/
def Obligations.ChunkLengthErrors : Prop :=
  ∀ (s : State) (fr : FrameRegs) (st : StripRegs) (clen : U16) (row : U16 × (U16 → Instr)),
    s.fsm = .decoding (.chunk fr st) → s.posture = .checked → row ∈ chunkRecords →
    (clen.toNat < 4 ∨ st.S + st.slen < st.c + clen.toNat) → FailsWith s (exec (row.2 clen) s) .invalidData

/-- The chunk loop (R208, R227 to R230): a chunk is due while the pointer is before the strip's end; then the cursor is
at the strip's end and the next strip is due, or the frame succeeds exactly at its declared end. -/
def Obligations.ChunkLoopEnds : Prop :=
  ∀ (s : State) (fr : FrameRegs) (st : StripRegs) (c : Nat),
    let SE := st.S + st.slen
    (c < SE → s.chunkLoop fr st c = .next { s with fsm := .decoding (.chunk fr { st with c := c }) }) ∧
    (SE ≤ c → ∀ h : fr.i.val + 1 < 32, fr.i.val + 1 < fr.nstrips →
      s.chunkLoop fr st c =
        .next { s with cursor := SE, fsm := .decoding (.strip { fr with i := ⟨fr.i.val + 1, h⟩ }) }) ∧
    (SE ≤ c → fr.nstrips ≤ fr.i.val + 1 → SE = fr.F + fr.flen →
      s.chunkLoop fr st c =
        .next { s with
          cursor := SE, fsm := if SE = s.length then .exhausted else .ready, err := .ok, reply := .status .ok }) ∧
    (SE ≤ c → fr.nstrips ≤ fr.i.val + 1 → SE ≠ fr.F + fr.flen → s.posture = .checked →
      FailsWith s (s.chunkLoop fr st c) .invalidData)

/-! ## Codebook groups -/

/-- G8 and G12 (R152, R153): entry k of the chunk's target gets the four transformed colours and its written flag;
every other entry, flag, box and pixel is as before; the entry index and the payload pointer advance, and after the last
group the chunk has ended. -/
def Obligations.GroupWritesEntry : Prop :=
  ∀ (s : State) (fr : FrameRegs) (st : StripRegs) (cb : CodebookRegs) (y0 y1 y2 y3 u v : Byte),
    s.fsm = .decoding (.group fr st cb) → cb.k < 256 →
    let done (i : Instr) (n : Nat) (u v : Byte) : Prop :=
      cb.pl.p + n ≤ cb.pl.E → GroupEndsWell fr st cb (cb.pl.p + n) →
      ∃ t, exec i s = .next t ∧
        s.WroteEntry t fr.i cb.target cb.k
          ⟨colourTransform s.chromaHalf y0 u v, colourTransform s.chromaHalf y1 u v,
           colourTransform s.chromaHalf y2 u v, colourTransform s.chromaHalf y3 u v⟩ ∧
        t.fb = s.fb ∧ t.free = s.free ∧ s.RecordDone t st ∧
        (cb.pl.p + n < cb.pl.E → t.cursor = s.cursor ∧
          t.fsm = .decoding (.group fr st { cb with k := cb.k + 1, pl := { cb.pl with p := cb.pl.p + n } })) ∧
        (cb.pl.E ≤ cb.pl.p + n → s.ChunkEnded t fr st cb.pl.E)
    (cb.bpp12 = false → done (.g8 y0 y1 y2 y3) 4 0 0) ∧ (cb.bpp12 = true → done (.g12 y0 y1 y2 y3 u v) 6 u v)

/-- GSKIP (R154): the entry index advances; no byte is consumed, codebooks and pixels are as before; with the payload
exhausted the chunk has ended. -/
def Obligations.GroupSkipKeepsEntry : Prop :=
  ∀ (s : State) (fr : FrameRegs) (st : StripRegs) (cb : CodebookRegs), s.fsm = .decoding (.group fr st cb) →
    cb.selective = true → cb.k < 256 → GroupEndsWell fr st cb cb.pl.p →
    ∃ t, exec .gskip s = .next t ∧ t.slots = s.slots ∧ t.fb = s.fb ∧ t.free = s.free ∧ s.RecordDone t st ∧
      (cb.pl.p < cb.pl.E → t.cursor = s.cursor ∧ t.fsm = .decoding (.group fr st { cb with k := cb.k + 1 })) ∧
      (cb.pl.E ≤ cb.pl.p → s.ChunkEnded t fr st cb.pl.E)

/-- The group errors (R151, R152, R156), checked posture: a 257th entry, a payload that ends inside a group, and mask
bits left when the payload is exhausted, after a group and after a GSKIP (R165 g). -/
def Obligations.GroupErrors : Prop :=
  ∀ (s : State) (fr : FrameRegs) (st : StripRegs) (cb : CodebookRegs) (y0 y1 y2 y3 u v : Byte),
    s.fsm = .decoding (.group fr st cb) → s.posture = .checked →
    let i : Instr := if cb.bpp12 = true then .g12 y0 y1 y2 y3 u v else .g8 y0 y1 y2 y3
    let n : Nat := if cb.bpp12 = true then 6 else 4
    (256 ≤ cb.k → FailsWith s (exec i s) .invalidData) ∧
    (256 ≤ cb.k → cb.selective = true → FailsWith s (exec .gskip s) .invalidData) ∧
    (cb.pl.E < cb.pl.p + n → FailsWith s (exec i s) .invalidData) ∧
    (cb.pl.p + n = cb.pl.E → cb.selective = true → cb.pl.mask ≠ 0 → FailsWith s (exec i s) .invalidData) ∧
    (cb.pl.E ≤ cb.pl.p → cb.selective = true → cb.pl.mask ≠ 0 → FailsWith s (exec .gskip s) .invalidData)

/-- A full chunk (R157, R159, R161, R163): run over a payload of exactly m groups, m at most 256, it writes entries 0 to
m - 1 of its target from the groups in order and leaves the entries from m on, the other codebook, every other slot and
every pixel; then the chunk has ended, and with it its strip where it is the last one. -/
def Obligations.FullCodebookChunk : Prop :=
  ∀ (s : State) (fr : FrameRegs) (st : StripRegs) (cb : CodebookRegs) (m : Nat),
    s.fsm = .decoding (.group fr st cb) → cb.selective = false → cb.k = 0 → 1 ≤ m → m ≤ 256 →
    let n : Nat := if cb.bpp12 = true then 6 else 4
    cb.pl.p + m * n = cb.pl.E → cb.pl.E ≤ s.length → ClosesWell fr st cb.pl.E →
    ∃ t, recordRun m s = .next t ∧ s.ChunkEnded t fr st cb.pl.E ∧ t.fb = s.fb ∧ t.free = s.free ∧ s.RecordDone t st ∧
      (∀ j : Fin 32, j ≠ fr.i → t.slots[j.val] = s.slots[j.val]) ∧
      (∀ g : Target, g ≠ cb.target →
        t.slots[fr.i.val].codebook g = s.slots[fr.i.val].codebook g ∧
        t.slots[fr.i.val].written g = s.slots[fr.i.val].written g) ∧
      (∀ (k : Fin 256) (y0 y1 y2 y3 u v : Byte),
        (if cb.bpp12 = true then s.bytes (cb.pl.p + k.val * 6) 6 = some [y0, y1, y2, y3, u, v]
         else s.bytes (cb.pl.p + k.val * 4) 4 = some [y0, y1, y2, y3] ∧ u = 0 ∧ v = 0) →
        k.val < m →
        (t.slots[fr.i.val].codebook cb.target)[k.val] =
          ⟨colourTransform s.chromaHalf y0 u v, colourTransform s.chromaHalf y1 u v,
           colourTransform s.chromaHalf y2 u v, colourTransform s.chromaHalf y3 u v⟩ ∧
        (t.slots[fr.i.val].written cb.target)[k.val] = true) ∧
      (∀ k : Fin 256, m ≤ k.val →
        (t.slots[fr.i.val].codebook cb.target)[k.val] = (s.slots[fr.i.val].codebook cb.target)[k.val] ∧
        (t.slots[fr.i.val].written cb.target)[k.val] = (s.slots[fr.i.val].written cb.target)[k.val])

/-! ## Block codes -/

/-- BU.V1, BM.V1, BC.V1 (R185, R181): the block is drawn from V1 entry I0, every other pixel, every slot and the cursor
are as before, and the next block in raster order is due; after the last block the chunk has ended. -/
def Obligations.V1BlockDraws : Prop :=
  ∀ (s : State) (fr : FrameRegs) (st : StripRegs) (vp : VectorRegs) (i0 : Byte),
    s.fsm = .decoding (.block fr st vp) → vp.pl.p + 1 ≤ vp.pl.E → s.slots[fr.i.val].w1[i0.toNat] = true →
    vp.bx + 4 ≤ 320 → vp.by_ + 4 ≤ 240 → s.BlockEndsWell fr st vp (vp.pl.p + 1) →
    let e := s.slots[fr.i.val].v1[i0.toNat]
    let done (i : Instr) : Prop :=
      ∃ t, exec i s = .next t ∧ t.slots = s.slots ∧ t.free = s.free ∧ s.RecordDone t st ∧
        s.Drew t vp.bx vp.by_ (fun dx dy =>
          if dy < 2 then (if dx < 2 then e.c0 else e.c1) else (if dx < 2 then e.c2 else e.c3)) ∧
        s.WalkGoesOn t fr st vp (vp.pl.p + 1)
    (vp.kind = .uniform → done (.buV1 i0)) ∧ (vp.kind = .mixed → done (.bmV1 i0)) ∧ (vp.kind = .delta → done (.bcV1 i0))

/-- BM.V4, BC.V4 (R186, R181): the block is drawn from V4 entries I0 to I3, every other pixel, every slot and the cursor
are as before, and the next block in raster order is due; after the last block the chunk has ended. -/
def Obligations.V4BlockDraws : Prop :=
  ∀ (s : State) (fr : FrameRegs) (st : StripRegs) (vp : VectorRegs) (i0 i1 i2 i3 : Byte),
    s.fsm = .decoding (.block fr st vp) → vp.pl.p + 4 ≤ vp.pl.E →
    s.slots[fr.i.val].w4[i0.toNat] = true → s.slots[fr.i.val].w4[i1.toNat] = true →
    s.slots[fr.i.val].w4[i2.toNat] = true → s.slots[fr.i.val].w4[i3.toNat] = true →
    vp.bx + 4 ≤ 320 → vp.by_ + 4 ≤ 240 → s.BlockEndsWell fr st vp (vp.pl.p + 4) →
    let v4 := s.slots[fr.i.val].v4
    let done (i : Instr) : Prop :=
      ∃ t, exec i s = .next t ∧ t.slots = s.slots ∧ t.free = s.free ∧ s.RecordDone t st ∧
        s.Drew t vp.bx vp.by_ (fun dx dy =>
          let e := if dy < 2 then (if dx < 2 then v4[i0.toNat] else v4[i1.toNat])
            else (if dx < 2 then v4[i2.toNat] else v4[i3.toNat])
          if dy % 2 = 0 then (if dx % 2 = 0 then e.c0 else e.c1) else (if dx % 2 = 0 then e.c2 else e.c3)) ∧
        s.WalkGoesOn t fr st vp (vp.pl.p + 4)
    (vp.kind = .mixed → done (.bmV4 i0 i1 i2 i3)) ∧ (vp.kind = .delta → done (.bcV4 i0 i1 i2 i3))

/-- BC.SKIP (R184): no pixel, slot or payload byte changes, and the next block in raster order is due; after the last
block the chunk has ended. -/
def Obligations.SkipBlockKeepsPixels : Prop :=
  ∀ (s : State) (fr : FrameRegs) (st : StripRegs) (vp : VectorRegs), s.fsm = .decoding (.block fr st vp) →
    vp.kind = .delta → s.BlockEndsWell fr st vp vp.pl.p →
    ∃ t, exec .bcSkip s = .next t ∧ t.fb = s.fb ∧ t.slots = s.slots ∧ t.free = s.free ∧ s.RecordDone t st ∧
      s.WalkGoesOn t fr st vp vp.pl.p

/-- An entry never written (R188), checked posture: `InvalidData`, for every block code that reads one. -/
def Obligations.UnwrittenEntryFails : Prop :=
  ∀ (s : State) (fr : FrameRegs) (st : StripRegs) (vp : VectorRegs) (i0 i1 i2 i3 : Byte),
    s.fsm = .decoding (.block fr st vp) → s.posture = .checked →
    (s.slots[fr.i.val].w1[i0.toNat] = false →
      (vp.kind = .uniform → FailsWith s (exec (.buV1 i0) s) .invalidData) ∧
      (vp.kind = .mixed → FailsWith s (exec (.bmV1 i0) s) .invalidData) ∧
      (vp.kind = .delta → FailsWith s (exec (.bcV1 i0) s) .invalidData)) ∧
    (s.slots[fr.i.val].w4[i0.toNat] = false ∨ s.slots[fr.i.val].w4[i1.toNat] = false ∨
      s.slots[fr.i.val].w4[i2.toNat] = false ∨ s.slots[fr.i.val].w4[i3.toNat] = false →
      (vp.kind = .mixed → FailsWith s (exec (.bmV4 i0 i1 i2 i3) s) .invalidData) ∧
      (vp.kind = .delta → FailsWith s (exec (.bcV4 i0 i1 i2 i3) s) .invalidData))

/-- The model's choice (log entry 5; U3): in the unchecked posture a V1 block of an entry never written is drawn in four
colours the model leaves free, and nothing else differs from a written one. -/
def Obligations.UnwrittenEntryUnchecked : Prop :=
  ∀ (s : State) (fr : FrameRegs) (st : StripRegs) (vp : VectorRegs) (i0 : Byte),
    s.fsm = .decoding (.block fr st vp) → s.posture = .unchecked → vp.pl.p + 1 ≤ vp.pl.E →
    s.slots[fr.i.val].w1[i0.toNat] = false → vp.bx + 4 ≤ 320 → vp.by_ + 4 ≤ 240 →
    s.BlockEndsWell fr st vp (vp.pl.p + 1) →
    let c (j : Nat) : Colour := (Config.freeEntryColour s.free j).setWidth 16
    let done (i : Instr) : Prop :=
      ∃ t, exec i s = .next t ∧ t.slots = s.slots ∧ t.free = s.free + 1 ∧ s.RecordDone t st ∧
        s.Drew t vp.bx vp.by_ (fun dx dy =>
          if dy < 2 then (if dx < 2 then c 0 else c 1) else (if dx < 2 then c 2 else c 3)) ∧
        s.WalkGoesOn t fr st vp (vp.pl.p + 1)
    (vp.kind = .uniform → done (.buV1 i0)) ∧ (vp.kind = .mixed → done (.bmV1 i0)) ∧ (vp.kind = .delta → done (.bcV1 i0))

/-- The model's choice (log entry 5; U3): in the unchecked posture a V4 block is drawn whatever its four entries are; each
one never written stands for four colours the model leaves free, drawn in the order of the index bytes, and the walk goes
on as for written ones. -/
def Obligations.UnwrittenEntriesUncheckedV4 : Prop :=
  ∀ (s : State) (fr : FrameRegs) (st : StripRegs) (vp : VectorRegs) (i0 i1 i2 i3 : Byte),
    s.fsm = .decoding (.block fr st vp) → s.posture = .unchecked → vp.pl.p + 4 ≤ vp.pl.E →
    vp.bx + 4 ≤ 320 → vp.by_ + 4 ≤ 240 → s.BlockEndsWell fr st vp (vp.pl.p + 4) →
    let sl := s.slots[fr.i.val]
    let after (n : Nat) (i : Byte) : Nat := if sl.w4[i.toNat] = true then n else n + 1
    let free (n j : Nat) : Colour := (Config.freeEntryColour n j).setWidth 16
    let entry (n : Nat) (i : Byte) : Entry :=
      if sl.w4[i.toNat] = true then sl.v4[i.toNat] else ⟨free n 0, free n 1, free n 2, free n 3⟩
    let n1 := after s.free i0
    let n2 := after n1 i1
    let n3 := after n2 i2
    let done (i : Instr) : Prop :=
      ∃ t, exec i s = .next t ∧ t.slots = s.slots ∧ t.free = after n3 i3 ∧ s.RecordDone t st ∧
        s.Drew t vp.bx vp.by_ (fun dx dy =>
          let e := if dy < 2 then (if dx < 2 then entry s.free i0 else entry n1 i1)
            else (if dx < 2 then entry n2 i2 else entry n3 i3)
          if dy % 2 = 0 then (if dx % 2 = 0 then e.c0 else e.c1) else (if dx % 2 = 0 then e.c2 else e.c3)) ∧
        s.WalkGoesOn t fr st vp (vp.pl.p + 4)
    (vp.kind = .mixed → done (.bmV4 i0 i1 i2 i3)) ∧ (vp.kind = .delta → done (.bcV4 i0 i1 i2 i3))

/-- The payload errors of block codes (R185, R186, R189), checked posture: index bytes missing, and bytes left over after
the last block, for every block code. -/
def Obligations.BlockPayloadErrors : Prop :=
  ∀ (s : State) (fr : FrameRegs) (st : StripRegs) (vp : VectorRegs) (i0 i1 i2 i3 : Byte),
    s.fsm = .decoding (.block fr st vp) → s.posture = .checked →
    (vp.pl.E < vp.pl.p + 1 →
      (vp.kind = .uniform → FailsWith s (exec (.buV1 i0) s) .invalidData) ∧
      (vp.kind = .mixed → FailsWith s (exec (.bmV1 i0) s) .invalidData) ∧
      (vp.kind = .delta → FailsWith s (exec (.bcV1 i0) s) .invalidData)) ∧
    (vp.pl.E < vp.pl.p + 4 →
      (vp.kind = .mixed → FailsWith s (exec (.bmV4 i0 i1 i2 i3) s) .invalidData) ∧
      (vp.kind = .delta → FailsWith s (exec (.bcV4 i0 i1 i2 i3) s) .invalidData)) ∧
    (s.slots[fr.i.val].lastBlock vp.bx vp.by_ → vp.pl.p ≠ vp.pl.E → vp.kind = .delta →
      FailsWith s (exec .bcSkip s) .invalidData) ∧
    (s.slots[fr.i.val].lastBlock vp.bx vp.by_ → vp.pl.p + 1 ≠ vp.pl.E → vp.bx + 4 ≤ 320 → vp.by_ + 4 ≤ 240 →
      (vp.kind = .uniform → FailsWith s (exec (.buV1 i0) s) .invalidData) ∧
      (vp.kind = .mixed → FailsWith s (exec (.bmV1 i0) s) .invalidData) ∧
      (vp.kind = .delta → FailsWith s (exec (.bcV1 i0) s) .invalidData)) ∧
    (s.slots[fr.i.val].lastBlock vp.bx vp.by_ → vp.pl.p + 4 ≠ vp.pl.E → vp.bx + 4 ≤ 320 → vp.by_ + 4 ≤ 240 →
      (vp.kind = .mixed → FailsWith s (exec (.bmV4 i0 i1 i2 i3) s) .invalidData) ∧
      (vp.kind = .delta → FailsWith s (exec (.bcV4 i0 i1 i2 i3) s) .invalidData))

/-! ## Open parameters -/

/-- The two parameters the spec leaves open (R7, R74, D1, D23, U15; log entry 24), whatever they are: the two bytes of a
pixel in a byte image of the framebuffer stand at `2*(y*320 + x)` and after it in the byte order; the two status values
stand where the register map places them and nowhere else, `err` not in `Uninit`, where reading it is refused (U13; log
entry 26). -/
def Obligations.OpenParametersRead : Prop :=
  ∀ s : State,
    (∀ x y, s.viewValid = true → x < 320 → y < 240 →
      let c := Framebuffer.pixel s.fb x y
      let a := 2 * (y * 320 + x)
      s.imageByte .little a = some (c.extractLsb' 0 8) ∧ s.imageByte .little (a + 1) = some (c.extractLsb' 8 8) ∧
      s.imageByte .big a = some (c.extractLsb' 8 8) ∧ s.imageByte .big (a + 1) = some (c.extractLsb' 0 8)) ∧
    (∀ a, 153600 ≤ a → s.viewByte a = none) ∧ (∀ a, s.viewByte a = s.imageByte Config.fbByteOrder a) ∧
    (∀ a (v : Status), v ∈ s.statusAt a ↔
      (Config.regMap .fsm = a ∧ v = .fsm s.fsm) ∨ (Config.regMap .err = a ∧ s.fsm ≠ .uninit ∧ v = .err s.err))

/-! ## The step -/

/-- While a frame is decoded, when the bytes that are due decode to a record, the step is exec of that record; for a
record with mask bits, in the state whose payload registers have had them taken (R2, R13, R220). -/
def Obligations.StepRunsDecodedRecord : Prop :=
  ∀ (s : State) (l : List Byte) (d : Decoded),
    (s.fsm = .decoding .frame → s.bytes s.cursor 10 = some l → decode .frame [] l = .ok d → step s = exec d.instr s) ∧
    (∀ fr, s.fsm = .decoding (.strip fr) → s.cursor + 12 ≤ fr.F + fr.flen → s.bytes s.cursor 12 = some l →
      decode .strip [] l = .ok d → step s = exec d.instr s) ∧
    (∀ fr st, s.fsm = .decoding (.chunk fr st) → st.c + 4 ≤ st.S + st.slen → s.bytes st.c 4 = some l →
      decode .chunk [] l = .ok d → step s = exec d.instr s) ∧
    (∀ fr st cb, s.fsm = .decoding (.group fr st cb) → cb.k < 256 → cb.selective = false →
      cb.pl.p + cb.groupBytes ≤ cb.pl.E → s.bytes cb.pl.p cb.groupBytes = some l →
      decode cb.level [] l = .ok d → step s = exec d.instr s) ∧
    (∀ fr st cb b pl, s.fsm = .decoding (.group fr st cb) → cb.k < 256 → cb.selective = true → cb.pl.p < cb.pl.E →
      s.nextBit cb.pl = .bit b pl → pl.p + (if b = true then cb.groupBytes else 0) ≤ pl.E →
      s.bytes pl.p (if b = true then cb.groupBytes else 0) = some l → decode cb.level [b] l = .ok d →
      step s = exec d.instr { s with fsm := .decoding (.group fr st { cb with pl := pl }) }) ∧
    (∀ fr st vp n bits pl, s.fsm = .decoding (.block fr st vp) → s.takeBits n vp.pl = some (bits, pl) →
      pl.p + indexBytes vp.kind bits ≤ pl.E → s.bytes pl.p (indexBytes vp.kind bits) = some l →
      decode (.block vp.kind) bits l = .ok d → d.bits = [] →
      step s = exec d.instr { s with fsm := .decoding (.block fr st { vp with pl := pl }) })

/-- The errors a step meets before a record runs, checked posture: a header that does not fit (R221, R201, R208), an
unknown strip id (R202), an unrecognised chunk id (R210), a 257th entry (R151), and a payload that ends inside a mask
word (R155, R183), a group (R152) or a block's index bytes (R185, R186). -/
def Obligations.FetchErrors : Prop :=
  ∀ s : State, s.posture = .checked →
    (s.fsm = .decoding .frame → s.length < s.cursor + 10 → FailsWith s (step s) .invalidData) ∧
    (∀ fr, s.fsm = .decoding (.strip fr) →
      (fr.F + fr.flen < s.cursor + 12 → FailsWith s (step s) .invalidData) ∧
      (∀ l1 l0 rest, s.cursor + 12 ≤ fr.F + fr.flen → s.bytes s.cursor 12 = some (l1 :: l0 :: rest) →
        ¬ (l1 = 0x10 ∧ l0 = 0) → ¬ (l1 = 0x11 ∧ l0 = 0) → FailsWith s (step s) .invalidData)) ∧
    (∀ fr st, s.fsm = .decoding (.chunk fr st) →
      (st.S + st.slen < st.c + 4 → FailsWith s (step s) .invalidData) ∧
      (∀ i1 i0 l1 l0 : Byte, st.c + 4 ≤ st.S + st.slen → s.bytes st.c 4 = some [i1, i0, l1, l0] →
        i1.toNat ∉ [0x20, 0x21, 0x22, 0x23, 0x24, 0x25, 0x26, 0x27, 0x30, 0x31, 0x32] →
        FailsWith s (step s) .invalidData)) ∧
    (∀ fr st cb, s.fsm = .decoding (.group fr st cb) → cb.pl.p < cb.pl.E →
      (256 ≤ cb.k → FailsWith s (step s) .invalidData) ∧
      (cb.selective = true → cb.pl.left = 0 → cb.pl.E < cb.pl.p + 4 → FailsWith s (step s) .invalidData) ∧
      (cb.selective = false → cb.pl.E < cb.pl.p + cb.groupBytes → FailsWith s (step s) .invalidData) ∧
      (∀ pl, cb.selective = true → s.nextBit cb.pl = .bit true pl → pl.E < pl.p + cb.groupBytes →
        FailsWith s (step s) .invalidData)) ∧
    (∀ fr st vp, s.fsm = .decoding (.block fr st vp) →
      (vp.kind ≠ .uniform → vp.pl.left = 0 → vp.pl.E < vp.pl.p + 4 → FailsWith s (step s) .invalidData) ∧
      (vp.kind = .delta → vp.pl.left = 1 → vp.pl.mask.msb = true → vp.pl.E < vp.pl.p + 4 →
        FailsWith s (step s) .invalidData) ∧
      (∀ n bits pl, s.takeBits n vp.pl = some (bits, pl) →
        (vp.kind = .uniform ∧ n = 0) ∨ (vp.kind = .mixed ∧ n = 1) ∨ (vp.kind = .delta ∧ bits = [false]) ∨
          (vp.kind = .delta ∧ ∃ b, bits = [true, b]) →
        pl.E < pl.p + indexBytes vp.kind bits → FailsWith s (step s) .invalidData))

/-- A chunk whose id shares its high byte with a listed one and has a low byte that is not 0 has no meaning (R108): it is
refused where the chunk is contained in its strip; otherwise its length is the error (R208). That the length is looked
at first is the model's choice (log entry 13). -/
def Obligations.UnclearChunkIdRefused : Prop :=
  ∀ (s : State) (fr : FrameRegs) (st : StripRegs) (i1 i0 l1 l0 : Byte), s.fsm = .decoding (.chunk fr st) →
    st.c + 4 ≤ st.S + st.slen → s.bytes st.c 4 = some [i1, i0, l1, l0] →
    i1.toNat ∈ [0x20, 0x21, 0x22, 0x23, 0x24, 0x25, 0x26, 0x27, 0x30, 0x31, 0x32] → i0 ≠ 0 →
    let clen := l1.toNat * 256 + l0.toNat
    if 4 ≤ clen ∧ st.c + clen ≤ st.S + st.slen then step s = .refused (.unclearChunkId (joinU16 i1 i0))
    else s.posture = .checked → FailsWith s (step s) .invalidData

/-- While no frame is decoded, the step issues the host's oldest command, and without one the decoder is idle (R17, R281;
log entry 6). While a frame is decoded each of the four commands is an overlap and refused (R86, R295). -/
def Obligations.StepIssuesHostCommand : Prop :=
  ∀ s : State,
    (s.fsm.isDecoding = false →
      (s.cmds = [] → step s = .next s) ∧
      (∀ rest, (∀ stream n, s.cmds = .init stream n :: rest → step s = exec (.init stream n) { s with cmds := rest }) ∧
        (s.cmds = .hasNext :: rest → step s = exec .hasNext { s with cmds := rest }) ∧
        (s.cmds = .decodeFrame :: rest → step s = exec .decodeFrame { s with cmds := rest }) ∧
        (s.cmds = .fbView :: rest → step s = exec .fbView { s with cmds := rest }))) ∧
    (s.fsm.isDecoding = true →
      (∀ stream n, exec (.init stream n) s = .refused .overlap) ∧ exec .hasNext s = .refused .overlap ∧
      exec .decodeFrame s = .refused .overlap ∧ exec .fbView s = .refused .overlap)

/-! ## Whole-machine rules -/

/-- Only INIT writes the stream and its length (R33, R87); no instruction writes the build's parameters (R8) or the
host's queue. -/
def Obligations.OnlyInitBindsStream : Prop :=
  ∀ (i : Instr) (s t : State), exec i s = .next t →
    (t.posture = s.posture ∧ t.chromaHalf = s.chromaHalf ∧ t.cmds = s.cmds) ∧
    ((∀ stream n, i ≠ .init stream n) → t.stream = s.stream ∧ t.length = s.length)

/-- Unless it fails, an instruction that is no block write, INIT or DECODE_FRAME leaves every pixel (R39, R173). -/
def Obligations.PixelsWrittenByBlocksOnly : Prop :=
  ∀ (i : Instr) (s t : State), exec i s = .next t → (t.fsm = .failed → s.fsm = .failed) → Instr.writesPixels i = false →
    t.fb = s.fb

/-- Unless it fails, an instruction that is no strip header, group, INIT or DECODE_FRAME leaves every slot: boxes,
codebooks and flags (R35, R36, R37). -/
def Obligations.SlotsWrittenByStripsAndGroupsOnly : Prop :=
  ∀ (i : Instr) (s t : State), exec i s = .next t → (t.fsm = .failed → s.fsm = .failed) → Instr.writesSlots i = false →
    t.slots = s.slots

/-- No execution reports `Internal` (R265), in `err` or in the value returned to the host (R246). -/
def Obligations.InternalNeverRaised : Prop :=
  ∀ (i : Instr) (s t : State), exec i s = .next t →
    (t.err = .internal → s.err = .internal) ∧ (t.reply = .status .internal → s.reply = .status .internal)

/-- The invariant of R40 and R46 holds at power-on. The spec gives only `fsm` there; the values of stream, length and
framebuffer are the model's choice (log entry 1). -/
def Obligations.InvariantAtPowerOn : Prop := State.reset.Inv

/-- Every step keeps the invariant (R32, R35, R40, R46): memories canonical, cursor inside the stream, boxes
block-aligned and inside the frame, colours and pixels with bit 15 clear, every record inside what contains it. -/
def Obligations.StepKeepsInvariant : Prop := ∀ s t : State, s.Inv → step s = .next t → t.Inv

/-- From a state that meets the invariant no step faults (R82, R304): no read outside the stream, no block outside the
framebuffer, no strip after slot 31, and every DECODE_FRAME ends within the model's bound (log entry 11). -/
def Obligations.StepNeverFaults : Prop := ∀ (s : State) (r : Fault), s.Inv → step s ≠ .fault r

/-- From a state that meets the invariant, a step of the checked posture refuses only what the spec tells a model to
refuse: R108's id band, R226's zero-strip frame, commands in `Uninit` and `Failed`, and an INIT without its bytes (log
entry 17). -/
def Obligations.CheckedStepRefusals : Prop :=
  ∀ (s : State) (r : Refusal), s.Inv → s.posture = .checked → step s = .refused r →
    (∃ cid, r = .unclearChunkId cid) ∨ r = .zeroStripFrame ∨ r = .uninitialised ∨ r = .failedDecoder ∨ r = .shortStream

/-- Where the checked DECODE_FRAME returns `Ok`, the unchecked one returns `Ok` with the same final state (R302). -/
def Obligations.PosturesAgreeOnValidFrames : Prop :=
  ∀ s t : State, s.posture = .checked → exec .decodeFrame s = .next t → t.err = .ok →
    exec .decodeFrame { s with posture := .unchecked } = .next { t with posture := .unchecked }

/-- The unchecked posture's DECODE_FRAME can return only `Ok` and `Eof` (R266). -/
def Obligations.UncheckedReturnsOkOrEof : Prop :=
  ∀ s t : State, s.posture = .unchecked → exec .decodeFrame s = .next t →
    (t.err = .ok ∨ t.err = .eof) ∧ t.reply = .status t.err ∧ t.fsm ≠ .failed

/-- A DECODE_FRAME that decodes a frame with `Ok` consumes exactly the frame's declared length, stays inside the stream,
and is `Ready` or `Exhausted` by the cursor (R32, R229, R230, R236). -/
def Obligations.FrameConsumesDeclaredLength : Prop :=
  ∀ s t : State, s.cursor ≠ s.length → exec .decodeFrame s = .next t → t.err = .ok →
    ∃ l spare flen w h n, s.bytes s.cursor 10 = some l ∧
      (decode .frame [] l = .ok { instr := .frameIntra spare flen w h n, bits := [], bytes := [] } ∨
        decode .frame [] l = .ok { instr := .frameInter spare flen w h n, bits := [], bytes := [] }) ∧
      t.cursor = s.cursor + flen.toNat ∧ s.cursor < t.cursor ∧ t.cursor ≤ s.length ∧
      t.fsm = (if t.cursor = t.length then .exhausted else .ready)

/-- A slot at or above a decoded frame's strip count keeps its box, codebooks and flags (R37). -/
def Obligations.UnusedSlotsKept : Prop :=
  ∀ (s t : State) (l : List Byte) (d : Decoded) (spare : BitVec 7) (flen : BitVec 24) (w h n : U16),
    s.cursor ≠ s.length → exec .decodeFrame s = .next t → t.err = .ok → s.bytes s.cursor 10 = some l →
    decode .frame [] l = .ok d →
    (d.instr = .frameIntra spare flen w h n ∨ d.instr = .frameInter spare flen w h n) →
    ∀ j : Fin 32, n.toNat ≤ j.val → t.slots[j.val] = s.slots[j.val]
end

