-- ==== Sys2Proof/Laws/State.lean ====
section
/-!
SUPPORT. One lemma per field per update of State, each true by rfl, so that no later proof unfolds a record update.
-/

namespace Sys2Proof.Machine

@[simp] theorem State.setSlot_posture (s : State) (i : Fin 32) (sl : Slot) : (s.setSlot i sl).posture = s.posture := rfl
@[simp] theorem State.setSlot_chromaHalf (s : State) (i : Fin 32) (sl : Slot) : (s.setSlot i sl).chromaHalf = s.chromaHalf := rfl
@[simp] theorem State.setSlot_stream (s : State) (i : Fin 32) (sl : Slot) : (s.setSlot i sl).stream = s.stream := rfl
@[simp] theorem State.setSlot_length (s : State) (i : Fin 32) (sl : Slot) : (s.setSlot i sl).length = s.length := rfl
@[simp] theorem State.setSlot_cursor (s : State) (i : Fin 32) (sl : Slot) : (s.setSlot i sl).cursor = s.cursor := rfl
@[simp] theorem State.setSlot_slots (s : State) (i : Fin 32) (sl : Slot) : (s.setSlot i sl).slots = s.slots.set i sl := rfl
@[simp] theorem State.setSlot_fb (s : State) (i : Fin 32) (sl : Slot) : (s.setSlot i sl).fb = s.fb := rfl
@[simp] theorem State.setSlot_fsm (s : State) (i : Fin 32) (sl : Slot) : (s.setSlot i sl).fsm = s.fsm := rfl
@[simp] theorem State.setSlot_err (s : State) (i : Fin 32) (sl : Slot) : (s.setSlot i sl).err = s.err := rfl
@[simp] theorem State.setSlot_reply (s : State) (i : Fin 32) (sl : Slot) : (s.setSlot i sl).reply = s.reply := rfl
@[simp] theorem State.setSlot_viewValid (s : State) (i : Fin 32) (sl : Slot) : (s.setSlot i sl).viewValid = s.viewValid := rfl
@[simp] theorem State.setSlot_cmds (s : State) (i : Fin 32) (sl : Slot) : (s.setSlot i sl).cmds = s.cmds := rfl
@[simp] theorem State.setSlot_free (s : State) (i : Fin 32) (sl : Slot) : (s.setSlot i sl).free = s.free := rfl

@[simp] theorem State.fail_posture (s : State) (k : ErrKind) : (s.fail k).posture = s.posture := rfl
@[simp] theorem State.fail_chromaHalf (s : State) (k : ErrKind) : (s.fail k).chromaHalf = s.chromaHalf := rfl
@[simp] theorem State.fail_stream (s : State) (k : ErrKind) : (s.fail k).stream = s.stream := rfl
@[simp] theorem State.fail_length (s : State) (k : ErrKind) : (s.fail k).length = s.length := rfl
@[simp] theorem State.fail_cursor (s : State) (k : ErrKind) : (s.fail k).cursor = Config.freeCursor s.free := rfl
@[simp] theorem State.fail_slots (s : State) (k : ErrKind) : (s.fail k).slots = freeSlots s.free := rfl
@[simp] theorem State.fail_fb (s : State) (k : ErrKind) : (s.fail k).fb = freeFramebuffer s.free := rfl
@[simp] theorem State.fail_fsm (s : State) (k : ErrKind) : (s.fail k).fsm = .failed := rfl
@[simp] theorem State.fail_err (s : State) (k : ErrKind) : (s.fail k).err = k := rfl
@[simp] theorem State.fail_reply (s : State) (k : ErrKind) : (s.fail k).reply = .status k := rfl
@[simp] theorem State.fail_viewValid (s : State) (k : ErrKind) : (s.fail k).viewValid = s.viewValid := rfl
@[simp] theorem State.fail_cmds (s : State) (k : ErrKind) : (s.fail k).cmds = s.cmds := rfl
@[simp] theorem State.fail_free (s : State) (k : ErrKind) : (s.fail k).free = s.free + 1 := rfl

@[simp] theorem State.bind_posture (s : State) (bytes : List Byte) (n : Nat) : (s.bind bytes n).posture = s.posture := rfl
@[simp] theorem State.bind_chromaHalf (s : State) (bytes : List Byte) (n : Nat) : (s.bind bytes n).chromaHalf = s.chromaHalf := rfl
@[simp] theorem State.bind_stream (s : State) (bytes : List Byte) (n : Nat) : (s.bind bytes n).stream = streamCells 0 (bytes.take n) := rfl
@[simp] theorem State.bind_length (s : State) (bytes : List Byte) (n : Nat) : (s.bind bytes n).length = n := rfl
@[simp] theorem State.bind_cursor (s : State) (bytes : List Byte) (n : Nat) : (s.bind bytes n).cursor = 0 := rfl
@[simp] theorem State.bind_slots (s : State) (bytes : List Byte) (n : Nat) : (s.bind bytes n).slots = Vector.replicate 32 Slot.zero := rfl
@[simp] theorem State.bind_fb (s : State) (bytes : List Byte) (n : Nat) : (s.bind bytes n).fb = Vector.replicate 240 [] := rfl
@[simp] theorem State.bind_fsm (s : State) (bytes : List Byte) (n : Nat) : (s.bind bytes n).fsm = if 0 < n then .ready else .exhausted := rfl
@[simp] theorem State.bind_err (s : State) (bytes : List Byte) (n : Nat) : (s.bind bytes n).err = .ok := rfl
@[simp] theorem State.bind_reply (s : State) (bytes : List Byte) (n : Nat) : (s.bind bytes n).reply = .none := rfl
@[simp] theorem State.bind_viewValid (s : State) (bytes : List Byte) (n : Nat) : (s.bind bytes n).viewValid = false := rfl
@[simp] theorem State.bind_cmds (s : State) (bytes : List Byte) (n : Nat) : (s.bind bytes n).cmds = s.cmds := rfl
@[simp] theorem State.bind_free (s : State) (bytes : List Byte) (n : Nat) : (s.bind bytes n).free = s.free := rfl

@[simp] theorem State.finishFrame_posture (s : State) : s.finishFrame.posture = s.posture := rfl
@[simp] theorem State.finishFrame_chromaHalf (s : State) : s.finishFrame.chromaHalf = s.chromaHalf := rfl
@[simp] theorem State.finishFrame_stream (s : State) : s.finishFrame.stream = s.stream := rfl
@[simp] theorem State.finishFrame_length (s : State) : s.finishFrame.length = s.length := rfl
@[simp] theorem State.finishFrame_cursor (s : State) : s.finishFrame.cursor = s.cursor := rfl
@[simp] theorem State.finishFrame_slots (s : State) : s.finishFrame.slots = s.slots := rfl
@[simp] theorem State.finishFrame_fb (s : State) : s.finishFrame.fb = s.fb := rfl
@[simp] theorem State.finishFrame_fsm (s : State) : s.finishFrame.fsm = idleFsm s.cursor s.length := rfl
@[simp] theorem State.finishFrame_err (s : State) : s.finishFrame.err = .ok := rfl
@[simp] theorem State.finishFrame_reply (s : State) : s.finishFrame.reply = .status .ok := rfl
@[simp] theorem State.finishFrame_viewValid (s : State) : s.finishFrame.viewValid = s.viewValid := rfl
@[simp] theorem State.finishFrame_cmds (s : State) : s.finishFrame.cmds = s.cmds := rfl
@[simp] theorem State.finishFrame_free (s : State) : s.finishFrame.free = s.free := rfl

@[simp] theorem State.eof_posture (s : State) : s.eof.posture = s.posture := rfl
@[simp] theorem State.eof_chromaHalf (s : State) : s.eof.chromaHalf = s.chromaHalf := rfl
@[simp] theorem State.eof_stream (s : State) : s.eof.stream = s.stream := rfl
@[simp] theorem State.eof_length (s : State) : s.eof.length = s.length := rfl
@[simp] theorem State.eof_cursor (s : State) : s.eof.cursor = s.cursor := rfl
@[simp] theorem State.eof_slots (s : State) : s.eof.slots = s.slots := rfl
@[simp] theorem State.eof_fb (s : State) : s.eof.fb = s.fb := rfl
@[simp] theorem State.eof_fsm (s : State) : s.eof.fsm = s.fsm := rfl
@[simp] theorem State.eof_err (s : State) : s.eof.err = .eof := rfl
@[simp] theorem State.eof_reply (s : State) : s.eof.reply = .status .eof := rfl
@[simp] theorem State.eof_viewValid (s : State) : s.eof.viewValid = false := rfl
@[simp] theorem State.eof_cmds (s : State) : s.eof.cmds = s.cmds := rfl
@[simp] theorem State.eof_free (s : State) : s.eof.free = s.free := rfl

@[simp] theorem State.beginFrame_posture (s : State) : s.beginFrame.posture = s.posture := rfl
@[simp] theorem State.beginFrame_chromaHalf (s : State) : s.beginFrame.chromaHalf = s.chromaHalf := rfl
@[simp] theorem State.beginFrame_stream (s : State) : s.beginFrame.stream = s.stream := rfl
@[simp] theorem State.beginFrame_length (s : State) : s.beginFrame.length = s.length := rfl
@[simp] theorem State.beginFrame_cursor (s : State) : s.beginFrame.cursor = s.cursor := rfl
@[simp] theorem State.beginFrame_slots (s : State) : s.beginFrame.slots = s.slots := rfl
@[simp] theorem State.beginFrame_fb (s : State) : s.beginFrame.fb = s.fb := rfl
@[simp] theorem State.beginFrame_fsm (s : State) : s.beginFrame.fsm = .decoding .frame := rfl
@[simp] theorem State.beginFrame_err (s : State) : s.beginFrame.err = s.err := rfl
@[simp] theorem State.beginFrame_reply (s : State) : s.beginFrame.reply = s.reply := rfl
@[simp] theorem State.beginFrame_viewValid (s : State) : s.beginFrame.viewValid = false := rfl
@[simp] theorem State.beginFrame_cmds (s : State) : s.beginFrame.cmds = s.cmds := rfl
@[simp] theorem State.beginFrame_free (s : State) : s.beginFrame.free = s.free := rfl

@[simp] theorem Slot.withBox_x0 (sl : Slot) (b : Box) : (sl.withBox b).x0 = b.x0 := rfl
@[simp] theorem Slot.withBox_x1 (sl : Slot) (b : Box) : (sl.withBox b).x1 = b.x1 := rfl
@[simp] theorem Slot.withBox_y0 (sl : Slot) (b : Box) : (sl.withBox b).y0 = b.y0 := rfl
@[simp] theorem Slot.withBox_y1 (sl : Slot) (b : Box) : (sl.withBox b).y1 = b.y1 := rfl
@[simp] theorem Slot.withBox_v1 (sl : Slot) (b : Box) : (sl.withBox b).v1 = sl.v1 := rfl
@[simp] theorem Slot.withBox_v4 (sl : Slot) (b : Box) : (sl.withBox b).v4 = sl.v4 := rfl
@[simp] theorem Slot.withBox_w1 (sl : Slot) (b : Box) : (sl.withBox b).w1 = sl.w1 := rfl
@[simp] theorem Slot.withBox_w4 (sl : Slot) (b : Box) : (sl.withBox b).w4 = sl.w4 := rfl

@[simp] theorem Slot.seedFrom_x0 (sl prev : Slot) : (sl.seedFrom prev).x0 = sl.x0 := rfl
@[simp] theorem Slot.seedFrom_x1 (sl prev : Slot) : (sl.seedFrom prev).x1 = sl.x1 := rfl
@[simp] theorem Slot.seedFrom_y0 (sl prev : Slot) : (sl.seedFrom prev).y0 = sl.y0 := rfl
@[simp] theorem Slot.seedFrom_y1 (sl prev : Slot) : (sl.seedFrom prev).y1 = sl.y1 := rfl
@[simp] theorem Slot.seedFrom_v1 (sl prev : Slot) : (sl.seedFrom prev).v1 = prev.v1 := rfl
@[simp] theorem Slot.seedFrom_v4 (sl prev : Slot) : (sl.seedFrom prev).v4 = prev.v4 := rfl
@[simp] theorem Slot.seedFrom_w1 (sl prev : Slot) : (sl.seedFrom prev).w1 = prev.w1 := rfl
@[simp] theorem Slot.seedFrom_w4 (sl prev : Slot) : (sl.seedFrom prev).w4 = prev.w4 := rfl

@[simp] theorem Slot.writeEntry_x0 (sl : Slot) (t : Target) (k : Nat) (e : Entry) (h : k < 256) :
    (sl.writeEntry t k e h).x0 = sl.x0 := by cases t <;> rfl
@[simp] theorem Slot.writeEntry_x1 (sl : Slot) (t : Target) (k : Nat) (e : Entry) (h : k < 256) :
    (sl.writeEntry t k e h).x1 = sl.x1 := by cases t <;> rfl
@[simp] theorem Slot.writeEntry_y0 (sl : Slot) (t : Target) (k : Nat) (e : Entry) (h : k < 256) :
    (sl.writeEntry t k e h).y0 = sl.y0 := by cases t <;> rfl
@[simp] theorem Slot.writeEntry_y1 (sl : Slot) (t : Target) (k : Nat) (e : Entry) (h : k < 256) :
    (sl.writeEntry t k e h).y1 = sl.y1 := by cases t <;> rfl

/-- A write to a target's codebook sets entry k of it. -/
@[simp] theorem Slot.writeEntry_codebook_same (sl : Slot) (t : Target) (k : Nat) (e : Entry) (h : k < 256) :
    (sl.writeEntry t k e h).codebook t = (sl.codebook t).set k e := by cases t <;> rfl

/-- A write to a target's codebook sets flag k of it. -/
@[simp] theorem Slot.writeEntry_written_same (sl : Slot) (t : Target) (k : Nat) (e : Entry) (h : k < 256) :
    (sl.writeEntry t k e h).written t = (sl.written t).set k true := by cases t <;> rfl

/-- A write to one target leaves the other codebook. -/
theorem Slot.writeEntry_codebook_other (sl : Slot) (t u : Target) (k : Nat) (e : Entry) (h : k < 256) (ne : u ≠ t) :
    (sl.writeEntry t k e h).codebook u = sl.codebook u := by cases t <;> cases u <;> first | rfl | exact absurd rfl ne

/-- A write to one target leaves the other codebook's flags. -/
theorem Slot.writeEntry_written_other (sl : Slot) (t u : Target) (k : Nat) (e : Entry) (h : k < 256) (ne : u ≠ t) :
    (sl.writeEntry t k e h).written u = sl.written u := by cases t <;> cases u <;> first | rfl | exact absurd rfl ne

end Sys2Proof.Machine
end

