-- ==== Sys2Proof/Laws/Memory.lean ====
section
/-!
SUPPORT. The laws of Memory, of the framebuffer's pixels and of the bound stream: a read after a write, and that every
operation keeps the canonical form.
-/

namespace Sys2Proof.Machine

variable {w : Nat}

/-! ## Reads -/

theorem Memory.read_erase (m : Memory w) (a b : Nat) : (Memory.erase m a).read b = if b = a then 0 else Memory.read m b := by
  induction m with
  | nil => simp [Memory.erase, Memory.read]
  | cons cell rest ih =>
    obtain ⟨c, v⟩ := cell
    simp only [Memory.erase, List.filter_cons] at ih ⊢
    by_cases hc : c = a
    · subst hc; by_cases hb : b = c
      · simpa [hb] using ih
      · simp_all [Memory.read, Ne.symm hb]
    · by_cases hb : c = b
      · subst hb; simp [hc, Memory.read]
      · simp_all [Memory.read]

theorem Memory.read_insert (m : Memory w) (a b : Nat) (v : BitVec w) (h : ∀ cell ∈ m, cell.1 ≠ a) :
    (Memory.insert m a v).read b = if b = a then v else Memory.read m b := by
  induction m with
  | nil => simp [Memory.insert, Memory.read, eq_comm]
  | cons cell rest ih =>
    obtain ⟨c, u⟩ := cell
    have hc : c ≠ a := h _ (List.mem_cons_self ..)
    have ih := ih (fun cell hm => h cell (List.mem_cons_of_mem _ hm))
    simp only [Memory.insert]
    split
    · simp only [Memory.read, eq_comm (a := a)]
    · by_cases hb : c = b
      · subst hb; simp [Memory.read, hc]
      · simp [Memory.read, hb, ih]

theorem Memory.mem_erase_ne (m : Memory w) (a : Nat) : ∀ cell ∈ Memory.erase m a, cell.1 ≠ a := by
  intro cell h
  simpa [Memory.erase] using (List.mem_filter.mp h).2

/-- A read after a write: the value at the written address, every other address as before. -/
@[simp] theorem Memory.read_write (m : Memory w) (a b : Nat) (v : BitVec w) :
    (Memory.write m a v).read b = if b = a then v else Memory.read m b := by
  simp only [Memory.write]
  split
  · rename_i h; simp [Memory.read_erase, h]
  · rw [Memory.read_insert _ _ _ _ (Memory.mem_erase_ne m a), Memory.read_erase]; split <;> rfl

/-! ## The canonical form -/

theorem Memory.wfFrom_mono {m : Memory w} {lo hi : Nat} (h : Memory.wfFrom hi m = true) (le : lo ≤ hi) :
    Memory.wfFrom lo m = true := by
  cases m with
  | nil => rfl
  | cons cell rest =>
    simp only [Memory.wfFrom, Bool.and_eq_true, decide_eq_true_eq] at h ⊢
    exact ⟨⟨le.trans h.1.1, h.1.2⟩, h.2⟩

theorem Memory.wfFrom_erase {m : Memory w} {lo : Nat} (a : Nat) (h : Memory.wfFrom lo m = true) :
    Memory.wfFrom lo (Memory.erase m a) = true := by
  induction m generalizing lo with
  | nil => exact h
  | cons cell rest ih =>
    simp only [Memory.wfFrom, Bool.and_eq_true, decide_eq_true_eq] at h
    have ih := ih h.2
    simp only [Memory.erase, List.filter_cons] at ih ⊢
    split
    · simp only [Memory.wfFrom, Bool.and_eq_true, decide_eq_true_eq]; exact ⟨h.1, ih⟩
    · exact Memory.wfFrom_mono ih (by omega)

theorem Memory.wfFrom_insert {m : Memory w} {lo a : Nat} {v : BitVec w} (h : Memory.wfFrom lo m = true) (hlo : lo ≤ a)
    (hv : v ≠ 0) (hm : ∀ cell ∈ m, cell.1 ≠ a) : Memory.wfFrom lo (Memory.insert m a v) = true := by
  induction m generalizing lo with
  | nil => simpa [Memory.insert, Memory.wfFrom, hlo] using hv
  | cons cell rest ih =>
    obtain ⟨b, u⟩ := cell
    simp only [Memory.wfFrom, Bool.and_eq_true, decide_eq_true_eq] at h
    have hb : b ≠ a := hm _ (List.mem_cons_self ..)
    simp only [Memory.insert]
    split
    · simp only [Memory.wfFrom, Bool.and_eq_true, decide_eq_true_eq, bne_iff_ne]
      exact ⟨⟨hlo, hv⟩, ⟨by omega, by simpa using h.1.2⟩, h.2⟩
    · simp only [Memory.wfFrom, Bool.and_eq_true, decide_eq_true_eq]
      exact ⟨h.1, ih h.2 (by omega) (fun c hc => hm c (List.mem_cons_of_mem _ hc))⟩

/-- A write keeps the canonical form. -/
theorem Memory.wf_write {m : Memory w} (a : Nat) (v : BitVec w) (h : m.wf = true) : (Memory.write m a v).wf = true := by
  simp only [Memory.wf, Memory.write] at h ⊢
  split
  · exact Memory.wfFrom_erase a h
  · rename_i hv; exact Memory.wfFrom_insert (Memory.wfFrom_erase a h) (by omega) hv (Memory.mem_erase_ne m a)

theorem Memory.below_erase {m : Memory w} {n : Nat} (a : Nat) (h : m.below n = true) : (Memory.erase m a).below n = true := by
  simp only [Memory.below, List.all_eq_true, decide_eq_true_eq] at h ⊢
  intro cell hc; exact h cell (List.mem_filter.mp hc).1

theorem Memory.below_insert {m : Memory w} {n a : Nat} {v : BitVec w} (h : m.below n = true) (ha : a < n) :
    (Memory.insert m a v).below n = true := by
  induction m with
  | nil => simp [Memory.insert, Memory.below, ha]
  | cons cell rest ih =>
    simp only [Memory.below, List.all_cons, Bool.and_eq_true, decide_eq_true_eq] at h ih
    simp only [Memory.insert]
    split
    · simp only [Memory.below, List.all_cons, Bool.and_eq_true, decide_eq_true_eq]; exact ⟨ha, h⟩
    · simp only [Memory.below, List.all_cons, Bool.and_eq_true, decide_eq_true_eq]; exact ⟨h.1, ih h.2⟩

/-- A write at an address below n lists no address from n on. -/
theorem Memory.below_write {m : Memory w} {n a : Nat} (v : BitVec w) (h : m.below n = true) (ha : a < n) :
    (Memory.write m a v).below n = true := by
  simp only [Memory.write]
  split
  · exact Memory.below_erase a h
  · exact Memory.below_insert (Memory.below_erase a h) ha

/-- An address from which on nothing is listed reads 0. -/
theorem Memory.read_of_below {m : Memory w} {n a : Nat} (h : m.below n = true) (ha : n ≤ a) : m.read a = 0 := by
  induction m with
  | nil => rfl
  | cons cell rest ih =>
    simp only [Memory.below, List.all_cons, Bool.and_eq_true, decide_eq_true_eq] at h ih
    simp only [Memory.read]
    rw [if_neg (by omega)]; exact ih h.2

/-- Two canonical memories that read the same are the same data. -/
theorem Memory.ext_of_read {lo : Nat} : ∀ {m n : Memory w}, Memory.wfFrom lo m = true → Memory.wfFrom lo n = true →
    (∀ a, m.read a = n.read a) → m = n := by
  intro m
  have head0 : ∀ {lo : Nat} {m : Memory w} {a : Nat}, Memory.wfFrom lo m = true → a < lo → m.read a = 0 := by
    intro lo m a hm ha
    induction m generalizing lo with
    | nil => rfl
    | cons cell rest ih =>
      simp only [Memory.wfFrom, Bool.and_eq_true, decide_eq_true_eq] at hm
      simp only [Memory.read]; rw [if_neg (by omega)]; exact ih hm.2 (by omega)
  induction m generalizing lo with
  | nil =>
    intro n _ hn h
    cases n with
    | nil => rfl
    | cons cell rest =>
      simp only [Memory.wfFrom, Bool.and_eq_true, bne_iff_ne] at hn
      have := h cell.1
      simp only [Memory.read] at this
      exact absurd this.symm (by simpa using hn.1.2)
  | cons c rest ih =>
    intro n hm hn h
    obtain ⟨a, v⟩ := c
    cases n with
    | nil =>
      simp only [Memory.wfFrom, Bool.and_eq_true, bne_iff_ne] at hm
      have := h a
      simp only [Memory.read] at this
      exact absurd this (by simpa using hm.1.2)
    | cons d rest' =>
      obtain ⟨b, u⟩ := d
      simp only [Memory.wfFrom, Bool.and_eq_true, decide_eq_true_eq, bne_iff_ne] at hm hn
      have ra := h a
      have rb := h b
      simp only [Memory.read] at ra rb
      have hab : a = b := by
        by_contra hne
        rcases Nat.lt_or_gt_of_ne hne with hlt | hgt
        · rw [if_neg (Ne.symm hne), head0 hn.2 (by omega)] at ra
          exact hm.1.2 (by simpa using ra)
        · rw [if_neg hne, head0 hm.2 (by omega)] at rb
          exact hn.1.2 (by simpa using rb.symm)
      subst hab
      have hvu : v = u := by simpa using ra
      subst hvu
      congr 1
      refine ih hm.2 hn.2 (fun c => ?_)
      by_cases hc : a = c
      · subst hc; rw [head0 hm.2 (by omega), head0 hn.2 (by omega)]
      · have := h c; simpa [Memory.read, hc] using this

/-! ## The bound stream (R10, R241) -/

theorem streamCells_wfFrom (bytes : List Byte) : ∀ a, Memory.wfFrom a (streamCells a bytes) = true := by
  induction bytes with
  | nil => intro a; rfl
  | cons b rest ih =>
    intro a
    simp only [streamCells]
    split
    · exact Memory.wfFrom_mono (ih (a + 1)) (by omega)
    · rename_i h; simpa [Memory.wfFrom, ih (a + 1)] using h

/-- The bound stream is canonical. -/
theorem streamCells_wf (bytes : List Byte) : (streamCells 0 bytes).wf = true := streamCells_wfFrom bytes 0

theorem streamCells_below (bytes : List Byte) : ∀ a, (streamCells a bytes).below (a + bytes.length) = true := by
  induction bytes with
  | nil => intro a; rfl
  | cons b rest ih =>
    intro a
    have := ih (a + 1)
    simp only [streamCells, List.length_cons]
    rw [show a + (rest.length + 1) = a + 1 + rest.length by omega]
    split
    · exact this
    · simp only [Memory.below, List.all_cons, Bool.and_eq_true, decide_eq_true_eq] at this ⊢
      exact ⟨by omega, this⟩

theorem streamCells_read_below (bytes : List Byte) : ∀ a c, c < a → (streamCells a bytes).read c = 0 := by
  induction bytes with
  | nil => intro a c _; rfl
  | cons b rest ih =>
    intro a c h
    simp only [streamCells]
    split
    · exact ih (a + 1) c (by omega)
    · simp only [Memory.read]; rw [if_neg (by omega)]; exact ih (a + 1) c (by omega)

/-- A bound stream reads back its bytes. -/
theorem streamCells_read (bytes : List Byte) : ∀ a j, (streamCells a bytes).read (a + j) = (bytes[j]?).getD 0 := by
  induction bytes with
  | nil => intro a j; rfl
  | cons b rest ih =>
    intro a j
    cases j with
    | zero =>
      simp only [streamCells]
      split
      · rename_i h; rw [streamCells_read_below rest (a + 1) _ (by omega)]; simp [h]
      · simp [Memory.read]
    | succ j =>
      have := ih (a + 1) j
      rw [show a + 1 + j = a + (j + 1) by omega] at this
      simp only [streamCells]
      split
      · simpa using this
      · simp only [Memory.read]; rw [if_neg (by omega)]; simpa using this

/-! ## Pixels (R39, R173) -/

/-- A pixel after a pixel write on the grid's rows. -/
theorem Framebuffer.pixel_setPixel (fb : Framebuffer) (x y px py : Nat) (v : Colour) (hy : y < 240) :
    (Framebuffer.setPixel fb x y v).pixel px py = if px = x ∧ py = y then v else Framebuffer.pixel fb px py := by
  simp only [Framebuffer.setPixel, Framebuffer.pixel, dif_pos hy]
  by_cases hp : py < 240
  · simp only [dif_pos hp, Vector.getElem_set]
    by_cases he : y = py
    · subst he; simp
    · simp [he, Ne.symm he]
  · simp only [dif_neg hp]; rw [if_neg (by omega)]

theorem Framebuffer.pixel_foldl (x y px py : Nat) (colour : Nat → Nat → Colour) :
    ∀ (lanes : List (Nat × Nat)) (fb : Framebuffer), (∀ l ∈ lanes, y + l.2 < 240) → lanes.Nodup →
      (lanes.foldl (fun f l => Framebuffer.setPixel f (x + l.1) (y + l.2) (colour l.1 l.2)) fb).pixel px py =
        if x ≤ px ∧ y ≤ py ∧ (px - x, py - y) ∈ lanes then colour (px - x) (py - y) else Framebuffer.pixel fb px py := by
  intro lanes
  induction lanes with
  | nil => intro fb _ _; simp
  | cons l rest ih =>
    intro fb hl hn
    obtain ⟨dx, dy⟩ := l
    rw [List.nodup_cons] at hn
    rw [List.foldl_cons, ih _ (fun l h => hl l (List.mem_cons_of_mem _ h)) hn.2,
      Framebuffer.pixel_setPixel _ _ _ _ _ _ (hl _ (List.mem_cons_self ..))]
    simp only [List.mem_cons, Prod.mk.injEq]
    by_cases hin : x ≤ px ∧ y ≤ py ∧ (px - x, py - y) ∈ rest
    · rw [if_pos hin, if_pos ⟨hin.1, hin.2.1, Or.inr hin.2.2⟩]
    · rw [if_neg hin]
      by_cases he : px = x + dx ∧ py = y + dy
      · rw [if_pos he, if_pos ⟨by omega, by omega, Or.inl ⟨by omega, by omega⟩⟩]
        congr 1 <;> omega
      · rw [if_neg he, if_neg]
        rintro ⟨h1, h2, h3 | h3⟩
        · exact he ⟨by omega, by omega⟩
        · exact hin ⟨h1, h2, h3⟩

theorem mem_blockLanes (dx dy : Nat) : (dx, dy) ∈ blockLanes ↔ dx < 4 ∧ dy < 4 := by
  constructor
  · intro h; simp only [blockLanes, List.mem_cons, Prod.mk.injEq, List.not_mem_nil, or_false] at h; omega
  · rintro ⟨hx, hy⟩
    interval_cases dx <;> interval_cases dy <;> decide

/-- A pixel after a block write: the lane's colour inside the block, as before outside it. -/
theorem Framebuffer.pixel_setBlock (fb : Framebuffer) (x y px py : Nat) (colour : Nat → Nat → Colour) (hy : y + 4 ≤ 240) :
    (Framebuffer.setBlock fb x y colour).pixel px py =
      if pixelInBlock x y px py then colour (px - x) (py - y) else Framebuffer.pixel fb px py := by
  have hl : ∀ l ∈ blockLanes, y + l.2 < 240 := by
    intro l h; have := (mem_blockLanes l.1 l.2).mp h; omega
  rw [Framebuffer.setBlock, Framebuffer.pixel_foldl x y px py colour blockLanes fb hl (by decide)]
  congr 1
  rw [mem_blockLanes]
  refine propext ⟨fun h => ⟨?_, ?_, ?_, ?_⟩, fun h => ⟨?_, ?_, ?_, ?_⟩⟩ <;> omega

end Sys2Proof.Machine
end

