-- ==== Sys2Proof/Laws/Loops.lean ====
section
/-!
SUPPORT. For each shared operation, once, everything it can answer.
-/

namespace Sys2Proof.Machine

/-- A failed check answers a next state in the checked posture only, and then it is the error's entry (R268). -/
theorem State.failCheck_next {s t : State} {k : ErrKind} :
    s.failCheck k = .next t ↔ s.posture = .checked ∧ t = s.fail k := by
  unfold State.failCheck
  cases h : s.posture <;> simp [eq_comm]

/-- In the checked posture a failed check is the error's entry. -/
theorem State.failCheck_checked {s : State} (k : ErrKind) (h : s.posture = .checked) : s.failCheck k = .next (s.fail k) := by
  simp [State.failCheck, h]

/-- In the unchecked posture a failed check is refused (R8, U1). -/
theorem State.failCheck_unchecked {s : State} (k : ErrKind) (h : s.posture = .unchecked) :
    s.failCheck k = .refused .uncheckedInvalid := by
  simp [State.failCheck, h]

/-- A failed check is no fault. -/
theorem State.failCheck_ne_fault {s : State} {k : ErrKind} {r : Fault} : s.failCheck k ≠ .fault r := by
  unfold State.failCheck; cases s.posture <;> simp

/-- What a failed check refuses. -/
theorem State.failCheck_refused {s : State} {k : ErrKind} {r : Refusal} :
    s.failCheck k = .refused r ↔ s.posture = .unchecked ∧ r = .uncheckedInvalid := by
  unfold State.failCheck; cases h : s.posture <;> simp [eq_comm]

/-- The ways the chunk loop goes on or ends from chunk pointer c (R208, R227 to R230). -/
inductive ChunkNext (s : State) (fr : FrameRegs) (st : StripRegs) (c : Nat) : State → Prop where
  /-- A chunk is due at c. -/
  | chunk (h : c < st.S + st.slen) : ChunkNext s fr st c { s with fsm := .decoding (.chunk fr { st with c := c }) }
  /-- The strip has ended and the next one is due. -/
  | strip (h : st.S + st.slen ≤ c) (hn : fr.i.val + 1 < fr.nstrips) (hi : fr.i.val + 1 < 32) :
      ChunkNext s fr st c
        { s with cursor := st.S + st.slen, fsm := .decoding (.strip { fr with i := ⟨fr.i.val + 1, hi⟩ }) }
  /-- The strip and the frame have ended. -/
  | done (h : st.S + st.slen ≤ c) (hn : fr.nstrips ≤ fr.i.val + 1) (he : st.S + st.slen = fr.F + fr.flen) :
      ChunkNext s fr st c (State.finishFrame { s with cursor := st.S + st.slen })
  /-- The frame has ended elsewhere than declared. -/
  | fail (h : st.S + st.slen ≤ c) (hp : s.posture = .checked) (hn : fr.nstrips ≤ fr.i.val + 1)
      (he : st.S + st.slen ≠ fr.F + fr.flen) :
      ChunkNext s fr st c (State.fail { s with cursor := st.S + st.slen } .invalidData)

/-- The chunk loop answers a next state in these ways only. -/
theorem State.chunkLoop_next {s t : State} {fr : FrameRegs} {st : StripRegs} {c : Nat}
    (h : s.chunkLoop fr st c = .next t) : ChunkNext s fr st c t := by
  unfold State.chunkLoop at h
  split at h
  · rename_i hc; cases h; exact .chunk hc
  · rename_i hc
    simp only [State.endStrip] at h
    split at h
    · rename_i hn
      split at h
      · rename_i hi; cases h; exact .strip (Nat.le_of_not_lt hc) hn hi
      · cases h
    · rename_i hn
      simp only [State.endFrame] at h
      split at h
      · rename_i he; cases h; exact .done (Nat.le_of_not_lt hc) (Nat.le_of_not_lt hn) he
      · rename_i he
        obtain ⟨hp, rfl⟩ := State.failCheck_next.mp h
        exact .fail (Nat.le_of_not_lt hc) hp (Nat.le_of_not_lt hn) he

/-- A chunk loop that closes well answers a next state. -/
theorem State.chunkLoop_closes {s : State} {fr : FrameRegs} {st : StripRegs} {c : Nat} (h : ClosesWell fr st c) :
    ∃ t, s.chunkLoop fr st c = .next t ∧ t.slots = s.slots ∧ t.fb = s.fb ∧ t.free = s.free ∧ s.SameContext t ∧
      s.GoesOn t ∧ s.CursorKept t st ∧ s.ChunkEnded t fr st c := by
  unfold State.chunkLoop
  split
  · rename_i hc
    exact ⟨_, rfl, rfl, rfl, rfl, ⟨rfl, rfl, rfl, rfl, rfl, rfl⟩, .inl ⟨rfl, rfl, rfl⟩, .inl rfl,
      fun _ => ⟨rfl, rfl⟩, fun h => absurd hc (Nat.not_lt.mpr h)⟩
  · rename_i hc
    simp only [State.endStrip]
    split
    · rename_i hn
      have hi : fr.i.val + 1 < 32 := by rcases h with h | h | h <;> omega
      rw [dif_pos hi]
      exact ⟨_, rfl, rfl, rfl, rfl, ⟨rfl, rfl, rfl, rfl, rfl, rfl⟩, .inl ⟨rfl, rfl, rfl⟩, .inr rfl,
        fun h => absurd h hc, fun _ => ⟨rfl, fun _ _ => rfl, fun h => absurd hn (Nat.not_lt.mpr h)⟩⟩
    · rename_i hn
      have he : st.S + st.slen = fr.F + fr.flen := by rcases h with h | h | h <;> omega
      simp only [State.endFrame, if_pos he]
      exact ⟨_, rfl, rfl, rfl, rfl, ⟨rfl, rfl, rfl, rfl, rfl, rfl⟩, .inr ⟨rfl, rfl, rfl⟩, .inr rfl,
        fun h => absurd h hc, fun _ => ⟨rfl, fun _ h => absurd h hn, fun _ => rfl⟩⟩

/-- The ways the group loop goes on or ends (R151, R156). -/
theorem State.codebookLoop_next {s t : State} {fr : FrameRegs} {st : StripRegs} {cb : CodebookRegs}
    (h : s.codebookLoop fr st cb = .next t) :
    (cb.pl.p < cb.pl.E ∧ t = { s with fsm := .decoding (.group fr st cb) }) ∨
    (cb.pl.E ≤ cb.pl.p ∧ cb.selective = true ∧ cb.pl.mask ≠ 0 ∧ s.posture = .checked ∧ t = s.fail .invalidData) ∨
    (cb.pl.E ≤ cb.pl.p ∧ (cb.selective = true → cb.pl.mask = 0) ∧ ChunkNext s fr st cb.pl.E t) := by
  unfold State.codebookLoop at h
  split at h
  · rename_i hp; cases h; exact .inl ⟨hp, rfl⟩
  · rename_i hp
    split at h
    · rename_i hm
      obtain ⟨hc, rfl⟩ := State.failCheck_next.mp h
      exact .inr (.inl ⟨Nat.le_of_not_lt hp, hm.1, hm.2, hc, rfl⟩)
    · rename_i hm
      refine .inr (.inr ⟨Nat.le_of_not_lt hp, fun hs => ?_, State.chunkLoop_next h⟩)
      by_contra hne; exact hm ⟨hs, hne⟩

/-- The ways the block walk goes on or ends (R181, R189). -/
theorem State.blockLoop_next {s t : State} {fr : FrameRegs} {st : StripRegs} {vp : VectorRegs}
    (h : s.blockLoop fr st vp = .next t) :
    (vp.by_ < s.slots[fr.i.val].y1 ∧ vp.bx < s.slots[fr.i.val].x1 ∧ t = { s with fsm := .decoding (.block fr st vp) }) ∨
    (vp.pl.p = vp.pl.E ∧ ChunkNext s fr st vp.pl.E t) ∨
    (vp.pl.p ≠ vp.pl.E ∧ s.posture = .checked ∧ t = s.fail .invalidData) := by
  unfold State.blockLoop at h
  split at h
  · rename_i hb; cases h; exact .inl ⟨hb.1, hb.2, rfl⟩
  · split at h
    · rename_i hp; exact .inr (.inl ⟨hp, State.chunkLoop_next h⟩)
    · rename_i hp
      obtain ⟨hc, rfl⟩ := State.failCheck_next.mp h
      exact .inr (.inr ⟨hp, hc, rfl⟩)

/-- What reading an entry by its index gives (R188, U3). -/
theorem State.lookup_some {s t : State} {i : Fin 32} {g : Target} {idx : Byte} {e : Entry}
    (h : s.lookup i g idx = some (e, t)) :
    ((s.slots[i.val].written g)[idx.toNat] = true ∧ e = (s.slots[i.val].codebook g)[idx.toNat] ∧ t = s) ∨
    ((s.slots[i.val].written g)[idx.toNat] = false ∧ s.posture = .unchecked ∧ e = undefinedEntry s.free ∧
      t = { s with free := s.free + 1 }) := by
  unfold State.lookup at h
  split at h
  · rename_i hw; cases h; exact .inl ⟨hw, rfl, rfl⟩
  · rename_i hw
    split at h
    · cases h
    · rename_i hp; cases h; exact .inr ⟨by simpa using hw, hp, rfl, rfl⟩

/-- An entry written before is read as it stands, in both postures. -/
theorem State.lookup_written {s : State} {i : Fin 32} {g : Target} {idx : Byte}
    (h : (s.slots[i.val].written g)[idx.toNat] = true) : s.lookup i g idx = some ((s.slots[i.val].codebook g)[idx.toNat], s) := by
  simp only [State.lookup, if_pos h]

/-- An entry never written is an error in the checked posture (R188). -/
theorem State.lookup_none {s : State} {i : Fin 32} {g : Target} {idx : Byte} :
    s.lookup i g idx = none ↔ (s.slots[i.val].written g)[idx.toNat] = false ∧ s.posture = .checked := by
  unfold State.lookup
  split
  · rename_i hw; simp [hw]
  · rename_i hw
    cases hp : s.posture <;> simp [hw]

/-- Taking a mask bit: the next bit of the current word, or bit 31 of a word read at the payload pointer (R183). -/
theorem State.nextBit_bit {s : State} {pl pl' : Payload} {b : Bool} (h : s.nextBit pl = .bit b pl') :
    (pl.left ≠ 0 ∧ b = pl.mask.msb ∧ pl' = { pl with mask := pl.mask <<< 1, left := pl.left - 1 }) ∨
    (pl.left = 0 ∧ pl.p + 4 ≤ pl.E ∧ ∃ w, s.be32 pl.p = some w ∧ b = w.msb ∧
      pl' = { pl with p := pl.p + 4, mask := w <<< 1, left := 31 }) := by
  unfold State.nextBit at h
  split at h
  · rename_i hl
    split at h
    · rename_i hp
      split at h
      · rename_i w hw; cases h; exact .inr ⟨hl, hp, w, hw, rfl, rfl⟩
      · cases h
    · cases h
  · rename_i hl; cases h; exact .inl ⟨hl, rfl, rfl⟩

/-- A block write that happens is inside the framebuffer and changes it alone. -/
theorem State.writeBlock_some {s t : State} {x y : Nat} {colour : Nat → Nat → Colour}
    (h : s.writeBlock x y colour = some t) :
    x + 4 ≤ 320 ∧ y + 4 ≤ 240 ∧ t = { s with fb := Framebuffer.setBlock s.fb x y colour } := by
  unfold State.writeBlock at h
  split at h
  · rename_i hb; cases h; exact ⟨hb.1, hb.2, rfl⟩
  · cases h

/-- n bytes of the stream exist exactly when they end by its length. -/
theorem State.bytes_isSome (s : State) : ∀ n a, (s.bytes a n).isSome = true ↔ n = 0 ∨ a + n ≤ s.length := by
  intro n
  induction n with
  | zero => intro a; simp [State.bytes]
  | succ m ih =>
    intro a
    have ih := ih (a + 1)
    by_cases ha : a < s.length
    · cases hr : s.bytes (a + 1) m with
      | none => simp [hr] at ih; simp [State.bytes, State.byte, ha, hr]; omega
      | some l => simp [hr] at ih; simp [State.bytes, State.byte, ha, hr]; omega
    · simp [State.bytes, State.byte, ha]; omega

/-- Reading n bytes gives n bytes. -/
theorem State.bytes_length {s : State} : ∀ {n a : Nat} {l : List Byte}, s.bytes a n = some l → l.length = n := by
  intro n
  induction n with
  | zero => intro a l h; simp [State.bytes] at h; simp [h]
  | succ m ih =>
    intro a l h
    simp only [State.bytes] at h
    split at h
    · rename_i b rest _ hr; cases h; simp [ih hr]
    · cases h

/-- Bytes inside the stream can be read. -/
theorem State.bytes_exists {s : State} {a n : Nat} (h : a + n ≤ s.length) : ∃ l, s.bytes a n = some l ∧ l.length = n := by
  have := (State.bytes_isSome s n a).mpr (.inr h)
  obtain ⟨l, hl⟩ := Option.isSome_iff_exists.mp this
  exact ⟨l, hl, State.bytes_length hl⟩

end Sys2Proof.Machine
end

