-- ==== Sys2Proof/Laws/Decode.lean ====
section
/-!
SUPPORT. The fields of a record and their bytes; what the decoder can answer at each level.
-/

namespace Sys2Proof

/-! ## Fields and bytes -/

/-- The value of two bytes, the first one more significant (R10). -/
theorem joinU16_toNat (hi lo : Byte) : (joinU16 hi lo).toNat = hi.toNat * 256 + lo.toNat := by
  have := hi.isLt
  have := lo.isLt
  rw [joinU16, BitVec.toNat_append, ← Nat.shiftLeft_add_eq_or_of_lt lo.isLt, Nat.shiftLeft_eq]

/-- The value of three bytes. -/
theorem joinU24_toNat (b2 b1 b0 : Byte) : (joinU24 b2 b1 b0).toNat = b2.toNat * 65536 + b1.toNat * 256 + b0.toNat := by
  rw [joinU24, BitVec.toNat_append, ← Nat.shiftLeft_add_eq_or_of_lt b0.isLt, Nat.shiftLeft_eq, BitVec.toNat_append,
    ← Nat.shiftLeft_add_eq_or_of_lt b1.isLt, Nat.shiftLeft_eq]
  omega

@[simp] theorem highByte_joinU16 (hi lo : Byte) : highByte (joinU16 hi lo) = hi := by
  apply BitVec.eq_of_toNat_eq
  have := hi.isLt
  have := lo.isLt
  simp only [highByte, BitVec.extractLsb'_toNat, joinU16_toNat, Nat.shiftRight_eq_div_pow]
  omega

@[simp] theorem lowByte_joinU16 (hi lo : Byte) : lowByte (joinU16 hi lo) = lo := by
  apply BitVec.eq_of_toNat_eq
  have := hi.isLt
  have := lo.isLt
  simp only [lowByte, BitVec.extractLsb'_toNat, joinU16_toNat, Nat.shiftRight_eq_div_pow]
  omega

@[simp] theorem joinU16_highByte_lowByte (w : U16) : joinU16 (highByte w) (lowByte w) = w := by
  apply BitVec.eq_of_toNat_eq
  have := w.isLt
  simp only [joinU16_toNat, highByte, lowByte, BitVec.extractLsb'_toNat, Nat.shiftRight_eq_div_pow]
  omega

@[simp] theorem joinU24_extract (w : BitVec 24) :
    joinU24 (w.extractLsb' 16 8) (w.extractLsb' 8 8) (w.extractLsb' 0 8) = w := by
  apply BitVec.eq_of_toNat_eq
  have := w.isLt
  simp only [joinU24_toNat, BitVec.extractLsb'_toNat, Nat.shiftRight_eq_div_pow]
  omega

/-- Three bytes joined and taken apart. -/
theorem bytesU24_joinU24 (b2 b1 b0 : Byte) : bytesU24 (joinU24 b2 b1 b0) = [b2, b1, b0] := by
  have := b2.isLt
  have := b1.isLt
  have := b0.isLt
  simp only [bytesU24, List.cons.injEq, and_true]
  refine ⟨?_, ?_, ?_⟩ <;> apply BitVec.eq_of_toNat_eq <;>
    simp only [joinU24_toNat, BitVec.extractLsb'_toNat, Nat.shiftRight_eq_div_pow] <;> omega

@[simp] theorem flagsByte_spare (spare : BitVec 7) (intra : BitVec 1) : (flagsByte spare intra).extractLsb' 1 7 = spare := by
  revert spare intra; decide

@[simp] theorem flagsByte_intra (spare : BitVec 7) (intra : BitVec 1) : (flagsByte spare intra).getLsbD 0 = intra.getLsbD 0 := by
  revert spare intra; decide
/-- A flags byte is its two fields (R102). -/
theorem flagsByte_eta (f : Byte) : flagsByte (f.extractLsb' 1 7) (if f.getLsbD 0 then 1 else 0) = f := by
  revert f; decide

/-! ## Answers of the decoder -/

/-- Pairing bits with a decoded record succeeds exactly when the record was decoded. -/
theorem withBits_ok {bits : List Bool} {r : Except Reject (Instr × List Byte)} {d : Decoded} :
    withBits bits r = .ok d ↔ ∃ i rest, r = .ok (i, rest) ∧ d = { instr := i, bits := bits, bytes := rest } := by
  unfold withBits
  split
  · rename_i i rest; simp [eq_comm]
  · simp

/-- A frame header is one of the two frame records, by flags bit 0 (R222). -/
theorem decodeFrameHeader_ok {bytes rest : List Byte} {i : Instr} (h : decodeFrameHeader bytes = .ok (i, rest)) :
    ∃ spare flen w ht n, i = .frameIntra spare flen w ht n ∨ i = .frameInter spare flen w ht n := by
  unfold decodeFrameHeader at h
  split at h
  · simp only at h
    split at h
    · cases h; exact ⟨_, _, _, _, _, .inl rfl⟩
    · cases h; exact ⟨_, _, _, _, _, .inr rfl⟩
  · cases h

/-- A strip header is one of the two strip records. -/
theorem decodeStripHeader_ok {bytes rest : List Byte} {i : Instr} (h : decodeStripHeader bytes = .ok (i, rest)) :
    ∃ l a b c d, i = .stripIntra l a b c d ∨ i = .stripInter l a b c d := by
  unfold decodeStripHeader at h
  split at h
  · simp only at h
    split at h
    · cases h; exact ⟨_, _, _, _, _, .inl rfl⟩
    · split at h
      · cases h; exact ⟨_, _, _, _, _, .inr rfl⟩
      · cases h
  · cases h

/-- A strip header is rejected for being short or for its id. -/
theorem decodeStripHeader_error {bytes : List Byte} {e : Reject} (h : decodeStripHeader bytes = .error e) :
    e = .truncated ∨ ∃ sid, e = .unknownStripId sid := by
  unfold decodeStripHeader at h
  split at h
  · simp only at h
    split at h
    · cases h
    · split at h
      · cases h
      · cases h; exact .inr ⟨_, rfl⟩
  · cases h; exact .inl rfl

/-- Every row of the chunk table encodes as its id and length. -/
theorem chunkRecords_encode {row : U16 × (U16 → Instr)} (h : row ∈ chunkRecords) (clen : U16) :
    encode .chunk (row.2 clen) = some { bits := [], bytes := bytesU16 row.1 ++ bytesU16 clen } := by
  simp only [chunkRecords, List.mem_cons, List.not_mem_nil, or_false] at h
  rcases h with rfl | rfl | rfl | rfl | rfl | rfl | rfl | rfl | rfl | rfl | rfl <;> rfl

/-- A chunk header answers a row of the chunk table with that very id. -/
theorem decodeChunkHeader_ok {cid clen : U16} {i : Instr} (h : decodeChunkHeader cid clen = .ok i) :
    ∃ row ∈ chunkRecords, row.1 = cid ∧ i = row.2 clen := by
  unfold decodeChunkHeader at h
  split at h
  · rename_i row hf
    exact ⟨row, List.mem_of_find?_eq_some hf, by simpa using List.find?_some hf, (Except.ok.inj h).symm⟩
  · split at h <;> cases h

/-- A chunk header is rejected for its id. -/
theorem decodeChunkHeader_error {cid clen : U16} {e : Reject} (h : decodeChunkHeader cid clen = .error e) :
    e = .unclearChunkId cid clen ∨ e = .unknownChunkId cid clen := by
  unfold decodeChunkHeader at h
  split at h
  · cases h
  · split at h
    · exact .inl (Except.error.inj h).symm
    · exact .inr (Except.error.inj h).symm

/-- A group in 8-bit mode. -/
theorem decodeGroup8_ok {bytes rest : List Byte} {i : Instr} (h : decodeGroup8 bytes = .ok (i, rest)) :
    ∃ y0 y1 y2 y3, bytes = y0 :: y1 :: y2 :: y3 :: rest ∧ i = .g8 y0 y1 y2 y3 := by
  unfold decodeGroup8 at h
  split at h
  · cases h; exact ⟨_, _, _, _, rfl, rfl⟩
  · cases h

/-- A group in 12-bit mode. -/
theorem decodeGroup12_ok {bytes rest : List Byte} {i : Instr} (h : decodeGroup12 bytes = .ok (i, rest)) :
    ∃ y0 y1 y2 y3 u v, bytes = y0 :: y1 :: y2 :: y3 :: u :: v :: rest ∧ i = .g12 y0 y1 y2 y3 u v := by
  unfold decodeGroup12 at h
  split at h
  · cases h; exact ⟨_, _, _, _, _, _, rfl, rfl⟩
  · cases h

/-- One index byte. -/
theorem decodeIndex1_ok {make : Byte → Instr} {bytes rest : List Byte} {i : Instr}
    (h : decodeIndex1 make bytes = .ok (i, rest)) : ∃ i0, bytes = i0 :: rest ∧ i = make i0 := by
  unfold decodeIndex1 at h
  split at h
  · cases h; exact ⟨_, rfl, rfl⟩
  · cases h

/-- Four index bytes. -/
theorem decodeIndex4_ok {make : Byte → Byte → Byte → Byte → Instr} {bytes rest : List Byte} {i : Instr}
    (h : decodeIndex4 make bytes = .ok (i, rest)) :
    ∃ i0 i1 i2 i3, bytes = i0 :: i1 :: i2 :: i3 :: rest ∧ i = make i0 i1 i2 i3 := by
  unfold decodeIndex4 at h
  split at h
  · cases h; exact ⟨_, _, _, _, rfl, rfl⟩
  · cases h

/-- A selective chunk's element is GSKIP on bit 0 and a group on bit 1 (R154). -/
theorem decodeSelective_ok {group : List Byte → Except Reject (Instr × List Byte)} {bits : List Bool} {bytes : List Byte}
    {d : Decoded} (h : decodeSelective group bits bytes = .ok d) :
    (bits = false :: d.bits ∧ d.instr = .gskip ∧ d.bytes = bytes) ∨
    (bits = true :: d.bits ∧ group bytes = .ok (d.instr, d.bytes)) := by
  unfold decodeSelective at h
  split at h
  · cases h; exact .inl ⟨rfl, rfl, rfl⟩
  · obtain ⟨i, rest, hg, rfl⟩ := withBits_ok.mp h; exact .inr ⟨rfl, hg⟩
  · cases h

/-- The block codes of each kind of vector chunk (R114 to R116). -/
theorem decodeBlock_ok {kind : VecKind} {bits : List Bool} {bytes : List Byte} {d : Decoded}
    (h : decodeBlock kind bits bytes = .ok d) :
    (kind = .uniform ∧ bits = d.bits ∧ ∃ i0, bytes = i0 :: d.bytes ∧ d.instr = .buV1 i0) ∨
    (kind = .mixed ∧ bits = false :: d.bits ∧ ∃ i0, bytes = i0 :: d.bytes ∧ d.instr = .bmV1 i0) ∨
    (kind = .mixed ∧ bits = true :: d.bits ∧
      ∃ i0 i1 i2 i3, bytes = i0 :: i1 :: i2 :: i3 :: d.bytes ∧ d.instr = .bmV4 i0 i1 i2 i3) ∨
    (kind = .delta ∧ bits = false :: d.bits ∧ bytes = d.bytes ∧ d.instr = .bcSkip) ∨
    (kind = .delta ∧ bits = true :: false :: d.bits ∧ ∃ i0, bytes = i0 :: d.bytes ∧ d.instr = .bcV1 i0) ∨
    (kind = .delta ∧ bits = true :: true :: d.bits ∧
      ∃ i0 i1 i2 i3, bytes = i0 :: i1 :: i2 :: i3 :: d.bytes ∧ d.instr = .bcV4 i0 i1 i2 i3) := by
  unfold decodeBlock at h
  split at h
  · obtain ⟨i, rest, hg, rfl⟩ := withBits_ok.mp h; exact .inl ⟨rfl, rfl, decodeIndex1_ok hg⟩
  · obtain ⟨i, rest, hg, rfl⟩ := withBits_ok.mp h; exact .inr (.inl ⟨rfl, rfl, decodeIndex1_ok hg⟩)
  · obtain ⟨i, rest, hg, rfl⟩ := withBits_ok.mp h; exact .inr (.inr (.inl ⟨rfl, rfl, decodeIndex4_ok hg⟩))
  · cases h; exact .inr (.inr (.inr (.inl ⟨rfl, rfl, rfl, rfl⟩)))
  · obtain ⟨i, rest, hg, rfl⟩ := withBits_ok.mp h
    exact .inr (.inr (.inr (.inr (.inl ⟨rfl, rfl, decodeIndex1_ok hg⟩))))
  · obtain ⟨i, rest, hg, rfl⟩ := withBits_ok.mp h
    exact .inr (.inr (.inr (.inr (.inr ⟨rfl, rfl, decodeIndex4_ok hg⟩))))
  · cases h
  · cases h
  · cases h

end Sys2Proof
end

