-- ==== Sys2Proof/Laws/Framebuffer.lean ====
section
/-!
SUPPORT. Every colour the datapath makes has bit 15 clear, and every framebuffer operation keeps the canonical form.
-/

namespace Sys2Proof.Machine

/-! ## Colours (R14, R144) -/

theorem clampByte_le (t : Int) : clampByte t ≤ 255 := by
  unfold clampByte; split
  · exact Nat.zero_le _
  · split <;> omega

theorem channel_lt (t : Int) : (channel t).toNat < 32 := by
  have h := clampByte_le t
  have hs : clampByte t >>> 3 < 32 := by rw [Nat.shiftRight_eq_div_pow]; omega
  rw [channel, BitVec.toNat_ofNat, Nat.mod_eq_of_lt (by omega)]; exact hs

/-- Three 5-bit channels pack into 15 bits (R144). -/
theorem packColour_plain {r g b : Colour} (hr : r.toNat < 32) (hg : g.toNat < 32) (hb : b.toNat < 32) :
    (packColour r g b).plain := by
  unfold Colour.plain packColour
  simp only [BitVec.toNat_or, BitVec.toNat_shiftLeft, Nat.shiftLeft_eq]
  have h1 : b.toNat * 2 ^ 10 % 2 ^ 16 < 2 ^ 15 := by omega
  have h2 : g.toNat * 2 ^ 5 % 2 ^ 16 < 2 ^ 15 := by omega
  exact Nat.or_lt_two_pow (Nat.or_lt_two_pow h1 h2) (by omega)

/-- Every CT result is a colour word (R14, R140). -/
theorem colourTransform_plain (h : ChromaHalf) (y u v : Byte) : (colourTransform h y u v).plain :=
  packColour_plain (channel_lt _) (channel_lt _) (channel_lt _)

theorem groupEntry_plain (h : ChromaHalf) (y0 y1 y2 y3 u v : Byte) : (groupEntry h y0 y1 y2 y3 u v).plain :=
  ⟨colourTransform_plain .., colourTransform_plain .., colourTransform_plain .., colourTransform_plain ..⟩

theorem widened_plain (c : BitVec 15) : Colour.plain (c.setWidth 16) := by
  have := c.isLt
  simp only [Colour.plain, BitVec.toNat_setWidth]; omega

theorem undefinedEntry_plain (n : Nat) : (undefinedEntry n).plain :=
  ⟨widened_plain _, widened_plain _, widened_plain _, widened_plain _⟩

theorem Entry.colour_plain {e : Entry} (h : e.plain) (j : Nat) : (Entry.colour e j).plain := by
  unfold Entry.colour; split
  · exact h.1
  · exact h.2.1
  · exact h.2.2.1
  · exact h.2.2.2

theorem lanesV1_plain {e : Entry} (h : e.plain) (dx dy : Nat) : (lanesV1 e dx dy).plain := Entry.colour_plain h _

theorem lanesV4_plain {e0 e1 e2 e3 : Entry} (h0 : e0.plain) (h1 : e1.plain) (h2 : e2.plain) (h3 : e3.plain)
    (dx dy : Nat) : (lanesV4 e0 e1 e2 e3 dx dy).plain := by
  unfold lanesV4; split <;> exact Entry.colour_plain ‹_› _

/-! ## The canonical form -/

/-- The framebuffer of power-on and of INIT. -/
theorem Framebuffer.good_empty : Framebuffer.Good (Vector.replicate 240 []) := by
  intro y
  simp [Memory.wf, Memory.wfFrom, Memory.below, Memory.read]

/-- A row keeps its form under a write of a colour on the grid. -/
theorem row_good {row : Memory 16} {x : Nat} {v : Colour}
    (h : row.wf = true ∧ row.below 320 = true ∧ ∀ x : Nat, Colour.plain (row.read x)) (hx : x < 320) (hv : v.plain) :
    (row.write x v).wf = true ∧ (row.write x v).below 320 = true ∧ ∀ x' : Nat, Colour.plain ((row.write x v).read x') := by
  refine ⟨Memory.wf_write x v h.1, Memory.below_write v h.2.1 hx, fun x' => ?_⟩
  rw [Memory.read_write]; split
  · exact hv
  · exact h.2.2 x'

/-- A pixel write on the grid keeps the form. -/
theorem Framebuffer.good_setPixel {fb : Framebuffer} {x : Nat} (y : Nat) {v : Colour} (h : Framebuffer.Good fb)
    (hx : x < 320) (hv : v.plain) : Framebuffer.Good (Framebuffer.setPixel fb x y v) := by
  unfold Framebuffer.setPixel
  split
  · rename_i hy
    intro y'
    simp only [Vector.getElem_set]
    split
    · exact row_good (h ⟨y, hy⟩) hx hv
    · exact h y'
  · exact h

theorem Framebuffer.good_foldl {x : Nat} (y : Nat) {colour : Nat → Nat → Colour} (hc : ∀ dx dy, (colour dx dy).plain) :
    ∀ (lanes : List (Nat × Nat)) (fb : Framebuffer), (∀ l ∈ lanes, x + l.1 < 320) → Framebuffer.Good fb →
      Framebuffer.Good (lanes.foldl (fun f l => Framebuffer.setPixel f (x + l.1) (y + l.2) (colour l.1 l.2)) fb) := by
  intro lanes
  induction lanes with
  | nil => intro fb _ h; exact h
  | cons l rest ih =>
    intro fb hl h
    exact ih _ (fun m hm => hl m (List.mem_cons_of_mem _ hm))
      (Framebuffer.good_setPixel _ h (hl l (List.mem_cons_self ..)) (hc _ _))

/-- A block write inside the framebuffer keeps the form. -/
theorem Framebuffer.good_setBlock {fb : Framebuffer} {x : Nat} (y : Nat) {colour : Nat → Nat → Colour}
    (h : Framebuffer.Good fb) (hx : x + 4 ≤ 320) (hc : ∀ dx dy, (colour dx dy).plain) :
    Framebuffer.Good (Framebuffer.setBlock fb x y colour) := by
  refine Framebuffer.good_foldl y hc blockLanes fb (fun l hl => ?_) h
  have := (mem_blockLanes l.1 l.2).mp hl; omega

theorem rowOf_good (pixels : List (Nat × BitVec 15)) : ∀ row : Memory 16,
    (row.wf = true ∧ row.below 320 = true ∧ ∀ x : Nat, Colour.plain (row.read x)) →
    (rowOf pixels row).wf = true ∧ (rowOf pixels row).below 320 = true ∧ ∀ x : Nat, Colour.plain ((rowOf pixels row).read x) := by
  induction pixels with
  | nil => intro row h; exact h
  | cons p rest ih =>
    intro row h
    exact ih _ (row_good h (Nat.mod_lt _ (by decide)) (widened_plain _))

/-- Whatever the free pixels are, a failed decoder's framebuffer has the form. -/
theorem Framebuffer.good_free (n : Nat) : Framebuffer.Good (freeFramebuffer n) := by
  intro y
  simp only [freeFramebuffer, Vector.getElem_ofFn]
  exact rowOf_good _ [] ⟨rfl, rfl, fun x => by simp [Memory.read, Colour.plain]⟩

/-! ## The stream -/

/-- INIT binds a canonical stream memory that lists bound offsets only. -/
theorem State.bind_streamGood (s : State) (stream : List Byte) (n : Nat) : (s.bind stream n).StreamGood := by
  refine ⟨streamCells_wf _, ?_⟩
  have h := streamCells_below (stream.take n) 0
  have hle : (stream.take n).length ≤ n := by rw [List.length_take]; exact Nat.min_le_left ..
  simp only [Memory.below, List.all_eq_true, decide_eq_true_eq] at h ⊢
  intro cell hc
  exact Nat.lt_of_lt_of_le (by simpa using h cell hc) hle

/-- Power-on: both memories list nothing. -/
theorem State.reset_memories : State.reset.StreamGood ∧ State.reset.FramebufferGood :=
  ⟨⟨rfl, rfl⟩, Framebuffer.good_empty⟩

end Sys2Proof.Machine
end

