-- ==== Sys2Proof/Laws/Step.lean ====
section
/-!
SUPPORT. The step: what fetching yields at each point of a frame, and that a record step is the step of the machine.
-/

namespace Sys2Proof.Machine

/-- The 24 records of the stream (R123). -/
def Instr.isRecord (i : Instr) : Bool :=
  match i with
  | .ct .. | .bwV1 .. | .bwV4 .. | .init .. | .hasNext | .decodeFrame | .fbView => false
  | .frameIntra .. | .frameInter .. | .stripIntra .. | .stripInter .. => true
  | .cbV412Full _ | .cbV412Sel _ | .cbV112Full _ | .cbV112Sel _ => true
  | .cbV48Full _ | .cbV48Sel _ | .cbV18Full _ | .cbV18Sel _ => true
  | .vecMixed _ | .vecDelta _ | .vecUniform _ => true
  | .g8 .. | .g12 .. | .gskip => true
  | .buV1 _ | .bmV1 _ | .bmV4 .. | .bcSkip | .bcV1 _ | .bcV4 .. => true

/-- INIT answers a next state exactly where no frame is being decoded and it has its bytes (R86, R242, R295). -/
theorem execInit_next {stream : List Byte} {n : Nat} {s t : State} :
    execInit stream n s = .next t ↔ s.fsm.isDecoding = false ∧ n ≤ stream.length ∧ t = s.bind stream n := by
  unfold execInit
  cases h : s.fsm.isDecoding
  · by_cases hn : n ≤ stream.length <;> simp [hn, eq_comm]
  · simp

/-- Running a record is what exec does with it. -/
theorem runRecord_eq_exec {i : Instr} (h : Instr.isRecord i = true) (s : State) : runRecord i s = exec i s := by
  cases i <;> first | rfl | cases h

/-- The group record of a codebook chunk's mode. -/
inductive GroupOf (cb : CodebookRegs) : Instr → Prop where
  | g8 (h : cb.bpp12 = false) (y0 y1 y2 y3 : Byte) : GroupOf cb (.g8 y0 y1 y2 y3)
  | g12 (h : cb.bpp12 = true) (y0 y1 y2 y3 u v : Byte) : GroupOf cb (.g12 y0 y1 y2 y3 u v)

/-- The block codes of a kind of vector chunk. -/
inductive BlockOf : VecKind → Instr → Prop where
  | buV1 (i0 : Byte) : BlockOf .uniform (.buV1 i0)
  | bmV1 (i0 : Byte) : BlockOf .mixed (.bmV1 i0)
  | bmV4 (i0 i1 i2 i3 : Byte) : BlockOf .mixed (.bmV4 i0 i1 i2 i3)
  | bcSkip : BlockOf .delta .bcSkip
  | bcV1 (i0 : Byte) : BlockOf .delta (.bcV1 i0)
  | bcV4 (i0 i1 i2 i3 : Byte) : BlockOf .delta (.bcV4 i0 i1 i2 i3)

/-- Payload registers after zero or more mask bits have been taken. -/
inductive BitsTaken (s : State) : Payload → Payload → Prop where
  | zero (pl : Payload) : BitsTaken s pl pl
  | more {pl pl' pl'' : Payload} {b : Bool} (h : s.nextBit pl = .bit b pl') (rest : BitsTaken s pl' pl'') : BitsTaken s pl pl''

/-- What can be fetched where a record is due, and the state it then runs in. -/
inductive Fetches (s : State) : Due → Instr → State → Prop where
  | frameIntra (h : s.cursor + 10 ≤ s.length) (spare : BitVec 7) (flen : BitVec 24) (w ht n : U16) :
      Fetches s .frame (.frameIntra spare flen w ht n) s
  | frameInter (h : s.cursor + 10 ≤ s.length) (spare : BitVec 7) (flen : BitVec 24) (w ht n : U16) :
      Fetches s .frame (.frameInter spare flen w ht n) s
  | stripIntra {fr : FrameRegs} (h : s.cursor + 12 ≤ fr.F + fr.flen) (l a b c d : U16) :
      Fetches s (.strip fr) (.stripIntra l a b c d) s
  | stripInter {fr : FrameRegs} (h : s.cursor + 12 ≤ fr.F + fr.flen) (l a b c d : U16) :
      Fetches s (.strip fr) (.stripInter l a b c d) s
  | chunk {fr : FrameRegs} {st : StripRegs} (h : st.c + 4 ≤ st.S + st.slen) {row : U16 × (U16 → Instr)}
      (hr : row ∈ chunkRecords) (clen : U16) : Fetches s (.chunk fr st) (row.2 clen) s
  | group {fr : FrameRegs} {st : StripRegs} {cb : CodebookRegs} (hp : cb.pl.p < cb.pl.E) (hk : cb.k < 256)
      (hs : cb.selective = false) (hn : cb.pl.p + cb.groupBytes ≤ cb.pl.E) {i : Instr} (hi : GroupOf cb i) :
      Fetches s (.group fr st cb) i s
  | maskedGroup {fr : FrameRegs} {st : StripRegs} {cb : CodebookRegs} (hp : cb.pl.p < cb.pl.E) (hk : cb.k < 256)
      (hs : cb.selective = true) {pl : Payload} (hb : s.nextBit cb.pl = .bit true pl)
      (hn : pl.p + cb.groupBytes ≤ pl.E) {i : Instr} (hi : GroupOf cb i) :
      Fetches s (.group fr st cb) i { s with fsm := .decoding (.group fr st { cb with pl := pl }) }
  | gskip {fr : FrameRegs} {st : StripRegs} {cb : CodebookRegs} (hp : cb.pl.p < cb.pl.E) (hk : cb.k < 256)
      (hs : cb.selective = true) {pl : Payload} (hb : s.nextBit cb.pl = .bit false pl) :
      Fetches s (.group fr st cb) .gskip { s with fsm := .decoding (.group fr st { cb with pl := pl }) }
  | block {fr : FrameRegs} {st : StripRegs} {vp : VectorRegs} {pl : Payload} (hb : BitsTaken s vp.pl pl)
      {i : Instr} (hi : BlockOf vp.kind i) :
      Fetches s (.block fr st vp) i { s with fsm := .decoding (.block fr st { vp with pl := pl }) }

/-- A fetch within a limit that yields an instruction has decoded the bytes there. -/
theorem State.fetchWithin_run {s t : State} {level : Level} {bits : List Bool} {a n limit : Nat} {i : Instr}
    (h : s.fetchWithin level bits a n limit = .run i t) :
    a + n ≤ limit ∧ t = s ∧ ∃ bytes d, s.bytes a n = some bytes ∧ decode level bits bytes = .ok d ∧ d.instr = i := by
  unfold State.fetchWithin State.fetchAt at h
  split at h
  · rename_i hl
    split at h
    · cases h
    · rename_i bytes hb
      split at h
      · rename_i d hd; cases h; exact ⟨hl, rfl, bytes, d, hb, hd, rfl⟩
      · cases h
  · cases h

theorem decode_group_ok {cb : CodebookRegs} {bits : List Bool} {bytes : List Byte} {d : Decoded}
    (h : decode cb.level bits bytes = .ok d) :
    (cb.selective = false ∧ GroupOf cb d.instr) ∨
    (cb.selective = true ∧ bits = true :: d.bits ∧ GroupOf cb d.instr) ∨
    (cb.selective = true ∧ bits = false :: d.bits ∧ d.instr = .gskip) := by
  cases hb : cb.bpp12 <;> cases hs : cb.selective <;>
    simp only [CodebookRegs.level, hb, hs, if_true, Bool.false_eq_true, if_false, decode] at h
  · obtain ⟨i, rest, hg, rfl⟩ := withBits_ok.mp h
    obtain ⟨y0, y1, y2, y3, _, rfl⟩ := decodeGroup8_ok hg
    exact .inl ⟨rfl, .g8 hb ..⟩
  · rcases decodeSelective_ok h with ⟨hbits, hi, _⟩ | ⟨hbits, hg⟩
    · exact .inr (.inr ⟨rfl, hbits, hi⟩)
    · obtain ⟨y0, y1, y2, y3, _, hi⟩ := decodeGroup8_ok hg
      exact .inr (.inl ⟨rfl, hbits, hi ▸ .g8 hb ..⟩)
  · obtain ⟨i, rest, hg, rfl⟩ := withBits_ok.mp h
    obtain ⟨y0, y1, y2, y3, u, v, _, rfl⟩ := decodeGroup12_ok hg
    exact .inl ⟨rfl, .g12 hb ..⟩
  · rcases decodeSelective_ok h with ⟨hbits, hi, _⟩ | ⟨hbits, hg⟩
    · exact .inr (.inr ⟨rfl, hbits, hi⟩)
    · obtain ⟨y0, y1, y2, y3, u, v, _, hi⟩ := decodeGroup12_ok hg
      exact .inr (.inl ⟨rfl, hbits, hi ▸ .g12 hb ..⟩)

/-- A block code decoded for a kind of chunk is one of its codes. -/
theorem decodeBlock_of {kind : VecKind} {bits : List Bool} {bytes : List Byte} {d : Decoded}
    (h : decodeBlock kind bits bytes = .ok d) : BlockOf kind d.instr := by
  rcases decodeBlock_ok h with ⟨rfl, _, _, _, hi⟩ | ⟨rfl, _, _, _, hi⟩ | ⟨rfl, _, _, _, _, _, _, hi⟩ | ⟨rfl, _, _, hi⟩ |
    ⟨rfl, _, _, _, hi⟩ | ⟨rfl, _, _, _, _, _, _, hi⟩ <;> rw [hi] <;> constructor

theorem State.fetchIndices_run {s t : State} {fr : FrameRegs} {st : StripRegs} {vp : VectorRegs} {bits : List Bool}
    {pl : Payload} {i : Instr} (h : s.fetchIndices fr st vp bits pl = .run i t) :
    BlockOf vp.kind i ∧ t = { s with fsm := .decoding (.block fr st { vp with pl := pl }) } := by
  obtain ⟨_, rfl, bytes, d, _, hd, rfl⟩ := State.fetchWithin_run h
  exact ⟨decodeBlock_of hd, rfl⟩

/-- Everything that can be fetched. -/
theorem State.fetch_run {s t : State} {due : Due} {i : Instr} (h : s.fetch due = .run i t) : Fetches s due i t := by
  cases due with
  | frame =>
    obtain ⟨hl, rfl, bytes, d, _, hd, rfl⟩ := State.fetchWithin_run h
    obtain ⟨i, rest, hi, rfl⟩ := withBits_ok.mp hd
    obtain ⟨spare, flen, w, ht, n, rfl | rfl⟩ := decodeFrameHeader_ok hi
    · exact .frameIntra hl ..
    · exact .frameInter hl ..
  | strip fr =>
    obtain ⟨hl, rfl, bytes, d, _, hd, rfl⟩ := State.fetchWithin_run h
    obtain ⟨i, rest, hi, rfl⟩ := withBits_ok.mp hd
    obtain ⟨l, a, b, c, e, rfl | rfl⟩ := decodeStripHeader_ok hi
    · exact .stripIntra hl ..
    · exact .stripInter hl ..
  | chunk fr st =>
    obtain ⟨hl, rfl, bytes, d, _, hd, rfl⟩ := State.fetchWithin_run h
    obtain ⟨i, rest, hi, rfl⟩ := withBits_ok.mp hd
    unfold decodeChunk at hi
    split at hi
    · split at hi
      · rename_i hc
        obtain ⟨row, hr, _, rfl⟩ := decodeChunkHeader_ok hc
        cases hi
        exact .chunk hl hr _
      · cases hi
    · cases hi
  | group fr st cb =>
    simp only [State.fetch, State.fetchGroup] at h
    split at h
    · cases h
    · rename_i hp
      split at h
      · cases h
      · rename_i hk
        have hp := Decidable.not_not.mp hp
        have hk := Decidable.not_not.mp hk
        split at h
        · rename_i hs
          split at h
          · rename_i b pl hb
            obtain ⟨hl, rfl, bytes, d, _, hd, rfl⟩ := State.fetchWithin_run h
            rcases decode_group_ok hd with ⟨hf, _⟩ | ⟨_, hbits, hi⟩ | ⟨_, hbits, hi⟩
            · rw [hs] at hf; cases hf
            · obtain ⟨rfl, _⟩ := List.cons.inj hbits
              exact .maskedGroup hp hk hs hb (by simpa using hl) hi
            · obtain ⟨rfl, _⟩ := List.cons.inj hbits
              rw [hi]; exact .gskip hp hk hs hb
          · cases h
          · cases h
        · rename_i hs
          have hs : cb.selective = false := by simpa using hs
          obtain ⟨hl, rfl, bytes, d, _, hd, rfl⟩ := State.fetchWithin_run h
          rcases decode_group_ok hd with ⟨_, hi⟩ | ⟨ht, _, _⟩ | ⟨ht, _, _⟩
          · exact .group hp hk hs hl hi
          · rw [hs] at ht; cases ht
          · rw [hs] at ht; cases ht
  | block fr st vp =>
    simp only [State.fetch, State.fetchBlock] at h
    split at h
    · obtain ⟨hi, rfl⟩ := State.fetchIndices_run h
      exact .block (.zero _) hi
    · split at h
      · rename_i hb
        obtain ⟨hi, rfl⟩ := State.fetchIndices_run h
        exact .block (.more hb (.zero _)) hi
      · cases h
      · cases h
    · split at h
      · rename_i hb
        obtain ⟨hi, rfl⟩ := State.fetchIndices_run h
        exact .block (.more hb (.zero _)) hi
      · rename_i hb
        split at h
        · rename_i hb'
          obtain ⟨hi, rfl⟩ := State.fetchIndices_run h
          exact .block (.more hb (.more hb' (.zero _))) hi
        · cases h
        · cases h
      · cases h
      · cases h

/-- Fetching yields stream records only. -/
theorem Fetches.isRecord {s t : State} {due : Due} {i : Instr} (h : Fetches s due i t) : Instr.isRecord i = true := by
  cases h with
  | chunk _ hr clen =>
    simp only [chunkRecords, List.mem_cons, List.not_mem_nil, or_false] at hr
    rcases hr with rfl | rfl | rfl | rfl | rfl | rfl | rfl | rfl | rfl | rfl | rfl <;> rfl
  | group _ _ _ _ hi => cases hi <;> rfl
  | maskedGroup _ _ _ _ _ hi => cases hi <;> rfl
  | block hb hi => cases vp : ‹VectorRegs›; subst vp; cases hi <;> rfl
  | _ => rfl

/-- While a frame is being decoded, the machine's step is the record step that DECODE_FRAME iterates. -/
theorem step_decoding {s : State} {due : Due} (h : s.fsm = .decoding due) : step s = recordStep due s := by
  simp only [step, h, recordStep]
  cases hf : s.fetch due with
  | halt o => rfl
  | run i t => exact (runRecord_eq_exec (State.fetch_run hf).isRecord t).symm

end Sys2Proof.Machine
end

