-- ==== Sys2Proof/Laws/PerInstr.lean ====
section
/-!
SUPPORT. One statement for every instruction: what has an encoding is a record, and its encoding has the record's
number of bytes (R100, R101, R123).
-/

namespace Sys2Proof

/-- The bytes of a record without its mask bits (R102, R103, R105, R110 to R112, R154); 0 for what has no encoding. -/
def recordLength (i : Instr) : Nat :=
  match i with
  | .frameIntra .. | .frameInter .. => 10
  | .stripIntra .. | .stripInter .. => 12
  | .cbV412Full _ | .cbV412Sel _ | .cbV112Full _ | .cbV112Sel _ => 4
  | .cbV48Full _ | .cbV48Sel _ | .cbV18Full _ | .cbV18Sel _ => 4
  | .vecMixed _ | .vecDelta _ | .vecUniform _ => 4
  | .g8 .. => 4
  | .g12 .. => 6
  | .gskip | .bcSkip => 0
  | .buV1 _ | .bmV1 _ | .bcV1 _ => 1
  | .bmV4 .. | .bcV4 .. => 4
  | .ct .. | .bwV1 .. | .bwV4 .. | .init .. | .hasNext | .decodeFrame | .fbView => 0

/-- A chunk header encodes at the chunk level only, in four bytes. -/
theorem encodeChunkHeader_length {level : Level} {cid clen : U16} {c : Code}
    (h : encodeChunkHeader level cid clen = some c) : c.bytes.length = 4 := by
  unfold encodeChunkHeader at h
  split at h
  · cases h; rfl
  · cases h

/-- A record with one encoding. -/
theorem oneCode_length {p : Prop} [Decidable p] {a c : Code} {n : Nat} (h : (if p then some a else none) = some c)
    (ha : a.bytes.length = n) : c.bytes.length = n := by
  split at h
  · cases h; exact ha
  · cases h

/-- A record with two encodings, by level. -/
theorem twoCodes_length {p q : Prop} [Decidable p] [Decidable q] {a b c : Code} {n : Nat}
    (h : (if p then some a else if q then some b else none) = some c) (ha : a.bytes.length = n)
    (hb : b.bytes.length = n) : c.bytes.length = n := by
  split at h
  · cases h; exact ha
  · exact oneCode_length h hb

namespace Laws.EncodedLength

/-- An encoding is a record's, of the record's length. -/
def Statement (i : Instr) : Prop :=
  ∀ (level : Level) (c : Code), encode level i = some c → Machine.Instr.isRecord i = true ∧ c.bytes.length = recordLength i

theorem frameIntra (spare : BitVec 7) (flen : BitVec 24) (w h n : U16) : Statement (.frameIntra spare flen w h n) :=
  fun _ _ h => ⟨rfl, oneCode_length h rfl⟩
theorem frameInter (spare : BitVec 7) (flen : BitVec 24) (w h n : U16) : Statement (.frameInter spare flen w h n) :=
  fun _ _ h => ⟨rfl, oneCode_length h rfl⟩
theorem stripIntra (l a b c d : U16) : Statement (.stripIntra l a b c d) :=
  fun _ _ h => ⟨rfl, oneCode_length h rfl⟩
theorem stripInter (l a b c d : U16) : Statement (.stripInter l a b c d) :=
  fun _ _ h => ⟨rfl, oneCode_length h rfl⟩
theorem cbV412Full (clen : U16) : Statement (.cbV412Full clen) := fun _ _ h => ⟨rfl, encodeChunkHeader_length h⟩
theorem cbV412Sel (clen : U16) : Statement (.cbV412Sel clen) := fun _ _ h => ⟨rfl, encodeChunkHeader_length h⟩
theorem cbV112Full (clen : U16) : Statement (.cbV112Full clen) := fun _ _ h => ⟨rfl, encodeChunkHeader_length h⟩
theorem cbV112Sel (clen : U16) : Statement (.cbV112Sel clen) := fun _ _ h => ⟨rfl, encodeChunkHeader_length h⟩
theorem cbV48Full (clen : U16) : Statement (.cbV48Full clen) := fun _ _ h => ⟨rfl, encodeChunkHeader_length h⟩
theorem cbV48Sel (clen : U16) : Statement (.cbV48Sel clen) := fun _ _ h => ⟨rfl, encodeChunkHeader_length h⟩
theorem cbV18Full (clen : U16) : Statement (.cbV18Full clen) := fun _ _ h => ⟨rfl, encodeChunkHeader_length h⟩
theorem cbV18Sel (clen : U16) : Statement (.cbV18Sel clen) := fun _ _ h => ⟨rfl, encodeChunkHeader_length h⟩
theorem vecMixed (clen : U16) : Statement (.vecMixed clen) := fun _ _ h => ⟨rfl, encodeChunkHeader_length h⟩
theorem vecDelta (clen : U16) : Statement (.vecDelta clen) := fun _ _ h => ⟨rfl, encodeChunkHeader_length h⟩
theorem vecUniform (clen : U16) : Statement (.vecUniform clen) := fun _ _ h => ⟨rfl, encodeChunkHeader_length h⟩
theorem g8 (y0 y1 y2 y3 : Byte) : Statement (.g8 y0 y1 y2 y3) :=
  fun _ _ h => ⟨rfl, twoCodes_length h rfl rfl⟩
theorem g12 (y0 y1 y2 y3 u v : Byte) : Statement (.g12 y0 y1 y2 y3 u v) :=
  fun _ _ h => ⟨rfl, twoCodes_length h rfl rfl⟩
theorem gskip : Statement .gskip :=
  fun _ _ h => ⟨rfl, oneCode_length h rfl⟩
theorem buV1 (i0 : Byte) : Statement (.buV1 i0) :=
  fun _ _ h => ⟨rfl, oneCode_length h rfl⟩
theorem bmV1 (i0 : Byte) : Statement (.bmV1 i0) :=
  fun _ _ h => ⟨rfl, oneCode_length h rfl⟩
theorem bmV4 (i0 i1 i2 i3 : Byte) : Statement (.bmV4 i0 i1 i2 i3) :=
  fun _ _ h => ⟨rfl, oneCode_length h rfl⟩
theorem bcSkip : Statement .bcSkip :=
  fun _ _ h => ⟨rfl, oneCode_length h rfl⟩
theorem bcV1 (i0 : Byte) : Statement (.bcV1 i0) :=
  fun _ _ h => ⟨rfl, oneCode_length h rfl⟩
theorem bcV4 (i0 i1 i2 i3 : Byte) : Statement (.bcV4 i0 i1 i2 i3) :=
  fun _ _ h => ⟨rfl, oneCode_length h rfl⟩
theorem ct (y u v : Byte) : Statement (.ct y u v) := fun _ _ h => nomatch h
theorem bwV1 (x y : Nat) (e : Entry) : Statement (.bwV1 x y e) := fun _ _ h => nomatch h
theorem bwV4 (x y : Nat) (e0 e1 e2 e3 : Entry) : Statement (.bwV4 x y e0 e1 e2 e3) := fun _ _ h => nomatch h
theorem init (stream : List Byte) (length : Nat) : Statement (.init stream length) := fun _ _ h => nomatch h
theorem hasNext : Statement .hasNext := fun _ _ h => nomatch h
theorem decodeFrame : Statement .decodeFrame := fun _ _ h => nomatch h
theorem fbView : Statement .fbView := fun _ _ h => nomatch h

end Laws.EncodedLength
end Sys2Proof
end

