-- ==== Sys2Proof/Laws/Platform.lean ====
section
/-!
SUPPORT. What the byte image of a pixel and a register map can answer.
-/

namespace Sys2Proof.Machine

/-- A register is placed at an address exactly where the map says so. -/
@[simp] theorem mem_registersAt {regMap : HostRegister → Nat} {a : Nat} {r : HostRegister} :
    r ∈ registersAt regMap a ↔ regMap r = a := by
  cases r <;> simp [registersAt]

/-- Everything a register can show: `fsm`, and after the first INIT `err`. -/
theorem State.status_some {s : State} {r : HostRegister} {v : Status} :
    s.status r = some v ↔ (r = .fsm ∧ v = .fsm s.fsm) ∨ (r = .err ∧ s.fsm ≠ .uninit ∧ v = .err s.err) := by
  cases r <;> simp [State.status, eq_comm]

/-- The two bytes of a pixel make its word again, in the order of their addresses under either byte order. -/
theorem pixelByte_join (order : ByteOrder) (c : Colour) :
    joinU16 (pixelByte order c (order == .little)) (pixelByte order c (order == .big)) = c := by
  cases order <;> exact joinU16_highByte_lowByte c

/-- Pixel `(x, y)` has the two bytes from `2*(y*320 + x)` on. -/
theorem State.imageByte_pixel {s : State} (order : ByteOrder) {x y : Nat} (upper : Bool) (h : x < 320) :
    s.imageByte order (2 * (y * 320 + x) + upper.toNat) = (s.viewPixel x y).map (fun c => pixelByte order c upper) := by
  have hw : (2 * (y * 320 + x) + upper.toNat) / 2 = y * 320 + x := by cases upper <;> simp only [Bool.toNat_false, Bool.toNat_true] <;> omega
  have hx : (y * 320 + x) % 320 = x := by omega
  have hy : (y * 320 + x) / 320 = y := by omega
  have hb : decide ((2 * (y * 320 + x) + upper.toNat) % 2 = 1) = upper := by cases upper <;> simp
  simp only [State.imageByte, hw, hx, hy, hb]

end Sys2Proof.Machine
end

