-- ==== Sys2Proof/Tests/Slice0.lean ====
section
/-!
SUPPORT. Tests. Expected values are the spec's own worked examples and vectors (the rule or the vector of
95_test_vectors.md is named at each) or words written out from 30_encoding.md. Then one witness for each statement that
has hypotheses.
-/

namespace Sys2Proof.Tests

open Sys2Proof Sys2Proof.Machine

/-! The tests are checked one after another: many kernel evaluations at once take more threads than a small machine has. -/
set_option Elab.async false

/-! ## Small states -/

/-- A decoder bound to a byte sequence. -/
def loaded (bytes : List Byte) : State := State.reset.bind bytes bytes.length

/-- A decoder bound to a byte sequence with a record due. -/
def due (bytes : List Byte) (d : Due) : State := { loaded bytes with fsm := .decoding d }

/-- Frame registers of a frame of the given length at offset 0. -/
def frameOf (flen nstrips : Nat) (i : Fin 32) (inter : Bool) : FrameRegs :=
  { F := 0, inter := inter, flen := flen, nstrips := nstrips, i := i }

/-- Strip registers of a strip of the given length at offset 10. -/
def stripOf (slen c : Nat) : StripRegs := { S := 10, slen := slen, c := c }

/-- Payload registers. -/
def payloadOf (p E : Nat) (mask : BitVec 32) (left : Nat) : Payload := { p := p, E := E, mask := mask, left := left }

/-- Codebook registers. -/
def codebookOf (target : Target) (bpp12 selective : Bool) (k : Nat) (pl : Payload) : CodebookRegs :=
  { target := target, bpp12 := bpp12, selective := selective, k := k, pl := pl }

/-- Vector registers. -/
def vectorOf (kind : VecKind) (bx by_ : Nat) (pl : Payload) : VectorRegs := { kind := kind, bx := bx, by_ := by_, pl := pl }

/-- The entry of R171's example. -/
def greys : Entry := ⟨0x0421, 0x294A, 0x5294, 0x7FFF⟩

/-- The entries of R157's and R172's examples. -/
def ramp : Entry := ⟨0x0842, 0x2108, 0x4210, 0x7FFF⟩
def flat : Entry := ⟨0x6567, 0x6567, 0x6567, 0x6567⟩

/-- A slot with the box (0,0)-(8,4), V1 entry 0 and V4 entries 0 and 1 written. -/
def drawSlot : Slot :=
  { Slot.zero with
    x1 := 8, y1 := 4
    v1 := Slot.zero.v1.set 0 greys, w1 := Slot.zero.w1.set 0 true
    v4 := (Slot.zero.v4.set 0 ramp).set 1 flat, w4 := (Slot.zero.w4.set 0 true).set 1 true }

/-- A state with a block code due in that slot, in a strip of 40 bytes of a frame of 50. -/
def drawing (kind : VecKind) (bx : Nat) (pl : Payload) : State :=
  { due (List.replicate 60 0) (.block (frameOf 50 1 0 false) (stripOf 40 22) (vectorOf kind bx 0 pl)) with
    slots := (Vector.replicate 32 Slot.zero).set 0 drawSlot }

/-- What a next state answers to a question. -/
def ask {α : Type} (o : Outcome) (f : State → α) : Option α :=
  match o with
  | .next t => some (f t)
  | .fault _ => none
  | .refused _ => none

/-- A question answered yes gives the next state. -/
theorem ask_yes {o : Outcome} {p : State → Bool} (h : ask o p = some true) : ∃ t, o = .next t ∧ p t = true := by
  cases o with
  | next t => exact ⟨t, rfl, Option.some.inj h⟩
  | fault r => cases h
  | refused r => cases h

/-- The reason of a refusal. -/
def refusal (o : Outcome) : Option Refusal :=
  match o with
  | .next _ => none
  | .fault _ => none
  | .refused r => some r

theorem refusal_some {o : Outcome} {r : Refusal} (h : refusal o = some r) : o = .refused r := by
  cases o with
  | next t => cases h
  | fault r => cases h
  | refused r => cases h; rfl

/-- Four rows of four pixels from (x, y). -/
def block (s : State) (x y : Nat) : List (List Colour) :=
  (List.range 4).map (fun dy => (List.range 4).map (fun dx => Framebuffer.pixel s.fb (x + dx) (y + dy)))

/-! ## Well-formedness: each check refuses a term -/

theorem test_wf_bwV1 : Instr.wellFormed (.bwV1 316 236 greys) = true := by decide
theorem test_wf_bwV1_x_step : Instr.wellFormed (.bwV1 2 0 greys) = false := by decide
theorem test_wf_bwV1_y_step : Instr.wellFormed (.bwV1 0 6 greys) = false := by decide
theorem test_wf_bwV1_x_range : Instr.wellFormed (.bwV1 320 0 greys) = false := by decide
theorem test_wf_bwV1_y_range : Instr.wellFormed (.bwV1 0 240 greys) = false := by decide
theorem test_wf_bwV1_bit15 : Instr.wellFormed (.bwV1 0 0 ⟨0, 0, 0x8000, 0⟩) = false := by decide
theorem test_wf_bwV4_position : Instr.wellFormed (.bwV4 4 238 ramp flat flat ramp) = false := by decide
theorem test_wf_bwV4_bit15 : Instr.wellFormed (.bwV4 0 0 ramp flat flat ⟨0x8000, 0, 0, 0⟩) = false := by decide
theorem test_wf_init : Instr.wellFormed (.init [1, 2] 2) = true := by decide
theorem test_wf_init_length : Instr.wellFormed (.init [1, 2] 3) = false := by decide
theorem test_wf_init_width (stream : List Byte) : Instr.wellFormed (.init stream (2 ^ 32)) = false := by
  simp [Instr.wellFormed]

/-! ## Decoding: one word for each record, written out from 30_encoding.md -/

def decoded (i : Instr) : Except Reject Decoded := .ok { instr := i, bits := [], bytes := [] }

theorem test_decode_frameIntra :
    decode .frame [] [0x01, 0x00, 0x12, 0xE2, 0x01, 0x40, 0x00, 0xF0, 0x00, 0x01] = decoded (.frameIntra 0 0x12E2 320 240 1) := by
  decide
theorem test_decode_frameInter :
    decode .frame [] [0x02, 0x01, 0x00, 0x0A, 0x01, 0x40, 0x00, 0xF0, 0x00, 0x20] = decoded (.frameInter 1 0x1000A 320 240 32) := by
  decide
theorem test_decode_stripIntra :
    decode .strip [] [0x10, 0x00, 0x12, 0xD8, 0x00, 0x08, 0x00, 0x0C, 0x00, 0xF0, 0x01, 0x40] =
      decoded (.stripIntra 0x12D8 8 12 240 320) := by decide
theorem test_decode_stripInter :
    decode .strip [] [0x11, 0x00, 0x00, 0x0C, 0x00, 0x00, 0x00, 0x00, 0x00, 0x04, 0x00, 0x08] = decoded (.stripInter 12 0 0 4 8) := by
  decide
theorem test_decode_cbV412Full : decode .chunk [] [0x20, 0x00, 0x00, 0x10] = decoded (.cbV412Full 16) := by decide
theorem test_decode_cbV412Sel : decode .chunk [] [0x21, 0x00, 0x00, 0x0E] = decoded (.cbV412Sel 14) := by decide
theorem test_decode_cbV112Full : decode .chunk [] [0x22, 0x00, 0x00, 0x0A] = decoded (.cbV112Full 10) := by decide
theorem test_decode_cbV112Sel : decode .chunk [] [0x23, 0x00, 0x01, 0x0E] = decoded (.cbV112Sel 270) := by decide
theorem test_decode_cbV48Full : decode .chunk [] [0x24, 0x00, 0x00, 0x08] = decoded (.cbV48Full 8) := by decide
theorem test_decode_cbV48Sel : decode .chunk [] [0x25, 0x00, 0x00, 0x0C] = decoded (.cbV48Sel 12) := by decide
theorem test_decode_cbV18Full : decode .chunk [] [0x26, 0x00, 0x00, 0x08] = decoded (.cbV18Full 8) := by decide
theorem test_decode_cbV18Sel : decode .chunk [] [0x27, 0x00, 0x00, 0x0C] = decoded (.cbV18Sel 12) := by decide
theorem test_decode_vecMixed : decode .chunk [] [0x30, 0x00, 0x00, 0x0D] = decoded (.vecMixed 13) := by decide
theorem test_decode_vecDelta : decode .chunk [] [0x31, 0x00, 0x00, 0x09] = decoded (.vecDelta 9) := by decide
theorem test_decode_vecUniform : decode .chunk [] [0x32, 0x00, 0x12, 0xC4] = decoded (.vecUniform 4804) := by decide
theorem test_decode_g8 : decode (.group8 false) [] [1, 2, 3, 4] = decoded (.g8 1 2 3 4) := by decide
theorem test_decode_g8_selective : decode (.group8 true) [true] [1, 2, 3, 4] = decoded (.g8 1 2 3 4) := by decide
theorem test_decode_g12 : decode (.group12 false) [] [1, 2, 3, 4, 0x32, 0xEC] = decoded (.g12 1 2 3 4 0x32 0xEC) := by decide
theorem test_decode_gskip : decode (.group12 true) [false] [] = decoded .gskip := by decide
theorem test_decode_buV1 : decode (.block .uniform) [] [9] = decoded (.buV1 9) := by decide
theorem test_decode_bmV1 : decode (.block .mixed) [false] [9] = decoded (.bmV1 9) := by decide
theorem test_decode_bmV4 : decode (.block .mixed) [true] [9, 8, 7, 6] = decoded (.bmV4 9 8 7 6) := by decide
theorem test_decode_bcSkip : decode (.block .delta) [false] [] = decoded .bcSkip := by decide
theorem test_decode_bcV1 : decode (.block .delta) [true, false] [9] = decoded (.bcV1 9) := by decide
theorem test_decode_bcV4 : decode (.block .delta) [true, true] [9, 8, 7, 6] = decoded (.bcV4 9 8 7 6) := by decide
/-- Rejections: a strip id and three chunk ids that are not listed (R104, R108), and a header cut short. -/
theorem test_decode_rejects :
    decode .strip [] [0x12, 0, 0, 0x0C, 0, 0, 0, 0, 0, 4, 0, 4] = .error (.unknownStripId 0x1200) ∧
    decode .chunk [] [0x28, 0, 0, 4] = .error (.unknownChunkId 0x2800 4) ∧
    decode .chunk [] [0x40, 0, 0, 4] = .error (.unknownChunkId 0x4000 4) ∧
    decode .chunk [] [0x20, 1, 0, 4] = .error (.unclearChunkId 0x2001 4) ∧
    decode .frame [] [1, 0, 0, 10, 1, 0x40, 0, 0xF0, 0] = .error .truncated := by decide

/-- Words of the opcode table (its match values) decode to their rows. -/
theorem test_table_words :
    decodeTableWord 80 0x01000000000000000000 = some (.frameIntra 0 0 0 0 0) ∧
    decodeTableWord 80 0 = some (.frameInter 0 0 0 0 0) ∧
    decodeTableWord 96 0x100000000000000000000000 = some (.stripIntra 0 0 0 0 0) ∧
    decodeTableWord 32 0x21000000 = some (.cbV412Sel 0) ∧ decodeTableWord 32 0x32000000 = some (.vecUniform 0) ∧
    decodeTableWord 32 0 = some (.g8 0 0 0 0) ∧ decodeTableWord 48 0 = some (.g12 0 0 0 0 0 0) ∧
    decodeTableWord 32 0x20010004 = none := by decide

/-- A table word stored for the next step is what the step runs, from power-on. -/
theorem test_withFetchWord :
    ask (step (State.reset.withFetchWord 32 0x26000004)) (fun t => t.fsm) =
      ask (exec (.cbV18Full 4) (State.reset.withFetchWord 32 0x26000004)) (fun t => t.fsm) ∧
    (ask (step (State.reset.withFetchWord 32 0x26000004)) (fun t => t.err)).isSome = true := by decide +kernel

/-! ## The datapath -/

/-- CT10 and CT11: the two roundings of an odd negative u differ (R145). -/
theorem test_ct_roundings :
    ask (exec (.ct 127 0xFF 0) State.reset) (fun t => t.reply) = some (.colour 0x3DEF) ∧
    ask (exec (.ct 127 0xFF 0) { State.reset with chromaHalf := .floor }) (fun t => t.reply) = some (.colour 0x3E0F) := by
  decide
/-- CT18: all three channels at work, two of them saturated. -/
theorem test_ct_clamps : ask (exec (.ct 16 0x9C 60) State.reset) (fun t => t.reply) = some (.colour 0x0011) := by decide
/-- R171's example. -/
theorem test_bwV1 :
    ask (exec (.bwV1 4 0 greys) State.reset) (fun t => (block t 4 0, block t 0 0)) =
      some ([[0x0421, 0x0421, 0x294A, 0x294A], [0x0421, 0x0421, 0x294A, 0x294A],
        [0x5294, 0x5294, 0x7FFF, 0x7FFF], [0x5294, 0x5294, 0x7FFF, 0x7FFF]], List.replicate 4 [0, 0, 0, 0]) := by
  decide +kernel
/-- R172's example. -/
theorem test_bwV4 :
    ask (exec (.bwV4 0 0 ramp flat flat ramp) State.reset) (fun t => block t 0 0) =
      some [[0x0842, 0x2108, 0x6567, 0x6567], [0x4210, 0x7FFF, 0x6567, 0x6567],
        [0x6567, 0x6567, 0x0842, 0x2108], [0x6567, 0x6567, 0x4210, 0x7FFF]] := by decide +kernel

/-! ## Records -/

/-- A frame header before 40 more bytes (R226): the cursor passes it; flags bit 0 alone sets the inter flag. -/
theorem test_frame_headers :
    ask (exec (.frameIntra 0x7F 50 320 240 2) (due (List.replicate 50 0) .frame)) (fun t => (t.cursor, t.fsm)) =
      some (10, .decoding (.strip (frameOf 50 2 0 false))) ∧
    ask (exec (.frameInter 0 50 320 240 2) (due (List.replicate 50 0) .frame)) (fun t => t.fsm) =
      some (.decoding (.strip (frameOf 50 2 0 true))) := by decide +kernel
/-- R235 d: wrong dimensions are reported before a strip count above 32. -/
theorem test_frame_priority :
    ask (exec (.frameIntra 0 50 160 240 33) (due (List.replicate 50 0) .frame)) (fun t => t.err) = some .badDimensions := by
  decide +kernel
/-- R213's example as strip 0. -/
theorem test_stripIntra :
    ask (exec (.stripIntra 12 0 0 4 4) { due (List.replicate 22 0) (.strip (frameOf 22 1 0 false)) with cursor := 10 })
      (fun t => ((t.slots[0].x0, t.slots[0].x1, t.slots[0].y0, t.slots[0].y1), t.cursor, t.err, t.fsm)) =
      some ((0, 4, 0, 4), 22, .ok, .exhausted) := by decide +kernel
/-- R214's example as strip 1 of an inter frame whose strip 0 ended at y1 = 4: relative and seeded. -/
theorem test_stripInter :
    ask (exec (.stripInter 12 0 0 4 8)
        { due (List.replicate 60 0) (.strip (frameOf 22 2 1 true)) with
          cursor := 10, slots := (Vector.replicate 32 Slot.zero).set 0 drawSlot })
      (fun t => ((t.slots[1].x0, t.slots[1].x1, t.slots[1].y0, t.slots[1].y1), t.slots[1].v1[0], t.slots[1].w4[1], t.fsm)) =
      some ((0, 8, 4, 8), greys, true, .ready) := by decide +kernel
/-- R161's and R165 a: an 8-bit full chunk opens its first group; an empty chunk ends at once. -/
theorem test_cb_opens :
    ask (exec (.cbV48Full 8) (due (List.replicate 60 0) (.chunk (frameOf 50 1 0 false) (stripOf 40 22)))) (fun t => t.fsm) =
      some (.decoding (.group (frameOf 50 1 0 false) (stripOf 40 22) (codebookOf .v4 false false 0 (payloadOf 26 30 0 0)))) ∧
    ask (exec (.cbV112Sel 4) (due (List.replicate 60 0) (.chunk (frameOf 50 1 0 false) (stripOf 40 22)))) (fun t => t.fsm) =
      some (.decoding (.chunk (frameOf 50 1 0 false) (stripOf 40 26))) := by decide +kernel
/-- R194 a: a vector chunk with an empty payload over a box that holds a block opens its walk. -/
theorem test_vec_opens :
    ask (exec (.vecDelta 4) { drawing .delta 0 (payloadOf 0 0 0 0) with
        fsm := .decoding (.chunk (frameOf 50 1 0 false) (stripOf 40 22)) }) (fun t => t.fsm) =
      some (.decoding (.block (frameOf 50 1 0 false) (stripOf 40 22) (vectorOf .delta 0 0 (payloadOf 26 26 0 0)))) := by
  decide +kernel
/-- R161's example group: greys from lumas F8 00 00 F8. -/
theorem test_g8 :
    ask (exec (.g8 0xF8 0 0 0xF8)
        (due (List.replicate 60 0)
          (.group (frameOf 50 1 0 false) (stripOf 40 22) (codebookOf .v4 false false 0 (payloadOf 26 30 0 0)))))
      (fun t => (t.slots[0].v4[0], t.slots[0].w4[0], t.slots[0].w1[0], t.fsm)) =
      some (⟨0x7FFF, 0, 0, 0x7FFF⟩, true, false, .decoding (.chunk (frameOf 50 1 0 false) (stripOf 40 30))) := by
  decide +kernel
/-- R159's example group: CT(128, 0, 127) four times, into the V1 codebook. -/
theorem test_g12 :
    ask (exec (.g12 0x80 0x80 0x80 0x80 0 0x7F)
        (due (List.replicate 60 0)
          (.group (frameOf 50 1 0 false) (stripOf 40 22) (codebookOf .v1 true false 7 (payloadOf 26 38 0 0)))))
      (fun t => (t.slots[0].v1[7], t.slots[0].w1[7], t.slots[0].w1[6], t.fsm)) =
      some (⟨0x401F, 0x401F, 0x401F, 0x401F⟩, true, false,
        .decoding (.group (frameOf 50 1 0 false) (stripOf 40 22) (codebookOf .v1 true false 8 (payloadOf 32 38 0 0)))) := by
  decide +kernel
/-- R162's example, the first bit: entry 0 is skipped, no byte is consumed; the step takes the mask word first. -/
theorem test_gskip_step :
    ask (step (due (List.replicate 26 0 ++ [0, 0, 0, 1, 8, 8, 8, 8] ++ List.replicate 26 0)
          (.group (frameOf 50 1 0 false) (stripOf 40 22) (codebookOf .v4 false true 0 (payloadOf 26 34 0 0)))))
      (fun t => (t.slots[0].w4[0], t.fsm)) =
      some (false,
        .decoding (.group (frameOf 50 1 0 false) (stripOf 40 22) (codebookOf .v4 false true 1 (payloadOf 30 34 2 31)))) := by
  decide +kernel
/-- R156: a mask bit of 1 is left when the payload is exhausted. -/
theorem test_group_end_check :
    ask (exec (.g8 1 2 3 4)
        (due (List.replicate 60 0)
          (.group (frameOf 50 1 0 false) (stripOf 40 22) (codebookOf .v1 false true 0 (payloadOf 30 34 0x80000000 31)))))
      (fun t => (t.err, t.fsm)) = some (.invalidData, .failed) := by decide +kernel
/-- R165 g's payload 40 00 00 00: bit 0 skips entry 0 with the payload exhausted, and a 1 bit is left (R156). -/
theorem test_gskip_end_check :
    ask (step (due (List.replicate 26 0 ++ [0x40, 0, 0, 0] ++ List.replicate 30 0)
          (.group (frameOf 50 1 0 false) (stripOf 40 22) (codebookOf .v4 false true 0 (payloadOf 26 30 0 0)))))
      (fun t => (t.err, t.fsm)) = some (.invalidData, .failed) := by decide +kernel
/-- R185: a V1 block drawn; the walk goes on to the block at its right. -/
theorem test_buV1 :
    ask (exec (.buV1 0) (drawing .uniform 0 (payloadOf 26 28 0 0))) (fun t => (block t 0 0, block t 4 0, t.fsm)) =
      some ([[0x0421, 0x0421, 0x294A, 0x294A], [0x0421, 0x0421, 0x294A, 0x294A],
        [0x5294, 0x5294, 0x7FFF, 0x7FFF], [0x5294, 0x5294, 0x7FFF, 0x7FFF]], List.replicate 4 [0, 0, 0, 0],
        .decoding (.block (frameOf 50 1 0 false) (stripOf 40 22) (vectorOf .uniform 4 0 (payloadOf 27 28 0 0)))) := by
  decide +kernel
/-- R189: a byte is left after the last block. -/
theorem test_bmV1_leftover :
    ask (exec (.bmV1 0) (drawing .mixed 4 (payloadOf 30 32 0 30))) (fun t => t.err) = some .invalidData := by decide +kernel
/-- R186's example: indices 00 01 01 00 give R172's block; as the last block it ends the chunk. -/
theorem test_bmV4 :
    ask (exec (.bmV4 0 1 1 0) (drawing .mixed 4 (payloadOf 30 34 0 30))) (fun t => (block t 4 0, t.fsm)) =
      some ([[0x0842, 0x2108, 0x6567, 0x6567], [0x4210, 0x7FFF, 0x6567, 0x6567],
        [0x6567, 0x6567, 0x0842, 0x2108], [0x6567, 0x6567, 0x4210, 0x7FFF]],
        .decoding (.chunk (frameOf 50 1 0 false) (stripOf 40 34))) := by decide +kernel
/-- R184: a skipped block keeps its pixels and takes no byte. -/
theorem test_bcSkip :
    ask (exec .bcSkip (drawing .delta 0 (payloadOf 30 34 0 31))) (fun t => (block t 0 0, t.fsm)) =
      some (List.replicate 4 [0, 0, 0, 0],
        .decoding (.block (frameOf 50 1 0 false) (stripOf 40 22) (vectorOf .delta 4 0 (payloadOf 30 34 0 31)))) := by
  decide +kernel
/-- R188: entry 2 was never written. -/
theorem test_bcV1_unwritten :
    ask (exec (.bcV1 2) (drawing .delta 0 (payloadOf 30 34 0 30))) (fun t => (t.err, t.fsm)) = some (.invalidData, .failed) := by
  decide +kernel
/-- R186: fewer than four index bytes remain. -/
theorem test_bcV4_short :
    ask (exec (.bcV4 0 0 0 0) (drawing .delta 0 (payloadOf 31 34 0 30))) (fun t => t.err) = some .invalidData := by
  decide +kernel
/-- R117: the second bit of a delta code comes from the next mask word, read before the index bytes. -/
theorem test_bcV1_refresh_step :
    ask (step { drawing .delta 0 (payloadOf 30 35 0x80000000 1) with
        stream := streamCells 0 (List.replicate 30 0 ++ [0x40, 0, 0, 0] ++ List.replicate 26 0) }) (fun t => t.fsm) =
      some (.decoding (.block (frameOf 50 1 0 false) (stripOf 40 22)
        (vectorOf .delta 4 0 (payloadOf 35 35 0x80000000 31)))) := by decide +kernel

/-! ## The host's commands -/

/-- R241's example. -/
theorem test_init :
    ask (exec (.init [1, 0, 0, 10, 1, 0x40, 0, 0xF0, 0, 0] 10) State.reset)
      (fun t => (t.cursor, t.fsm, t.length, t.byte 4, t.byte 10)) = some (0, .ready, 10, some 1, none) := by decide +kernel
/-- R295, U7: INIT while a frame is being decoded is refused; after a failure it is accepted (R242). -/
theorem test_init_overlap :
    refusal (exec (.init [1] 1) { State.reset with fsm := .decoding .frame }) = some .overlap ∧
    ask (exec (.init [1] 1) { State.reset with fsm := .failed }) (fun t => t.fsm) = some .ready := by decide +kernel
/-- U13: `err` shows nothing at power-on; `fsm` shows `Uninit` (R47), and after INIT `err` shows `Ok` (R41). -/
theorem test_status :
    (State.reset.status .err, State.reset.status .fsm) = (none, some (.fsm .uninit)) ∧
    (loaded []).status .err = some (.err .ok) := by decide +kernel
/-- R244's example: after INIT(_, 0), HAS_NEXT is false; with a byte bound it is true. -/
theorem test_hasNext :
    ask (exec .hasNext (loaded [])) (fun t => t.reply) = some (.bool false) ∧
    ask (exec .hasNext (loaded [0])) (fun t => t.reply) = some (.bool true) := by decide +kernel
/-- R233: `Eof` on a stream of length 0; R231's example frame gives `Ok`, cursor 10, `Exhausted`. -/
theorem test_decodeFrame :
    ask (exec .decodeFrame (loaded [])) (fun t => (t.err, t.fsm)) = some (.eof, .exhausted) ∧
    ask (exec .decodeFrame (loaded [1, 0, 0, 10, 1, 0x40, 0, 0xF0, 0, 0])) (fun t => (t.err, t.cursor, t.fsm)) =
      some (.ok, 10, .exhausted) := by decide +kernel
/-- P2 of 95_test_vectors.md: one frame with two codebook chunks and a mixed vector chunk. -/
theorem test_decodeFrame_p2 :
    ask (exec .decodeFrame (loaded
        [0x01, 0, 0, 0x3B, 0x01, 0x40, 0, 0xF0, 0, 1, 0x10, 0, 0, 0x31, 0, 0, 0, 0, 0, 4, 0, 8,
          0x20, 0, 0, 0x10, 0x10, 0x40, 0x80, 0xFF, 0, 0, 0x64, 0x64, 0x64, 0x64, 0x32, 0xEC,
          0x26, 0, 0, 8, 8, 0x50, 0xA0, 0xF8, 0x30, 0, 0, 0xD, 0x80, 0, 0, 0, 0, 1, 1, 0, 0]))
      (fun t => (t.err, t.cursor, block t 0 0, block t 4 0)) =
      some (.ok, 59,
        [[0x0842, 0x2108, 0x6567, 0x6567], [0x4210, 0x7FFF, 0x6567, 0x6567],
          [0x6567, 0x6567, 0x0842, 0x2108], [0x6567, 0x6567, 0x4210, 0x7FFF]],
        [[0x0421, 0x0421, 0x294A, 0x294A], [0x0421, 0x0421, 0x294A, 0x294A],
          [0x5294, 0x5294, 0x7FFF, 0x7FFF], [0x5294, 0x5294, 0x7FFF, 0x7FFF]]) := by decide +kernel
/-- R250: a view shows zeros after INIT, and no view is held before FB_VIEW. -/
theorem test_fbView :
    ask (exec .fbView (loaded [0])) (fun t => (t.viewPixel 319 239, t.viewPixel 320 0)) = some (some 0, none) ∧
    (loaded [0]).viewPixel 0 0 = none := by decide +kernel

/-- R74, D23: the two bytes of the word 0x1234 at the lower and the higher address, in either byte order. -/
theorem test_pixelByte :
    (pixelByte .little 0x1234 false, pixelByte .little 0x1234 true) = (0x34, 0x12) ∧
    (pixelByte .big 0x1234 false, pixelByte .big 0x1234 true) = (0x12, 0x34) := by decide
/-- R249: pixel (4, 1) is word 324, bytes 648 and 649 of the image. -/
theorem test_imageByte :
    let s := { loaded [0] with viewValid := true, fb := Framebuffer.setPixel (loaded [0]).fb 4 1 0x1234 }
    s.imageByte .big 648 = some 0x12 ∧ s.imageByte .big 649 = some 0x34 ∧ s.imageByte .big 650 = some 0 := by decide +kernel

/-! ## Witnesses: for each statement with hypotheses, states and operands that meet them, clause by clause -/

/-- A decoder bound to at least one byte meets the invariant, whatever commands the host has queued. -/
theorem loaded_inv (b : Byte) (rest : List Byte) (cmds : List HostCmd) :
    ({ loaded (b :: rest) with cmds := cmds } : State).Inv := by
  refine ⟨State.bind_streamGood State.reset (b :: rest) _, Framebuffer.good_empty, ?_⟩
  have hf : ({ loaded (b :: rest) with cmds := cmds } : State).fsm = .ready := by simp [loaded, State.bind]
  rw [hf]
  refine ⟨fun i => ?_, by simp [loaded, State.bind]⟩
  simp [loaded, State.bind, Slot.Good, Slot.zero, plainCodebook, Entry.zero, Entry.plain, Colour.plain]

/-- E12 of 95_test_vectors.md: a strip with one selective V1 chunk that writes entry 0. -/
def e12 : List Byte :=
  [0x01, 0, 0, 0x22, 0x01, 0x40, 0, 0xF0, 0, 1, 0x10, 0, 0, 0x18, 0, 0, 0, 0, 0, 4, 0, 4,
    0x27, 0, 0, 0x0C, 0x80, 0, 0, 0, 1, 2, 3, 4]

/-- The strip registers and the payload end used below: a strip of 40 bytes, a payload that ends before it. -/
abbrev fr0 : FrameRegs := frameOf 50 1 0 false
abbrev st0 : StripRegs := stripOf 40 22

/-- A state with a group due. -/
def grouping (cb : CodebookRegs) : State := due (List.replicate 60 0) (.group fr0 st0 cb)

theorem witness_DecodeOfEncode : encode .chunk (.vecDelta 9) = some { bits := [], bytes := [0x31, 0, 0, 9] } := by decide
theorem witness_EncodeOfDecode : decode (.block .delta) [true, true, false] [1, 2, 3, 4, 5] =
    .ok { instr := .bcV4 1 2 3 4, bits := [false], bytes := [5] } := by decide
theorem witness_ChunkIdMatching :
    (∃ i, decodeChunkHeader 0x2700 4 = .ok i) ∧ decodeChunkHeader 0x27FF 4 = .error (.unclearChunkId 0x27FF 4) ∧
    decodeChunkHeader 0x2800 4 = .error (.unknownChunkId 0x2800 4) ∧
    decodeChunkHeader 0x1FFF 4 = .error (.unknownChunkId 0x1FFF 4) := ⟨⟨_, rfl⟩, by decide, by decide, by decide⟩
theorem witness_MaskBitsMsbFirst :
    ∃ (s : State) (pl : Payload) (w : BitVec 32),
      pl.left = 0 ∧ pl.p + 4 ≤ pl.E ∧ s.be32 pl.p = some w ∧ w ≠ 0 ∧ (1 ≤ 1 ∧ 1 ≤ 32) ∧ 1 ≤ 32 ∧ 32 ≤ 32 :=
  ⟨loaded [0x80, 0, 0, 1], payloadOf 0 4 0 0, 0x80000001, by decide +kernel⟩
theorem witness_MaskRefreshInsideCode :
    ∃ (s : State) (pl : Payload) (w : BitVec 32), pl.left = 1 ∧ pl.p + 4 ≤ pl.E ∧ s.be32 pl.p = some w :=
  ⟨loaded [0x80, 0, 0, 1], payloadOf 0 4 0x80000000 1, 0x80000001, by decide +kernel⟩
/-- The last block of the grid. -/
theorem witness_BlockWriteV1 : 316 + 4 ≤ 320 ∧ 236 + 4 ≤ 240 := by decide
theorem witness_BlockWriteV4 : 316 + 4 ≤ 320 ∧ 236 + 4 ≤ 240 := by decide
/-- One pixel too far to the right, and down. -/
theorem witness_BlockWriteOffGridFaults : ¬ (317 + 4 ≤ 320 ∧ 0 + 4 ≤ 240) ∧ ¬ (0 + 4 ≤ 320 ∧ 237 + 4 ≤ 240) := by decide
theorem witness_PowerOnAcceptsInitOnly : State.reset.fsm = .uninit := rfl
theorem witness_FailedIsAbsorbing : ((loaded [0]).fail .invalidData).fsm = .failed := rfl
theorem witness_InitGivesResetValues :
    (0 ≤ ([] : List Byte).length ∧ 2 ≤ ([1, 2] : List Byte).length) ∧ State.reset.fsm.isDecoding = false ∧
    (loaded [0]).fsm.isDecoding = false ∧ (loaded []).fsm.isDecoding = false ∧
    ((loaded [0]).fail .invalidData).fsm.isDecoding = false := ⟨by decide, rfl, rfl, rfl, rfl⟩
theorem witness_HasNextAnswers :
    ((loaded [0]).fsm = .ready ∧ (loaded [0]).Inv) ∧ (loaded []).fsm = .exhausted ∧
    ((loaded [0]).fail .invalidData).fsm = .failed ∧ State.reset.fsm = .uninit :=
  ⟨⟨by decide +kernel, loaded_inv 0 [] []⟩, by decide +kernel, rfl, rfl⟩
/-- A good state in `Exhausted`. -/
theorem witness_HasNextAnswers_exhausted : (loaded []).fsm = .exhausted ∧ (loaded []).Inv := by
  refine ⟨by decide +kernel, State.bind_streamGood State.reset [] 0, Framebuffer.good_empty, ?_⟩
  rw [show (loaded []).fsm = .exhausted from rfl]
  refine ⟨fun i => ?_, rfl⟩
  simp [loaded, State.bind, Slot.Good, Slot.zero, plainCodebook, Entry.zero, Entry.plain, Colour.plain]
theorem witness_FbViewShowsPixels : ((loaded [0]).fsm = .ready ∧ (loaded []).fsm = .exhausted) ∧ 319 < 320 ∧ 239 < 240 := by
  decide +kernel
theorem witness_ViewEndsAtDecodeAndInit :
    (∃ t, exec .decodeFrame (loaded []) = .next t) ∧ (∃ t, exec (.init [] 0) State.reset = .next t) :=
  ⟨(ask_yes (p := fun _ => true) (by decide +kernel)).imp fun _ h => h.1, ⟨_, rfl⟩⟩
theorem witness_DecodeFrameEof : (loaded []).fsm = .exhausted ∧ (loaded []).cursor = (loaded []).length := by decide +kernel
/-- An intra and an inter empty frame, with the spare flag bits set in one. -/
theorem witness_DecodeFrameEmptyFrame :
    let s := loaded [0x01, 0, 0, 10, 1, 0x40, 0, 0xF0, 0, 0]
    let r := loaded [0xFE, 0, 0, 10, 1, 0x40, 0, 0xF0, 0, 0]
    (s.fsm = .ready ∧ s.cursor ≠ s.length ∧ ∃ l, s.bytes s.cursor 10 = some l ∧
      decode .frame [] l = .ok { instr := .frameIntra 0 10 320 240 0, bits := [], bytes := [] }) ∧
    (r.fsm = .ready ∧ r.cursor ≠ r.length ∧ ∃ l, r.bytes r.cursor 10 = some l ∧
      decode .frame [] l = .ok { instr := .frameInter 0x7F 10 320 240 0, bits := [], bytes := [] }) :=
  ⟨⟨by decide +kernel, by decide +kernel, [0x01, 0, 0, 10, 1, 0x40, 0, 0xF0, 0, 0], by decide +kernel, by decide⟩,
    ⟨by decide +kernel, by decide +kernel, [0xFE, 0, 0, 10, 1, 0x40, 0, 0xF0, 0, 0], by decide +kernel, by decide⟩⟩
theorem witness_DecodeFrameIsRecordRun : (loaded [0]).fsm = .ready ∧ (loaded [0]).cursor ≠ (loaded [0]).length := by
  decide +kernel

/-- Sixty bytes with a frame header due: the least and the greatest strip count. -/
theorem witness_FrameHeaderOpensStrips :
    let s := due (List.replicate 60 0) .frame
    s.fsm = .decoding .frame ∧ s.cursor + 10 ≤ s.length ∧ 10 ≤ (60 : BitVec 24).toNat ∧
      s.cursor + (60 : BitVec 24).toNat ≤ s.length ∧ (320 : U16).toNat = 320 ∧ (240 : U16).toNat = 240 ∧
      1 ≤ (1 : U16).toNat ∧ (1 : U16).toNat ≤ 32 ∧ 1 ≤ (32 : U16).toNat ∧ (32 : U16).toNat ≤ 32 := by decide +kernel
/-- A declared length of 10, and of 11. -/
theorem witness_EmptyFrameHeader :
    let s := due (List.replicate 11 0) .frame
    s.fsm = .decoding .frame ∧ s.cursor + 10 ≤ s.length ∧ (10 ≤ (10 : BitVec 24).toNat ∧ s.cursor + (10 : BitVec 24).toNat ≤ s.length) ∧
      (10 ≤ (11 : BitVec 24).toNat ∧ s.cursor + (11 : BitVec 24).toNat ≤ s.length) ∧ (0 : U16).toNat = 0 := by decide +kernel
/-- Each branch in turn, at the edge of its range. -/
theorem witness_FrameHeaderErrors :
    let s := due (List.replicate 9 0) .frame
    let r := due (List.replicate 20 0) .frame
    (s.fsm = .decoding .frame ∧ s.posture = .checked ∧ s.length < s.cursor + 10) ∧
    (r.fsm = .decoding .frame ∧ r.posture = .checked ∧ r.cursor + 10 ≤ r.length) ∧
    (9 : BitVec 24).toNat < 10 ∧ r.length < r.cursor + (21 : BitVec 24).toNat ∧
    (10 ≤ (20 : BitVec 24).toNat ∧ r.cursor + (20 : BitVec 24).toNat ≤ r.length) ∧
    (319 : U16).toNat ≠ 320 ∧ (241 : U16).toNat ≠ 240 ∧ 32 < (33 : U16).toNat ∧
    (∃ t, exec (.frameIntra 0 20 320 240 32) r = .next t ∧ decide (t.fsm = .failed) = false) := by
  refine ⟨by decide +kernel, by decide +kernel, by decide, by decide +kernel, by decide +kernel, by decide, by decide, by decide, ?_⟩
  obtain ⟨t, ht, hp⟩ := ask_yes (o := exec (.frameIntra 0 20 320 240 32) (due (List.replicate 20 0) .frame))
    (p := fun t => !decide (t.fsm = .failed)) (by decide +kernel)
  exact ⟨t, ht, by simpa using hp⟩

/-- A strip due at offset 10 of a 60-byte frame. -/
def stripDue (i : Fin 32) : State :=
  { due (List.replicate 60 0) (.strip (frameOf 60 2 i true)) with
    cursor := 10, slots := (Vector.replicate 32 Slot.zero).set 0 drawSlot }

/-- Strip 0 with absolute coordinates over the whole frame, strip 1 relative to strip 0's y1 = 4 down to 240, with 12
bytes (then closing the frame of 22) and with more. -/
theorem witness_StripHeaderStoresBox :
    let s := stripDue 0
    let r := { stripDue 1 with fsm := .decoding (.strip (frameOf 22 2 1 true)) }
    (s.fsm = .decoding (.strip (frameOf 60 2 0 true)) ∧ s.cursor + (13 : U16).toNat ≤ 0 + 60 ∧ 12 ≤ (13 : U16).toNat ∧
      (0 : U16).toNat % 4 = 0 ∧ (320 : U16).toNat % 4 = 0 ∧ (240 : U16).toNat % 4 = 0 ∧ (0 : U16).toNat < (320 : U16).toNat ∧
      (320 : U16).toNat ≤ 320 ∧ (240 : U16).toNat ≤ 240 ∧ s.cursor + 12 < s.cursor + (13 : U16).toNat) ∧
    (r.fsm = .decoding (.strip (frameOf 22 2 1 true)) ∧ r.cursor + (12 : U16).toNat ≤ 0 + 22 ∧
      r.slots[0].y1 % 4 = 0 ∧ (r.slots[0].y1 + (236 : U16).toNat) % 4 = 0 ∧ r.slots[0].y1 < r.slots[0].y1 + (236 : U16).toNat ∧
      r.slots[0].y1 + (236 : U16).toNat = 240 ∧ 2 ≤ 1 + 1 ∧ r.cursor + (12 : U16).toNat = 0 + 22) := by decide +kernel
/-- Strip 0 of two with 12 bytes closes well: another strip follows. -/
theorem witness_StripHeaderStoresBox_next :
    let st : StripRegs := { S := (stripDue 0).cursor, slen := (12 : U16).toNat, c := (stripDue 0).cursor + 12 }
    ClosesWell (frameOf 60 2 0 true) st ((stripDue 0).cursor + 12) := .inr (.inl (by decide))
/-- Each disjunct alone makes the header fail: (slen, py0, px0, py1, px1) for strip 0 at offset 10 of 60 bytes. -/
theorem witness_StripHeaderErrors :
    let bad : List (U16 × U16 × U16 × U16 × U16) :=
      [(11, 0, 0, 4, 4), (51, 0, 0, 4, 4), (12, 0, 2, 4, 4), (12, 0, 0, 4, 6), (12, 2, 0, 4, 4), (12, 0, 0, 6, 4),
        (12, 0, 4, 4, 4), (12, 4, 0, 4, 4), (12, 0, 0, 4, 324), (12, 0, 0, 244, 4)]
    (stripDue 0).posture = .checked ∧
    bad.all (fun h => ask (exec (.stripIntra h.1 h.2.1 h.2.2.1 h.2.2.2.1 h.2.2.2.2) (stripDue 0)) (fun t => t.err) ==
      some .invalidData) = true ∧
    ask (exec (.stripIntra 12 0 0 4 4) { stripDue 0 with cursor := 49 }) (fun t => t.err) = some .invalidData := by
  decide +kernel

/-- A chunk due at offset 22. -/
def chunkDue : State := { drawing .mixed 0 (payloadOf 0 0 0 0) with fsm := .decoding (.chunk fr0 st0) }

theorem witness_CodebookChunkOpens :
    chunkDue.fsm = .decoding (.chunk fr0 st0) ∧ 5 ≤ (5 : U16).toNat ∧ st0.c + (5 : U16).toNat ≤ st0.S + st0.slen ∧
    st0.c + (28 : U16).toNat = st0.S + st0.slen := by decide +kernel
/-- Another chunk follows; and the strip and the frame end with the empty chunk. -/
theorem witness_EmptyCodebookChunk :
    (chunkDue.fsm = .decoding (.chunk fr0 st0) ∧ (4 : U16).toNat = 4 ∧ st0.c + 4 < st0.S + st0.slen) ∧
    ((stripOf 16 22).c + 4 = (stripOf 16 22).S + (stripOf 16 22).slen ∧
      ClosesWell (frameOf 26 1 0 false) (stripOf 16 22) 26) :=
  ⟨by decide +kernel, by decide, .inr (.inr (by decide))⟩
theorem witness_VectorChunkOpens :
    chunkDue.fsm = .decoding (.chunk fr0 st0) ∧ 4 ≤ (4 : U16).toNat ∧ st0.c + (4 : U16).toNat ≤ st0.S + st0.slen ∧
    chunkDue.slots[0].x0 < chunkDue.slots[0].x1 ∧ chunkDue.slots[0].y0 < chunkDue.slots[0].y1 := by decide +kernel
theorem witness_ChunkLengthErrors :
    chunkDue.fsm = .decoding (.chunk fr0 st0) ∧ chunkDue.posture = .checked ∧ chunkRecords.length = 11 ∧
    (3 : U16).toNat < 4 ∧ st0.S + st0.slen < st0.c + (29 : U16).toNat := by decide +kernel
/-- Strip 0 of two, strip 1 of two at and off the declared end. -/
theorem witness_ChunkLoopEnds :
    (49 < st0.S + st0.slen) ∧ (st0.S + st0.slen ≤ 50 ∧ 0 + 1 < 32 ∧ 0 + 1 < (frameOf 50 2 0 false).nstrips) ∧
    ((frameOf 50 2 1 false).nstrips ≤ 1 + 1 ∧ st0.S + st0.slen = 0 + 50) ∧
    (st0.S + st0.slen ≠ 0 + 51 ∧ chunkDue.posture = .checked) := by decide +kernel

/-- Entry 255 in 8-bit mode, entry 0 in 12-bit mode; the chunk goes on, or ends before another chunk. -/
theorem witness_GroupWritesEntry :
    let cb := codebookOf .v1 false false 255 (payloadOf 26 34 0 0)
    let cb' := codebookOf .v4 true false 0 (payloadOf 26 32 0 0)
    ((grouping cb).fsm = .decoding (.group fr0 st0 cb) ∧ cb.k < 256 ∧ cb.bpp12 = false ∧ cb.pl.p + 4 ≤ cb.pl.E ∧
      GroupEndsWell fr0 st0 cb (cb.pl.p + 4)) ∧
    ((grouping cb').fsm = .decoding (.group fr0 st0 cb') ∧ cb'.k < 256 ∧ cb'.bpp12 = true ∧ cb'.pl.p + 6 ≤ cb'.pl.E ∧
      GroupEndsWell fr0 st0 cb' (cb'.pl.p + 6)) :=
  ⟨⟨rfl, by decide, rfl, by decide, .inl (by decide)⟩,
    ⟨rfl, by decide, rfl, by decide, .inr ⟨(fun h => nomatch h), .inl (by decide)⟩⟩⟩
/-- The last group of a strip and of its frame; the last bit of a selective chunk that ends its strip, which is not the
last. -/
theorem witness_GroupEnds :
    let cb := codebookOf .v1 false false 0 (payloadOf 46 50 0 0)
    let sel := codebookOf .v1 false true 0 (payloadOf 50 50 0 31)
    (cb.pl.p + 4 = cb.pl.E ∧ GroupEndsWell fr0 st0 cb (cb.pl.p + 4)) ∧
    (sel.pl.E ≤ sel.pl.p ∧ GroupEndsWell (frameOf 60 2 0 false) st0 sel sel.pl.p) :=
  ⟨⟨rfl, .inr ⟨(fun h => nomatch h), .inr (.inr (by decide))⟩⟩, by decide, .inr ⟨fun _ => rfl, .inr (.inl (by decide))⟩⟩
theorem witness_GroupSkipKeepsEntry :
    let cb := codebookOf .v1 false true 255 (payloadOf 30 34 0 1)
    (grouping cb).fsm = .decoding (.group fr0 st0 cb) ∧ cb.selective = true ∧ cb.k < 256 ∧ GroupEndsWell fr0 st0 cb cb.pl.p :=
  ⟨rfl, rfl, by decide, .inl (by decide)⟩
theorem witness_GroupErrors :
    let full := codebookOf .v1 false true 256 (payloadOf 26 34 0 0)
    let short := codebookOf .v1 true false 0 (payloadOf 26 31 0 0)
    let owed := codebookOf .v1 false true 0 (payloadOf 30 34 1 31)
    ((grouping full).posture = .checked ∧ 256 ≤ full.k ∧ full.selective = true) ∧ short.pl.E < short.pl.p + 6 ∧
    (owed.pl.p + 4 = owed.pl.E ∧ owed.selective = true ∧ owed.pl.mask ≠ 0) ∧
    (let last := codebookOf .v1 false true 0 (payloadOf 30 30 0x80000000 31)
     last.pl.E ≤ last.pl.p ∧ last.selective = true ∧ last.pl.mask ≠ 0) := by decide +kernel
/-- One group, and 256 groups in a strip that is long enough. -/
theorem witness_FullCodebookChunk :
    let cb := codebookOf .v1 false false 0 (payloadOf 26 30 0 0)
    let cb' := codebookOf .v4 true false 0 (payloadOf 26 1562 0 0)
    let st' := stripOf 1600 22
    let s' := due (List.replicate 1700 0) (.group (frameOf 1700 1 0 false) st' cb')
    ((grouping cb).fsm = .decoding (.group fr0 st0 cb) ∧ cb.selective = false ∧ cb.k = 0 ∧ cb.pl.p + 1 * 4 = cb.pl.E ∧
      cb.pl.E ≤ (grouping cb).length ∧ ClosesWell fr0 st0 cb.pl.E) ∧
    (s'.fsm = .decoding (.group (frameOf 1700 1 0 false) st' cb') ∧ cb'.selective = false ∧ cb'.k = 0 ∧
      cb'.pl.p + 256 * 6 = cb'.pl.E ∧ cb'.pl.E ≤ s'.length ∧ ClosesWell (frameOf 1700 1 0 false) st' cb'.pl.E) :=
  ⟨⟨rfl, rfl, rfl, rfl, by decide +kernel, .inl (by decide)⟩, rfl, rfl, rfl, rfl, by decide +kernel, .inl (by decide)⟩
/-- A full chunk that is the last of its strip and of its frame, and one that is the last of a strip before another. -/
theorem witness_FullCodebookChunk_last :
    let cb := codebookOf .v1 false false 0 (payloadOf 42 50 0 0)
    cb.pl.p + 2 * 4 = cb.pl.E ∧ cb.pl.E = st0.S + st0.slen ∧ ClosesWell fr0 st0 cb.pl.E ∧
      ClosesWell (frameOf 60 2 0 false) st0 cb.pl.E :=
  ⟨rfl, rfl, .inr (.inr (by decide)), .inr (.inl (by decide))⟩

/-- The first block of the box is not its last one: the walk goes on, for every kind of chunk. -/
theorem drawing_more (kind : VecKind) (pl : Payload) (n : Nat) :
    (drawing kind 0 pl).BlockEndsWell fr0 st0 (vectorOf kind 0 0 pl) n := by
  simp [State.BlockEndsWell, Slot.lastBlock, drawing, drawSlot, Slot.zero, frameOf, vectorOf]

/-- The second block is the last one: with the payload used up another chunk follows. -/
theorem drawing_last (kind : VecKind) (pl : Payload) :
    (drawing kind 4 pl).BlockEndsWell fr0 st0 (vectorOf kind 4 0 pl) pl.E := by
  simp [State.BlockEndsWell, ClosesWell, Slot.lastBlock, drawing, drawSlot, Slot.zero, frameOf, stripOf, vectorOf]

/-- Block 0 of two, with more to come; block 1, the last, with the payload used up and another chunk to follow. -/
theorem witness_V1BlockDraws :
    let pl := payloadOf 26 28 0 0
    let last := payloadOf 27 28 0 0
    (∀ kind : VecKind, (drawing kind 0 pl).fsm = .decoding (.block fr0 st0 (vectorOf kind 0 0 pl)) ∧
      (drawing kind 0 pl).BlockEndsWell fr0 st0 (vectorOf kind 0 0 pl) (pl.p + 1) ∧
      (drawing kind 4 last).BlockEndsWell fr0 st0 (vectorOf kind 4 0 last) (last.p + 1)) ∧
    (drawing .mixed 0 pl).slots[0].w1[(0 : Byte).toNat] = true ∧ pl.p + 1 ≤ pl.E ∧ 0 + 4 ≤ 320 ∧ 0 + 4 ≤ 240 := by
  exact ⟨fun kind => ⟨rfl, drawing_more kind _ _, drawing_last kind _⟩,
    by decide +kernel, by decide, by decide, by decide⟩
theorem witness_V4BlockDraws :
    let pl := payloadOf 26 34 0 0
    let last := payloadOf 30 34 0 0
    (∀ kind : VecKind, (drawing kind 0 pl).fsm = .decoding (.block fr0 st0 (vectorOf kind 0 0 pl)) ∧
      (drawing kind 0 pl).BlockEndsWell fr0 st0 (vectorOf kind 0 0 pl) (pl.p + 4) ∧
      (drawing kind 4 last).BlockEndsWell fr0 st0 (vectorOf kind 4 0 last) (last.p + 4)) ∧
    (drawing .mixed 0 pl).slots[0].w4[(0 : Byte).toNat] = true ∧ (drawing .mixed 0 pl).slots[0].w4[(1 : Byte).toNat] = true ∧
    pl.p + 4 ≤ pl.E := by
  exact ⟨fun kind => ⟨rfl, drawing_more kind _ _, drawing_last kind _⟩,
    by decide +kernel, by decide +kernel, by decide⟩
theorem witness_SkipBlockKeepsPixels :
    let pl := payloadOf 30 30 0 30
    (drawing .delta 4 pl).fsm = .decoding (.block fr0 st0 (vectorOf .delta 4 0 pl)) ∧
    (drawing .delta 4 pl).BlockEndsWell fr0 st0 (vectorOf .delta 4 0 pl) pl.p :=
  ⟨rfl, .inr ⟨⟨by decide +kernel, by decide +kernel⟩, rfl, .inl (by decide)⟩⟩
theorem witness_UnwrittenEntryFails :
    (drawing .uniform 0 (payloadOf 26 34 0 0)).posture = .checked ∧
    (drawing .uniform 0 (payloadOf 26 34 0 0)).slots[0].w1[(1 : Byte).toNat] = false ∧
    (drawing .mixed 0 (payloadOf 26 34 0 0)).slots[0].w4[(255 : Byte).toNat] = false := by decide +kernel

/-- The same states in the unchecked posture. -/
def trusting (kind : VecKind) (bx : Nat) (pl : Payload) : State := { drawing kind bx pl with posture := .unchecked }

theorem trusting_more (kind : VecKind) (pl : Payload) (n : Nat) :
    (trusting kind 0 pl).BlockEndsWell fr0 st0 (vectorOf kind 0 0 pl) n := by
  simp [State.BlockEndsWell, Slot.lastBlock, trusting, drawing, drawSlot, Slot.zero, frameOf, vectorOf]

/-- The last block, with the payload used up and another chunk to follow. -/
theorem trusting_last (kind : VecKind) (pl : Payload) :
    (trusting kind 4 pl).BlockEndsWell fr0 st0 (vectorOf kind 4 0 pl) pl.E := by
  simp [State.BlockEndsWell, ClosesWell, Slot.lastBlock, trusting, drawing, drawSlot, Slot.zero, frameOf, stripOf, vectorOf]

theorem witness_UnwrittenEntryUnchecked :
    let pl := payloadOf 26 34 0 0
    (∀ kind : VecKind, (trusting kind 0 pl).fsm = .decoding (.block fr0 st0 (vectorOf kind 0 0 pl)) ∧
      (trusting kind 0 pl).BlockEndsWell fr0 st0 (vectorOf kind 0 0 pl) (pl.p + 1)) ∧
    (trusting .uniform 0 pl).posture = .unchecked ∧ pl.p + 1 ≤ pl.E ∧
    (trusting .uniform 0 pl).slots[0].w1[(1 : Byte).toNat] = false := by
  exact ⟨fun kind => ⟨rfl, trusting_more kind _ _⟩, rfl, by decide, by decide +kernel⟩
theorem witness_UnwrittenEntriesUncheckedV4 :
    let pl := payloadOf 26 34 0 0
    (∀ kind : VecKind, (trusting kind 0 pl).fsm = .decoding (.block fr0 st0 (vectorOf kind 0 0 pl)) ∧
      (trusting kind 0 pl).BlockEndsWell fr0 st0 (vectorOf kind 0 0 pl) (pl.p + 4)) ∧
    (trusting .mixed 0 pl).posture = .unchecked ∧ pl.p + 4 ≤ pl.E ∧
    (trusting .mixed 0 pl).slots[0].w4[(0 : Byte).toNat] = true ∧
    (trusting .mixed 0 pl).slots[0].w4[(9 : Byte).toNat] = false := by
  exact ⟨fun kind => ⟨rfl, trusting_more kind _ _⟩, rfl, by decide, by decide +kernel, by decide +kernel⟩
theorem witness_BlockPayloadErrors :
    let none_ := payloadOf 28 28 0 0
    let three := payloadOf 25 28 0 0
    (drawing .mixed 0 none_).posture = .checked ∧ none_.E < none_.p + 1 ∧ three.E < three.p + 4 ∧
    ((drawing .delta 4 three).slots[0].lastBlock 4 0 ∧ three.p ≠ three.E) ∧
    (∀ kind : VecKind, (drawing kind 4 three).slots[0].lastBlock 4 0) ∧
    (three.p + 1 ≠ three.E ∧ three.p + 4 ≠ three.E ∧ 4 + 4 ≤ 320 ∧ 0 + 4 ≤ 240) :=
  ⟨rfl, by decide, by decide, ⟨⟨by decide +kernel, by decide +kernel⟩, by decide⟩,
    fun _ => by simp [Slot.lastBlock, drawing, drawSlot], by decide⟩
/-- A byte left after the last V4 block. -/
theorem witness_BlockPayloadErrors_leftover :
    ask (exec (.bcV4 0 0 0 0) (drawing .delta 4 (payloadOf 28 33 0 0))) (fun t => t.err) = some .invalidData ∧
    ask (exec (.bcV4 0 0 0 0) (drawing .delta 4 (payloadOf 28 32 0 0))) (fun t => t.err) = some .ok := by decide +kernel
/-- A valid view with its first and last pixel, and an address past the image. -/
theorem witness_OpenParametersRead :
    ({ loaded [0] with viewValid := true } : State).viewValid = true ∧ (0 < 320 ∧ 0 < 240) ∧ (319 < 320 ∧ 239 < 240) ∧
    2 * (239 * 320 + 319) + 1 < 153600 ∧ 153600 ≤ 2 * (240 * 320) ∧
    .err (loaded [0]).err ∈ (loaded [0]).statusAt (Config.regMap .err) :=
  ⟨rfl, by decide, by decide, by decide, by decide, List.mem_filterMap.mpr ⟨.err, mem_registersAt.mpr rfl, rfl⟩⟩

/-- A stream with a frame header, a strip header, a chunk header, a mask word and groups at their places. -/
def nested : List Byte :=
  [1, 0, 0, 60, 1, 0x40, 0, 0xF0, 0, 1, 0x10, 0, 0, 50, 0, 0, 0, 0, 0, 4, 0, 8, 0x27, 0, 0, 16,
    0x80, 0, 0, 0, 1, 2, 3, 4, 5, 6, 7, 8, 0, 0, 0, 0, 0, 0, 0, 0, 0, 0, 0, 0, 0, 0, 0, 0, 0, 0, 0, 0, 0, 0]

/-- Clause by clause: what is due, the bytes that are due, and the record they decode to. -/
theorem witness_StepRunsDecodedRecord :
    (let s := due nested .frame
     s.bytes s.cursor 10 = some (nested.take 10) ∧ decode .frame [] (nested.take 10) = decoded (.frameIntra 0 60 320 240 1)) ∧
    (let s := { due nested (.strip (frameOf 60 1 0 false)) with cursor := 10 }
     s.cursor + 12 ≤ 0 + 60 ∧ s.bytes s.cursor 12 = some ((nested.drop 10).take 12) ∧
       decode .strip [] ((nested.drop 10).take 12) = decoded (.stripIntra 50 0 0 4 8)) ∧
    (let s := due nested (.chunk fr0 st0)
     st0.c + 4 ≤ st0.S + st0.slen ∧ s.bytes st0.c 4 = some [0x27, 0, 0, 16] ∧
       decode .chunk [] [0x27, 0, 0, 16] = decoded (.cbV18Sel 16)) ∧
    (let cb := codebookOf .v1 false false 255 (payloadOf 30 34 0 0)
     let s := due nested (.group fr0 st0 cb)
     cb.k < 256 ∧ cb.selective = false ∧ cb.pl.p + cb.groupBytes ≤ cb.pl.E ∧
       s.bytes cb.pl.p cb.groupBytes = some [1, 2, 3, 4] ∧ decode cb.level [] [1, 2, 3, 4] = decoded (.g8 1 2 3 4)) ∧
    (let cb := codebookOf .v1 false true 0 (payloadOf 26 38 0 0)
     let s := due nested (.group fr0 st0 cb)
     cb.k < 256 ∧ cb.selective = true ∧ cb.pl.p < cb.pl.E ∧ s.nextBit cb.pl = .bit true (payloadOf 30 38 0 31) ∧
       30 + cb.groupBytes ≤ 38 ∧ s.bytes 30 cb.groupBytes = some [1, 2, 3, 4] ∧
       decode cb.level [true] [1, 2, 3, 4] = decoded (.g8 1 2 3 4)) ∧
    (let vp := vectorOf .delta 0 0 (payloadOf 26 38 0 0)
     let s := due nested (.block fr0 st0 vp)
     s.takeBits 2 vp.pl = some ([true, false], payloadOf 30 38 0 30) ∧ 30 + indexBytes vp.kind [true, false] ≤ 38 ∧
       s.bytes 30 (indexBytes vp.kind [true, false]) = some [1] ∧
       decode (.block vp.kind) [true, false] [1] = decoded (.bcV1 1)) := by decide +kernel
/-- The masked group whose bit is 0. -/
theorem witness_StepRunsDecodedRecord_gskip :
    let cb := codebookOf .v1 false true 1 (payloadOf 30 38 0x10000000 31)
    let s := due nested (.group fr0 st0 cb)
    s.nextBit cb.pl = .bit false (payloadOf 30 38 0x20000000 30) ∧ s.bytes 30 0 = some [] ∧
      decode cb.level [false] [] = decoded .gskip := by decide +kernel

/-- Clause by clause: what is missing where. -/
theorem witness_FetchErrors :
    (due [1] .frame).posture = .checked ∧
    (due (nested.take 9) .frame).length < (due (nested.take 9) .frame).cursor + 10 ∧
    0 + (frameOf 21 1 0 false).flen < 10 + 12 ∧
    (due ([0x12, 0] ++ List.replicate 20 0) (.strip (frameOf 22 1 0 false))).bytes 0 12 = some (0x12 :: 0 :: List.replicate 10 0) ∧
    10 + (stripOf 15 22).slen < 22 + 4 ∧
    ((due [0x28, 0, 0, 4] (.chunk fr0 st0)).bytes 0 4 = some [0x28, 0, 0, 4] ∧
      (0x28 : Byte).toNat ∉ [0x20, 0x21, 0x22, 0x23, 0x24, 0x25, 0x26, 0x27, 0x30, 0x31, 0x32]) ∧
    (256 ≤ (codebookOf .v1 false false 256 (payloadOf 26 30 0 0)).k) ∧
    ((payloadOf 26 29 0 0).p < (payloadOf 26 29 0 0).E ∧ (payloadOf 26 29 0 0).E < (payloadOf 26 29 0 0).p + 4) ∧
    (payloadOf 26 31 0 0).E < (payloadOf 26 31 0 0).p + (codebookOf .v1 true false 0 (payloadOf 26 31 0 0)).groupBytes ∧
    (let s := due nested (.group fr0 st0 (codebookOf .v1 false true 0 (payloadOf 26 33 0 0)))
     s.nextBit (payloadOf 26 33 0 0) = .bit true (payloadOf 30 33 0 31) ∧ 33 < 30 + 4) ∧
    ((payloadOf 26 29 0x80000000 1).mask.msb = true ∧ (payloadOf 26 29 0x80000000 1).left = 1) ∧
    (let s := drawing .delta 0 (payloadOf 28 28 0xC0000000 2)
     s.takeBits 2 (payloadOf 28 28 0xC0000000 2) = some ([true, true], payloadOf 28 28 0 0) ∧
       28 < 28 + indexBytes .delta [true, true]) := by decide +kernel
/-- Contained (4 bytes to the strip's end), and one byte too long. -/
theorem witness_UnclearChunkIdRefused :
    let s := due (List.replicate 22 0 ++ [0x20, 1, 0, 28] ++ List.replicate 34 0) (.chunk fr0 st0)
    s.bytes st0.c 4 = some [0x20, 1, 0, 28] ∧ (0x20 : Byte).toNat ∈ [0x20] ∧ (1 : Byte) ≠ 0 ∧
      st0.c + (0 * 256 + 28) ≤ st0.S + st0.slen ∧ ¬ st0.c + (0 * 256 + 29) ≤ st0.S + st0.slen ∧ s.posture = .checked := by
  decide +kernel
theorem witness_StepIssuesHostCommand : State.reset.fsm.isDecoding = false ∧ State.reset.cmds = [] ∧
    { State.reset with cmds := [.init [] 0, .hasNext] }.cmds = .init [] 0 :: [.hasNext] ∧
    ({ State.reset with fsm := .decoding .frame } : State).fsm.isDecoding = true := by decide

theorem witness_OnlyInitBindsStream :
    (∃ t, exec .fbView (loaded [0]) = .next t) ∧ (∀ stream n, Instr.fbView ≠ .init stream n) :=
  ⟨⟨_, rfl⟩, fun _ _ => by simp⟩
/-- An instruction that writes no pixel, with a next state that has not failed. -/
theorem witness_PixelsWrittenByBlocksOnly :
    Instr.writesPixels .gskip = false ∧
    ∃ t, exec .gskip (grouping (codebookOf .v1 false true 0 (payloadOf 30 34 0 31))) = .next t ∧
      decide (t.fsm ≠ .failed) = true :=
  ⟨rfl, ask_yes (by decide +kernel)⟩
theorem witness_SlotsWrittenByStripsAndGroupsOnly :
    Instr.writesSlots (.buV1 0) = false ∧
    ∃ t, exec (.buV1 0) (drawing .uniform 0 (payloadOf 26 28 0 0)) = .next t ∧ decide (t.fsm ≠ .failed) = true :=
  ⟨rfl, ask_yes (by decide +kernel)⟩
theorem witness_InternalNeverRaised :
    (∃ t, exec .hasNext { loaded [0] with err := .internal } = .next t ∧ decide (t.err = .internal) = true) ∧
    ∃ t, exec (.bwV1 0 0 greys) { loaded [0] with reply := .status .internal } = .next t ∧
      decide (t.reply = .status .internal) = true :=
  ⟨ask_yes (by decide +kernel), ask_yes (by decide +kernel)⟩
theorem witness_StepKeepsInvariant : ∃ t, (loaded [0]).Inv ∧ step (loaded [0]) = .next t :=
  ⟨_, loaded_inv 0 [] [], rfl⟩
theorem witness_StepNeverFaults : (loaded [0]).Inv := loaded_inv 0 [] []
/-- A checked step that is refused: DECODE_FRAME on a stream that begins with a zero-strip frame of declared length 11. -/
theorem witness_CheckedStepRefusals :
    ∃ s : State, s.Inv ∧ s.posture = .checked ∧ step s = .refused .zeroStripFrame :=
  ⟨{ loaded [1, 0, 0, 11, 1, 0x40, 0, 0xF0, 0, 0, 0] with cmds := [.decodeFrame] }, loaded_inv 1 _ _, rfl,
    refusal_some (by decide +kernel)⟩
/-- A frame with a strip and a codebook chunk, decoded in the checked posture. -/
theorem witness_PosturesAgreeOnValidFrames :
    (loaded e12).posture = .checked ∧ ∃ t, exec .decodeFrame (loaded e12) = .next t ∧ decide (t.err = .ok) = true :=
  ⟨rfl, ask_yes (by decide +kernel)⟩
theorem witness_UncheckedReturnsOkOrEof :
    ∃ t, exec .decodeFrame { loaded e12 with posture := .unchecked } = .next t ∧ decide (t.err = .ok) = true :=
  ask_yes (by decide +kernel)
theorem witness_FrameConsumesDeclaredLength :
    (loaded e12).cursor ≠ (loaded e12).length ∧
    ∃ t, exec .decodeFrame (loaded e12) = .next t ∧ decide (t.err = .ok ∧ t.cursor = 34) = true :=
  ⟨by decide +kernel, ask_yes (by decide +kernel)⟩
theorem witness_UnusedSlotsKept :
    ((loaded e12).cursor ≠ (loaded e12).length ∧ (loaded e12).bytes 0 10 = some (e12.take 10) ∧
      decode .frame [] (e12.take 10) = decoded (.frameIntra 0 34 320 240 1) ∧ (1 : U16).toNat ≤ (1 : Fin 32).val) ∧
    ∃ t, exec .decodeFrame (loaded e12) = .next t ∧ decide (t.err = .ok) = true :=
  ⟨by decide +kernel, ask_yes (by decide +kernel)⟩

end Sys2Proof.Tests
end

/-!
PROOFS. Every answer of a stream record keeps the context: posture, rounding, stream, length, view and the host's queue.
DECODE_FRAME iterates records, so of all instructions only INIT binds a stream (R8, R33, R87).
-/

namespace Sys2Proof.Machine

/-! ## The relation -/

theorem State.SameContext.refl (s : State) : s.SameContext s := ⟨rfl, rfl, rfl, rfl, rfl, rfl⟩

theorem State.SameContext.trans {s t u : State} (hst : s.SameContext t) (htu : t.SameContext u) : s.SameContext u := by
  obtain ⟨hp, hc, hs, hl, hv, hq⟩ := hst
  obtain ⟨hp', hc', hs', hl', hv', hq'⟩ := htu
  exact ⟨hp'.trans hp, hc'.trans hc, hs'.trans hs, hl'.trans hl, hv'.trans hv, hq'.trans hq⟩

/-- Taking an error keeps the context (R268, R269). -/
theorem State.sameContext_fail (s : State) (k : ErrKind) : s.SameContext (s.fail k) := ⟨rfl, rfl, rfl, rfl, rfl, rfl⟩

theorem State.sameContext_setSlot (s : State) (i : Fin 32) (sl : Slot) : s.SameContext (s.setSlot i sl) :=
  ⟨rfl, rfl, rfl, rfl, rfl, rfl⟩

theorem State.failCheck_sameContext {s t : State} {k : ErrKind} (h : s.failCheck k = .next t) : s.SameContext t := by
  obtain ⟨_, rfl⟩ := State.failCheck_next.mp h
  exact s.sameContext_fail k

/-- A check in front of an operation that keeps the context. -/
theorem State.checked_sameContext {s t : State} {c : Prop} [Decidable c] {k : ErrKind} {o : Outcome}
    (h : (if ¬ c then s.failCheck k else o) = .next t) (ho : o = .next t → s.SameContext t) : s.SameContext t := by
  by_cases hc : c
  · exact ho (by simpa [hc] using h)
  · exact State.failCheck_sameContext (by simpa [hc] using h)

/-! ## What follows a record -/

theorem ChunkNext.sameContext {s t : State} {fr : FrameRegs} {st : StripRegs} {c : Nat} (h : ChunkNext s fr st c t) :
    s.SameContext t := by
  cases h <;> exact ⟨rfl, rfl, rfl, rfl, rfl, rfl⟩

theorem State.codebookLoop_sameContext {s t : State} {fr : FrameRegs} {st : StripRegs} {cb : CodebookRegs}
    (h : s.codebookLoop fr st cb = .next t) : s.SameContext t := by
  rcases State.codebookLoop_next h with ⟨_, rfl⟩ | ⟨_, _, _, _, rfl⟩ | ⟨_, _, hc⟩
  · exact ⟨rfl, rfl, rfl, rfl, rfl, rfl⟩
  · exact s.sameContext_fail _
  · exact hc.sameContext

theorem State.blockLoop_sameContext {s t : State} {fr : FrameRegs} {st : StripRegs} {vp : VectorRegs}
    (h : s.blockLoop fr st vp = .next t) : s.SameContext t := by
  rcases State.blockLoop_next h with ⟨_, _, rfl⟩ | ⟨_, hc⟩ | ⟨_, _, rfl⟩
  · exact ⟨rfl, rfl, rfl, rfl, rfl, rfl⟩
  · exact hc.sameContext
  · exact s.sameContext_fail _

/-! ## Headers -/

theorem State.frameHeader_sameContext {s t : State} {inter : Bool} {flen : BitVec 24} {width height nstrips : U16}
    (h : s.frameHeader inter flen width height nstrips = .next t) : s.SameContext t := by
  unfold State.frameHeader at h
  split at h
  · refine State.checked_sameContext h fun h => State.checked_sameContext h fun h => State.checked_sameContext h fun h =>
      State.checked_sameContext h fun h => ?_
    split_ifs at h <;> cases h <;> exact ⟨rfl, rfl, rfl, rfl, rfl, rfl⟩
  · cases h

theorem State.stripHeader_sameContext {s t : State} {slen py0 px0 py1 px1 : U16}
    (h : s.stripHeader slen py0 px0 py1 px1 = .next t) : s.SameContext t := by
  unfold State.stripHeader at h
  split at h
  · rename_i fr _
    refine State.checked_sameContext h fun h => State.checked_sameContext h fun h => State.checked_sameContext h fun h =>
      State.checked_sameContext h fun h => State.checked_sameContext h fun h => ?_
    exact (s.sameContext_setSlot fr.i _).trans (State.chunkLoop_next h).sameContext
  · cases h

theorem State.openChunk_sameContext {s t : State} {clen : U16} {body : FrameRegs → StripRegs → Payload → Outcome}
    (hbody : ∀ fr st pl, body fr st pl = .next t → s.SameContext t) (h : s.openChunk clen body = .next t) :
    s.SameContext t := by
  unfold State.openChunk at h
  split at h
  · exact State.checked_sameContext h fun h => State.checked_sameContext h fun h => hbody _ _ _ h
  · cases h

theorem State.openCodebook_sameContext {s t : State} {target : Target} {bpp12 selective : Bool} {clen : U16}
    (h : s.openCodebook target bpp12 selective clen = .next t) : s.SameContext t :=
  State.openChunk_sameContext (fun _ _ _ h => State.codebookLoop_sameContext h) h

theorem State.openVector_sameContext {s t : State} {kind : VecKind} {clen : U16} (h : s.openVector kind clen = .next t) :
    s.SameContext t :=
  State.openChunk_sameContext (fun _ _ _ h => State.blockLoop_sameContext h) h

/-! ## Groups -/

theorem State.decodeGroup_sameContext {s t : State} {fr : FrameRegs} {st : StripRegs} {cb : CodebookRegs} {n : Nat}
    {e : Entry} (h : s.decodeGroup fr st cb n e = .next t) : s.SameContext t := by
  unfold State.decodeGroup at h
  split at h
  · exact State.checked_sameContext h fun h => (s.sameContext_setSlot fr.i _).trans (State.codebookLoop_sameContext h)
  · exact State.failCheck_sameContext h

theorem execG8_sameContext {y0 y1 y2 y3 : Byte} {s t : State} (h : execG8 y0 y1 y2 y3 s = .next t) : s.SameContext t := by
  unfold execG8 at h
  split at h
  · split at h
    · cases h
    · exact State.decodeGroup_sameContext h
  · cases h

theorem execG12_sameContext {y0 y1 y2 y3 u v : Byte} {s t : State} (h : execG12 y0 y1 y2 y3 u v s = .next t) :
    s.SameContext t := by
  unfold execG12 at h
  split at h
  · split at h
    · cases h
    · exact State.decodeGroup_sameContext h
  · cases h

theorem execGskip_sameContext {s t : State} (h : execGskip s = .next t) : s.SameContext t := by
  unfold execGskip at h
  split at h
  · split at h
    · cases h
    · exact State.checked_sameContext h State.codebookLoop_sameContext
  · cases h

/-! ## Block codes -/

theorem State.writeBlock_sameContext {s t : State} {x y : Nat} {colour : Nat → Nat → Colour}
    (h : s.writeBlock x y colour = some t) : s.SameContext t := by
  obtain ⟨_, _, rfl⟩ := State.writeBlock_some h
  exact ⟨rfl, rfl, rfl, rfl, rfl, rfl⟩

theorem State.blockWrite_sameContext {s t : State} {x y : Nat} {colour : Nat → Nat → Colour}
    (h : s.blockWrite x y colour = .next t) : s.SameContext t := by
  unfold State.blockWrite at h
  split at h
  · rename_i u hu; cases h; exact State.writeBlock_sameContext hu
  · cases h

theorem State.drawBlock_sameContext {s t : State} {fr : FrameRegs} {st : StripRegs} {vp : VectorRegs} {n : Nat}
    {colour : Nat → Nat → Colour} (h : s.drawBlock fr st vp n colour = .next t) : s.SameContext t := by
  unfold State.drawBlock at h
  split at h
  · rename_i u hu; exact (State.writeBlock_sameContext hu).trans (State.blockLoop_sameContext h)
  · cases h

theorem State.lookup_sameContext {s t : State} {i : Fin 32} {g : Target} {idx : Byte} {e : Entry}
    (h : s.lookup i g idx = some (e, t)) : s.SameContext t := by
  rcases State.lookup_some h with ⟨_, _, rfl⟩ | ⟨_, _, _, rfl⟩ <;> exact ⟨rfl, rfl, rfl, rfl, rfl, rfl⟩

/-- Four entries that are read were read one after the other (R186). -/
theorem State.lookup4_some {s t : State} {i : Fin 32} {i0 i1 i2 i3 : Byte} {e0 e1 e2 e3 : Entry}
    (h : s.lookup4 i i0 i1 i2 i3 = some (e0, e1, e2, e3, t)) :
    ∃ s0 s1 s2, s.lookup i .v4 i0 = some (e0, s0) ∧ s0.lookup i .v4 i1 = some (e1, s1) ∧
      s1.lookup i .v4 i2 = some (e2, s2) ∧ s2.lookup i .v4 i3 = some (e3, t) := by
  unfold State.lookup4 at h
  split at h
  · cases h
  rename_i s0 h0
  split at h
  · cases h
  rename_i s1 h1
  split at h
  · cases h
  rename_i s2 h2
  split at h
  · cases h
  rename_i h3
  cases h
  exact ⟨s0, s1, s2, h0, h1, h2, h3⟩

theorem State.lookup4_sameContext {s t : State} {i : Fin 32} {i0 i1 i2 i3 : Byte} {e0 e1 e2 e3 : Entry}
    (h : s.lookup4 i i0 i1 i2 i3 = some (e0, e1, e2, e3, t)) : s.SameContext t := by
  obtain ⟨s0, s1, s2, h0, h1, h2, h3⟩ := State.lookup4_some h
  exact (State.lookup_sameContext h0).trans <| (State.lookup_sameContext h1).trans <|
    (State.lookup_sameContext h2).trans (State.lookup_sameContext h3)

theorem State.placeV1_sameContext {s t : State} {fr : FrameRegs} {st : StripRegs} {vp : VectorRegs} {i0 : Byte}
    (h : s.placeV1 fr st vp i0 = .next t) : s.SameContext t := by
  refine State.checked_sameContext h fun h => ?_
  split at h
  · rename_i u hu; exact (State.lookup_sameContext hu).trans (State.drawBlock_sameContext h)
  · exact State.failCheck_sameContext h

theorem State.placeV4_sameContext {s t : State} {fr : FrameRegs} {st : StripRegs} {vp : VectorRegs} {i0 i1 i2 i3 : Byte}
    (h : s.placeV4 fr st vp i0 i1 i2 i3 = .next t) : s.SameContext t := by
  refine State.checked_sameContext h fun h => ?_
  split at h
  · rename_i u hu; exact (State.lookup4_sameContext hu).trans (State.drawBlock_sameContext h)
  · exact State.failCheck_sameContext h

theorem State.inBlock_sameContext {s t : State} {kind : VecKind} {body : FrameRegs → StripRegs → VectorRegs → Outcome}
    (hbody : ∀ fr st vp, body fr st vp = .next t → s.SameContext t) (h : s.inBlock kind body = .next t) :
    s.SameContext t := by
  unfold State.inBlock at h
  split at h
  · split at h
    · exact hbody _ _ _ h
    · cases h
  · cases h

/-! ## Records and frames -/

/-- Whatever next state a stream record answers, also a failed one, the context is as before. -/
theorem runRecord_sameContext {i : Instr} {s t : State} (h : runRecord i s = .next t) : s.SameContext t := by
  cases i with
  | frameIntra | frameInter => exact State.frameHeader_sameContext h
  | stripIntra | stripInter => exact State.stripHeader_sameContext h
  | cbV412Full | cbV412Sel | cbV112Full | cbV112Sel | cbV48Full | cbV48Sel | cbV18Full | cbV18Sel =>
    exact State.openCodebook_sameContext h
  | vecMixed | vecDelta | vecUniform => exact State.openVector_sameContext h
  | g8 => exact execG8_sameContext h
  | g12 => exact execG12_sameContext h
  | gskip => exact execGskip_sameContext h
  | buV1 | bmV1 | bcV1 => exact State.inBlock_sameContext (fun _ _ _ h => State.placeV1_sameContext h) h
  | bmV4 | bcV4 => exact State.inBlock_sameContext (fun _ _ _ h => State.placeV4_sameContext h) h
  | bcSkip => exact State.inBlock_sameContext (fun _ _ _ h => State.blockLoop_sameContext h) h
  | ct | bwV1 | bwV4 | init | hasNext | decodeFrame | fbView => cases h

/-- Fetching moves the payload registers alone. -/
theorem Fetches.sameContext {s t : State} {due : Due} {i : Instr} (h : Fetches s due i t) : s.SameContext t := by
  cases h <;> exact ⟨rfl, rfl, rfl, rfl, rfl, rfl⟩

/-! ## Fetches that answer without a record -/

theorem State.reject_next {s t : State} {r : Reject} (h : s.reject r = .next t) :
    s.posture = .checked ∧ t = s.fail .invalidData := by
  unfold State.reject at h
  split at h
  · split at h
    · split at h
      · cases h
      · exact State.failCheck_next.mp h
    · cases h
  all_goals exact State.failCheck_next.mp h

theorem State.fetchWithin_halt_next {s t : State} {level : Level} {bits : List Bool} {a n limit : Nat}
    (h : s.fetchWithin level bits a n limit = .halt (.next t)) : s.posture = .checked ∧ t = s.fail .invalidData := by
  unfold State.fetchWithin State.fetchAt at h
  split at h
  · split at h
    · cases h
    · split at h
      · cases h
      · exact State.reject_next (Fetched.halt.inj h)
  · exact State.failCheck_next.mp (Fetched.halt.inj h)

theorem State.noBit_halt_next {s t : State} {offset : Option Nat} (h : s.noBit offset = .halt (.next t)) :
    s.posture = .checked ∧ t = s.fail .invalidData := by
  unfold State.noBit at h
  split at h
  · cases h
  · exact State.failCheck_next.mp (Fetched.halt.inj h)

theorem State.fetchIndices_halt_next {s t : State} {fr : FrameRegs} {st : StripRegs} {vp : VectorRegs} {bits : List Bool}
    {pl : Payload} (h : s.fetchIndices fr st vp bits pl = .halt (.next t)) :
    s.posture = .checked ∧ t = s.fail .invalidData :=
  State.fetchWithin_halt_next (s := { s with fsm := .decoding (.block fr st { vp with pl := pl }) }) h

theorem State.fetchBlock_halt_next {s t : State} {fr : FrameRegs} {st : StripRegs} {vp : VectorRegs}
    (h : s.fetchBlock fr st vp = .halt (.next t)) : s.posture = .checked ∧ t = s.fail .invalidData := by
  unfold State.fetchBlock at h
  split at h
  · exact State.fetchIndices_halt_next h
  · split at h
    · exact State.fetchIndices_halt_next h
    · exact State.noBit_halt_next h
    · exact State.noBit_halt_next h
  · split at h
    · exact State.fetchIndices_halt_next h
    · split at h
      · exact State.fetchIndices_halt_next h
      · exact State.noBit_halt_next h
      · exact State.noBit_halt_next h
    · exact State.noBit_halt_next h
    · exact State.noBit_halt_next h

theorem State.fetchGroup_halt_next {s t : State} {fr : FrameRegs} {st : StripRegs} {cb : CodebookRegs}
    (h : s.fetchGroup fr st cb = .halt (.next t)) :
    (s.posture = .checked ∧ t = s.fail .invalidData) ∨ (cb.pl.E ≤ cb.pl.p ∧ s.codebookLoop fr st cb = .next t) := by
  unfold State.fetchGroup at h
  split at h
  · rename_i hp; exact .inr ⟨Nat.le_of_not_lt hp, Fetched.halt.inj h⟩
  refine .inl ?_
  split at h
  · exact State.failCheck_next.mp (Fetched.halt.inj h)
  split at h
  · split at h
    · rename_i pl _
      exact State.fetchWithin_halt_next (s := { s with fsm := .decoding (.group fr st { cb with pl := pl }) }) h
    · exact State.noBit_halt_next h
    · exact State.noBit_halt_next h
  · exact State.fetchWithin_halt_next h

/-- A fetch that answers a next state without a record has taken an error, or has closed a codebook chunk whose payload
is used up. -/
theorem State.fetch_halt_next {s t : State} {due : Due} (h : s.fetch due = .halt (.next t)) :
    (s.posture = .checked ∧ t = s.fail .invalidData) ∨
    ∃ fr st cb, due = .group fr st cb ∧ cb.pl.E ≤ cb.pl.p ∧ s.codebookLoop fr st cb = .next t := by
  cases due with
  | frame | strip | chunk => exact .inl (State.fetchWithin_halt_next h)
  | group fr st cb => exact (State.fetchGroup_halt_next h).imp_right fun h => ⟨fr, st, cb, rfl, h⟩
  | block => exact .inl (State.fetchBlock_halt_next h)

theorem recordStep_sameContext {due : Due} {s t : State} (h : recordStep due s = .next t) : s.SameContext t := by
  unfold recordStep at h
  split at h
  · rename_i i u hf; exact (State.fetch_run hf).sameContext.trans (runRecord_sameContext h)
  · rename_i o hf
    subst h
    rcases State.fetch_halt_next hf with ⟨_, rfl⟩ | ⟨_, _, _, _, _, hc⟩
    · exact s.sameContext_fail _
    · exact State.codebookLoop_sameContext hc

/-- Record steps packaged: a relation that is reflexive and extends over a record step in front holds from the first state
of a frame's run to the last (R220). -/
theorem runFrame_induction {P : State → State → Prop} (refl : ∀ s, P s s)
    (step : ∀ {due s u t}, s.fsm = .decoding due → recordStep due s = .next u → P u t → P s t) :
    ∀ {n : Nat} {s t : State}, runFrame n s = .next t → P s t := by
  intro n
  induction n with
  | zero =>
    intro s t h
    unfold runFrame at h
    split at h
    · cases h
    · cases h; exact refl s
  | succ m ih =>
    intro s t h
    unfold runFrame at h
    split at h
    · rename_i due hd
      dsimp only at h
      split at h
      · rename_i u hu; exact step hd hu (ih h)
      · cases h
      · cases h
    · cases h; exact refl s

theorem runFrame_sameContext {n : Nat} {s t : State} (h : runFrame n s = .next t) : s.SameContext t :=
  runFrame_induction State.SameContext.refl (fun _ hr hu => (recordStep_sameContext hr).trans hu) h

/-! ## Commands and datapath operations -/

/-- HAS_NEXT, DECODE_FRAME and FB_VIEW answer a next state in `Ready` and `Exhausted` only. -/
theorem State.whenIdle_next {s t : State} {command : State → Outcome} (h : s.whenIdle command = .next t) :
    (s.fsm = .ready ∨ s.fsm = .exhausted) ∧ command s = .next t := by
  unfold State.whenIdle at h
  split at h
  · rename_i hf; exact ⟨.inl hf, h⟩
  · rename_i hf; exact ⟨.inr hf, h⟩
  all_goals cases h

theorem execHasNext_next {s t : State} (h : execHasNext s = .next t) :
    (s.fsm = .ready ∨ s.fsm = .exhausted) ∧ t = { s with reply := .bool (decide (s.cursor < s.length)) } := by
  obtain ⟨hidle, h⟩ := State.whenIdle_next h
  cases h
  exact ⟨hidle, rfl⟩

theorem execFbView_next {s t : State} (h : execFbView s = .next t) :
    (s.fsm = .ready ∨ s.fsm = .exhausted) ∧ t = { s with reply := .view, viewValid := true } := by
  obtain ⟨hidle, h⟩ := State.whenIdle_next h
  cases h
  exact ⟨hidle, rfl⟩

/-- What DECODE_FRAME answers: `Eof` at the end of the stream, else the end of a frame's run (R233, R245). -/
theorem execDecodeFrame_next {s t : State} (h : execDecodeFrame s = .next t) :
    (s.fsm = .ready ∨ s.fsm = .exhausted) ∧
    ((s.cursor = s.length ∧ t = s.eof) ∨ (s.cursor ≠ s.length ∧ runFrame Config.frameFuel s.beginFrame = .next t)) := by
  obtain ⟨hidle, h⟩ := State.whenIdle_next h
  refine ⟨hidle, ?_⟩
  split at h
  · rename_i hc; cases h; exact .inl ⟨hc, rfl⟩
  · rename_i hc; exact .inr ⟨hc, h⟩

/-- The build's parameters and the host's queue (R8, R17). -/
def State.SameBuild (s t : State) : Prop := t.posture = s.posture ∧ t.chromaHalf = s.chromaHalf ∧ t.cmds = s.cmds

/-- The bound stream (R33). -/
def State.SameStream (s t : State) : Prop := t.stream = s.stream ∧ t.length = s.length

theorem State.SameContext.build_stream {s t : State} (h : s.SameContext t) : s.SameBuild t ∧ s.SameStream t := by
  obtain ⟨hp, hc, hs, hl, _, hq⟩ := h
  exact ⟨⟨hp, hc, hq⟩, hs, hl⟩

/-- DECODE_FRAME keeps the context but for the view, which its start ends (R250). -/
theorem execDecodeFrame_build_stream {s t : State} (h : execDecodeFrame s = .next t) : s.SameBuild t ∧ s.SameStream t := by
  obtain ⟨_, ⟨_, rfl⟩ | ⟨_, hr⟩⟩ := execDecodeFrame_next h
  · exact ⟨⟨rfl, rfl, rfl⟩, rfl, rfl⟩
  · exact (runFrame_sameContext hr).build_stream

/-- Every instruction but INIT keeps the build's parameters, the host's queue and the bound stream. -/
theorem exec_build_stream {i : Instr} {s t : State} (hi : ∀ stream n, i ≠ .init stream n) (h : exec i s = .next t) :
    s.SameBuild t ∧ s.SameStream t := by
  cases i with
  | init stream n => exact absurd rfl (hi stream n)
  | decodeFrame => exact execDecodeFrame_build_stream h
  | hasNext => obtain ⟨_, rfl⟩ := execHasNext_next h; exact ⟨⟨rfl, rfl, rfl⟩, rfl, rfl⟩
  | fbView => obtain ⟨_, rfl⟩ := execFbView_next h; exact ⟨⟨rfl, rfl, rfl⟩, rfl, rfl⟩
  | ct => cases h; exact ⟨⟨rfl, rfl, rfl⟩, rfl, rfl⟩
  | bwV1 | bwV4 => exact (State.blockWrite_sameContext h).build_stream
  | _ => exact (runRecord_sameContext ((runRecord_eq_exec rfl s).trans h)).build_stream

/-- Settles O48: INIT is the reset of R47, which writes no parameter of the build; every record keeps the context, and
DECODE_FRAME iterates records. -/
theorem onlyInitBindsStream : Obligations.OnlyInitBindsStream := by
  unfold Obligations.OnlyInitBindsStream
  intro i s t h
  by_cases hi : ∃ stream n, i = .init stream n
  · obtain ⟨stream, n, rfl⟩ := hi
    obtain ⟨_, _, rfl⟩ := execInit_next.mp h
    exact ⟨⟨rfl, rfl, rfl⟩, fun hne => absurd rfl (hne stream n)⟩
  · have hne : ∀ stream n, i ≠ .init stream n := fun stream n he => hi ⟨stream, n, he⟩
    obtain ⟨hbuild, hstream⟩ := exec_build_stream hne h
    exact ⟨hbuild, fun _ => hstream⟩

end Sys2Proof.Machine

/-!
PROOFS. At each kind of due record, bytes that decode are fetched as their record, and the step runs it (R2, R13, R220).
-/

namespace Sys2Proof.Machine

/-- Reading the stream does not look at the state machine. -/
@[simp] theorem State.bytes_setFsm (s : State) (f : Fsm) (a n : Nat) : ({ s with fsm := f } : State).bytes a n = s.bytes a n := by
  induction n generalizing a with
  | zero => rfl
  | succ m ih => simp only [State.bytes, State.byte, ih]

/-- Bytes that can be read end by the stream's length. -/
theorem State.bytes_some_le {s : State} {a n : Nat} {l : List Byte} (h : s.bytes a n = some l) (hn : n ≠ 0) :
    a + n ≤ s.length := by
  have hsome : (s.bytes a n).isSome = true := by rw [h]; rfl
  exact ((s.bytes_isSome n a).mp hsome).resolve_left hn

/-- Bytes that end by the limit and decode are fetched as their record. -/
theorem State.fetchWithin_of_decode {s : State} {level : Level} {bits : List Bool} {a n limit : Nat} {l : List Byte}
    {d : Decoded} (hle : a + n ≤ limit) (hl : s.bytes a n = some l) (hd : decode level bits l = .ok d) :
    s.fetchWithin level bits a n limit = .run d.instr s := by
  simp only [State.fetchWithin, State.fetchAt, if_pos hle, hl, hd]

/-- A fetched record is run by the step. -/
theorem step_of_fetch {s t : State} {due : Due} {i : Instr} (hf : s.fsm = .decoding due) (h : s.fetch due = .run i t) :
    step s = exec i t := by
  simp only [step, hf, h]

/-! ## Groups -/

/-- A group of a chunk that is not selective takes no mask bit (R151). -/
theorem State.fetchGroup_plain {s : State} {fr : FrameRegs} {st : StripRegs} {cb : CodebookRegs} {l : List Byte}
    {d : Decoded} (hk : cb.k < 256) (hs : cb.selective = false) (hle : cb.pl.p + cb.groupBytes ≤ cb.pl.E)
    (hl : s.bytes cb.pl.p cb.groupBytes = some l) (hd : decode cb.level [] l = .ok d) :
    s.fetchGroup fr st cb = .run d.instr s := by
  have hbytes : 0 < cb.groupBytes := by unfold CodebookRegs.groupBytes; split <;> decide
  have hp : cb.pl.p < cb.pl.E := by omega
  simpa [State.fetchGroup, hp, hk, hs] using State.fetchWithin_of_decode hle hl hd

/-- An element of a selective chunk is fetched with its mask bit taken (R151, R154). -/
theorem State.fetchGroup_selective {s : State} {fr : FrameRegs} {st : StripRegs} {cb : CodebookRegs} {b : Bool}
    {pl : Payload} {l : List Byte} {d : Decoded} (hk : cb.k < 256) (hs : cb.selective = true) (hp : cb.pl.p < cb.pl.E)
    (hb : s.nextBit cb.pl = .bit b pl) (hle : pl.p + (if b = true then cb.groupBytes else 0) ≤ pl.E)
    (hl : s.bytes pl.p (if b = true then cb.groupBytes else 0) = some l) (hd : decode cb.level [b] l = .ok d) :
    s.fetchGroup fr st cb = .run d.instr { s with fsm := .decoding (.group fr st { cb with pl := pl }) } := by
  simp only [State.fetchGroup, hp, hk, hs, hb, not_true_eq_false, if_true, if_false]
  exact State.fetchWithin_of_decode hle (by simpa using hl) hd

/-! ## Block codes -/

/-- No bits taken leave the payload registers. -/
theorem State.takeBits_nil {s : State} {n : Nat} {pl pl' : Payload} (h : s.takeBits n pl = some ([], pl')) : pl' = pl := by
  cases n with
  | zero => cases h; rfl
  | succ m =>
    simp only [State.takeBits] at h
    split at h
    · split at h <;> cases h
    · cases h

/-- The first of the bits taken is the next mask bit. -/
theorem State.takeBits_cons {s : State} {n : Nat} {pl pl' : Payload} {b : Bool} {bits : List Bool}
    (h : s.takeBits n pl = some (b :: bits, pl')) :
    ∃ m pl₁, s.nextBit pl = .bit b pl₁ ∧ s.takeBits m pl₁ = some (bits, pl') := by
  cases n with
  | zero => cases h
  | succ m =>
    simp only [State.takeBits] at h
    split at h
    · rename_i pl₁ hb
      split at h
      · rename_i hm; cases h; exact ⟨m, pl₁, hb, hm⟩
      · cases h
    · cases h

/-- The bits of a two-bit code, taken one after the other. -/
theorem State.takeBits_pair {s : State} {n : Nat} {pl pl' : Payload} {a b : Bool} (h : s.takeBits n pl = some ([a, b], pl')) :
    ∃ pl₁, s.nextBit pl = .bit a pl₁ ∧ s.nextBit pl₁ = .bit b pl' := by
  obtain ⟨_, pl₁, ha, h⟩ := State.takeBits_cons h
  obtain ⟨_, pl₂, hb, h⟩ := State.takeBits_cons h
  cases State.takeBits_nil h
  exact ⟨pl₁, ha, hb⟩

/-- The one bit of a code. -/
theorem State.takeBits_single {s : State} {n : Nat} {pl pl' : Payload} {b : Bool} (h : s.takeBits n pl = some ([b], pl')) :
    s.nextBit pl = .bit b pl' := by
  obtain ⟨_, pl₁, hb, h⟩ := State.takeBits_cons h
  cases State.takeBits_nil h
  exact hb

/-- Where the bits taken are exactly those of a block code, fetching the block takes them and no more (R114 to R117). -/
theorem State.fetchBlock_eq_fetchIndices {s : State} {fr : FrameRegs} {st : StripRegs} {vp : VectorRegs} {n : Nat}
    {bits : List Bool} {pl : Payload} {l : List Byte} {d : Decoded} (ht : s.takeBits n vp.pl = some (bits, pl))
    (hd : decodeBlock vp.kind bits l = .ok d) (hend : d.bits = []) :
    s.fetchBlock fr st vp = s.fetchIndices fr st vp bits pl := by
  have hcode := decodeBlock_ok hd
  simp only [hend] at hcode
  rcases hcode with ⟨hk, rfl, _⟩ | ⟨hk, rfl, _⟩ | ⟨hk, rfl, _⟩ | ⟨hk, rfl, _⟩ | ⟨hk, rfl, _⟩ | ⟨hk, rfl, _⟩
  · cases State.takeBits_nil ht
    simp only [State.fetchBlock, hk]
  iterate 3 simp only [State.fetchBlock, hk, State.takeBits_single ht]
  all_goals
    obtain ⟨pl₁, ha, hb⟩ := State.takeBits_pair ht
    simp only [State.fetchBlock, hk, ha, hb]

/-- A block code whose bits and index bytes decode is fetched with its bits taken (R181). -/
theorem State.fetchBlock_of_decode {s : State} {fr : FrameRegs} {st : StripRegs} {vp : VectorRegs} {n : Nat}
    {bits : List Bool} {pl : Payload} {l : List Byte} {d : Decoded} (ht : s.takeBits n vp.pl = some (bits, pl))
    (hle : pl.p + indexBytes vp.kind bits ≤ pl.E) (hl : s.bytes pl.p (indexBytes vp.kind bits) = some l)
    (hd : decode (.block vp.kind) bits l = .ok d) (hend : d.bits = []) :
    s.fetchBlock fr st vp = .run d.instr { s with fsm := .decoding (.block fr st { vp with pl := pl }) } := by
  rw [State.fetchBlock_eq_fetchIndices ht hd hend]
  exact State.fetchWithin_of_decode hle (by simpa using hl) hd

/-- Settles O44: at each kind of due record the fetch yields the decoded record. -/
theorem stepRunsDecodedRecord : Obligations.StepRunsDecodedRecord := by
  unfold Obligations.StepRunsDecodedRecord
  intro s l d
  refine ⟨?frame, ?strip, ?chunk, ?group, ?selective, ?block⟩
  case frame =>
    intro hf hl hd
    exact step_of_fetch hf (State.fetchWithin_of_decode (State.bytes_some_le hl (by decide)) hl hd)
  case strip =>
    intro fr hf hle hl hd
    exact step_of_fetch hf (State.fetchWithin_of_decode hle hl hd)
  case chunk =>
    intro fr st hf hle hl hd
    exact step_of_fetch hf (State.fetchWithin_of_decode hle hl hd)
  case group =>
    intro fr st cb hf hk hs hle hl hd
    exact step_of_fetch hf (State.fetchGroup_plain hk hs hle hl hd)
  case selective =>
    intro fr st cb b pl hf hk hs hp hb hle hl hd
    exact step_of_fetch hf (State.fetchGroup_selective hk hs hp hb hle hl hd)
  case block =>
    intro fr st vp n bits pl hf ht hle hl hd hend
    exact step_of_fetch hf (State.fetchBlock_of_decode ht hle hl hd hend)

end Sys2Proof.Machine

/-!
PROOFS. What each record answers, once: the error of a failed check, or what follows the record from the state its writes
have made (R151, R181, R201, R208, R221).
-/

namespace Sys2Proof.Machine

/-! ## Checks -/

/-- A check in front of an operation: it fails with its error, or it holds and the operation answers. -/
theorem State.checked_next {s t : State} {c : Prop} [Decidable c] {k : ErrKind} {o : Outcome}
    (h : (if ¬ c then s.failCheck k else o) = .next t) : t = s.fail k ∨ (c ∧ o = .next t) := by
  by_cases hc : c
  · exact .inr ⟨hc, by simpa [hc] using h⟩
  · exact .inl (State.failCheck_next.mp (by simpa [hc] using h)).2

/-! ## Headers -/

/-- The registers a frame header at the cursor sets for the frame's first strip (R44, R225). -/
def State.headerRegs (s : State) (inter : Bool) (flen : BitVec 24) (nstrips : U16) : FrameRegs :=
  { F := s.cursor, inter := inter, flen := flen.toNat, nstrips := nstrips.toNat, i := 0 }

/-- A frame header fails, or it ends an empty frame, or the frame's first strip is due (R221 to R227). -/
theorem State.frameHeader_next {s t : State} {inter : Bool} {flen : BitVec 24} {width height nstrips : U16}
    (h : s.frameHeader inter flen width height nstrips = .next t) :
    s.fsm = .decoding .frame ∧
    ((∃ k, k ≠ .ok ∧ t = s.fail k) ∨
      10 ≤ flen.toNat ∧ s.cursor + flen.toNat ≤ s.length ∧
      (flen.toNat = 10 ∧ t = State.finishFrame { s with cursor := s.cursor + 10 } ∨
        0 < nstrips.toNat ∧ nstrips.toNat ≤ 32 ∧
        t = { s with cursor := s.cursor + 10, fsm := .decoding (.strip (s.headerRegs inter flen nstrips)) })) := by
  unfold State.frameHeader at h
  split at h
  · rename_i hf
    refine ⟨hf, ?_⟩
    rcases State.checked_next h with rfl | ⟨_, h⟩
    · exact .inl ⟨_, by decide, rfl⟩
    rcases State.checked_next h with rfl | ⟨⟨hmin, hfit⟩, h⟩
    · exact .inl ⟨_, by decide, rfl⟩
    rcases State.checked_next h with rfl | ⟨_, h⟩
    · exact .inl ⟨_, by decide, rfl⟩
    rcases State.checked_next h with rfl | ⟨hmax, h⟩
    · exact .inl ⟨_, by decide, rfl⟩
    refine .inr ⟨hmin, hfit, ?_⟩
    split at h
    · split at h
      · rename_i hten; cases h; exact .inl ⟨hten, rfl⟩
      · cases h
    · rename_i hn; cases h; exact .inr ⟨Nat.pos_of_ne_zero hn, hmax, rfl⟩
  · cases h

/-- A strip header fails, or its box and codebooks are stored and its first chunk is due (R201 to R208). -/
theorem State.stripHeader_next {s t : State} {slen py0 px0 py1 px1 : U16}
    (h : s.stripHeader slen py0 px0 py1 px1 = .next t) :
    ∃ fr, s.fsm = .decoding (.strip fr) ∧
      (t = s.fail .invalidData ∨
        ∃ b : Box, b.aligned ∧ b.inFrame ∧ s.cursor + slen.toNat ≤ fr.F + fr.flen ∧
          ChunkNext (s.setSlot fr.i (s.headedSlot fr b)) fr
            { S := s.cursor, slen := slen.toNat, c := s.cursor + 12 } (s.cursor + 12) t) := by
  unfold State.stripHeader at h
  split at h
  · rename_i fr hf
    refine ⟨fr, hf, ?_⟩
    rcases State.checked_next h with h | ⟨_, h⟩
    · exact .inl h
    rcases State.checked_next h with h | ⟨⟨_, hfit⟩, h⟩
    · exact .inl h
    rcases State.checked_next h with h | ⟨haligned, h⟩
    · exact .inl h
    rcases State.checked_next h with h | ⟨_, h⟩
    · exact .inl h
    rcases State.checked_next h with h | ⟨hin, h⟩
    · exact .inl h
    exact .inr ⟨_, haligned, hin, hfit, State.chunkLoop_next h⟩
  · cases h

/-- A chunk header fails, or its payload is opened inside the strip (R208). -/
theorem State.openChunk_next {s t : State} {clen : U16} {body : FrameRegs → StripRegs → Payload → Outcome}
    (h : s.openChunk clen body = .next t) :
    ∃ fr st, s.fsm = .decoding (.chunk fr st) ∧
      (t = s.fail .invalidData ∨
        4 ≤ clen.toNat ∧ st.c + clen.toNat ≤ st.S + st.slen ∧
        body fr st { p := st.c + 4, E := st.c + clen.toNat, mask := 0, left := 0 } = .next t) := by
  unfold State.openChunk at h
  split at h
  · rename_i fr st hf
    refine ⟨fr, st, hf, ?_⟩
    rcases State.checked_next h with h | ⟨_, h⟩
    · exact .inl h
    exact (State.checked_next h).imp_right fun ⟨⟨hmin, hfit⟩, h⟩ => ⟨hmin, hfit, h⟩
  · cases h

/-! ## Groups -/

/-- A group fails, or its entry is written and the group loop goes on past it (R151, R153). -/
theorem State.decodeGroup_next {s t : State} {fr : FrameRegs} {st : StripRegs} {cb : CodebookRegs} {n : Nat} {e : Entry}
    (h : s.decodeGroup fr st cb n e = .next t) :
    t = s.fail .invalidData ∨
    ∃ hk : cb.k < 256, cb.pl.p + n ≤ cb.pl.E ∧
      (s.setSlot fr.i (s.slots[fr.i.val].writeEntry cb.target cb.k e hk)).codebookLoop fr st
        { cb with k := cb.k + 1, pl := { cb.pl with p := cb.pl.p + n } } = .next t := by
  unfold State.decodeGroup at h
  split at h
  · rename_i hk
    exact (State.checked_next h).imp_right fun ⟨hfit, h⟩ => ⟨hk, hfit, h⟩
  · exact .inl (State.failCheck_next.mp h).2

/-- G8 is a group whose colours CT makes. -/
theorem execG8_next {y0 y1 y2 y3 : Byte} {s t : State} (h : execG8 y0 y1 y2 y3 s = .next t) :
    ∃ fr st cb n e, s.fsm = .decoding (.group fr st cb) ∧ e.plain ∧ s.decodeGroup fr st cb n e = .next t := by
  unfold execG8 at h
  split at h
  · rename_i fr st cb hf
    split at h
    · cases h
    · exact ⟨fr, st, cb, _, _, hf, groupEntry_plain .., h⟩
  · cases h

/-- G12 is a group whose colours CT makes. -/
theorem execG12_next {y0 y1 y2 y3 u v : Byte} {s t : State} (h : execG12 y0 y1 y2 y3 u v s = .next t) :
    ∃ fr st cb n e, s.fsm = .decoding (.group fr st cb) ∧ e.plain ∧ s.decodeGroup fr st cb n e = .next t := by
  unfold execG12 at h
  split at h
  · rename_i fr st cb hf
    split at h
    · cases h
    · exact ⟨fr, st, cb, _, _, hf, groupEntry_plain .., h⟩
  · cases h

/-- GSKIP fails, or the group loop goes on with the next entry (R154). -/
theorem execGskip_next {s t : State} (h : execGskip s = .next t) :
    ∃ fr st cb, s.fsm = .decoding (.group fr st cb) ∧
      (t = s.fail .invalidData ∨ s.codebookLoop fr st { cb with k := cb.k + 1 } = .next t) := by
  unfold execGskip at h
  split at h
  · rename_i fr st cb hf
    split at h
    · cases h
    · exact ⟨fr, st, cb, hf, (State.checked_next h).imp_right And.right⟩
  · cases h

/-! ## Block codes -/

/-- A block code runs where one of its kind of chunk is due. -/
theorem State.inBlock_next {s t : State} {kind : VecKind} {body : FrameRegs → StripRegs → VectorRegs → Outcome}
    (h : s.inBlock kind body = .next t) :
    ∃ fr st vp, s.fsm = .decoding (.block fr st vp) ∧ body fr st vp = .next t := by
  unfold State.inBlock at h
  split at h
  · rename_i fr st vp hf
    split at h
    · exact ⟨fr, st, vp, hf, h⟩
    · cases h
  · cases h

/-- Reading an entry draws a free value at most. -/
theorem State.lookup_slots_fb {s t : State} {i : Fin 32} {g : Target} {idx : Byte} {e : Entry}
    (h : s.lookup i g idx = some (e, t)) : t.cursor = s.cursor ∧ t.slots = s.slots ∧ t.fb = s.fb := by
  rcases State.lookup_some h with ⟨_, _, rfl⟩ | ⟨_, _, _, rfl⟩ <;> exact ⟨rfl, rfl, rfl⟩

/-- What a block code that draws leaves for the walk: the block at the walk's position is inside the framebuffer and
drawn, in colours that are plain where the slot's codebooks are (R173, R185, R186). -/
structure State.DrewDueBlock (s u : State) (fr : FrameRegs) (vp : VectorRegs) : Prop where
  context : s.SameContext u
  cursor : u.cursor = s.cursor
  slots : u.slots = s.slots
  fb : ∃ colour : Nat → Nat → Colour, vp.bx + 4 ≤ 320 ∧ u.fb = Framebuffer.setBlock s.fb vp.bx vp.by_ colour ∧
    (s.slots[fr.i.val].Good → ∀ dx dy, (colour dx dy).plain)

/-- The codebook of either target of a good slot has plain colours. -/
theorem Slot.Good.codebook_plain {sl : Slot} (h : sl.Good) (g : Target) : plainCodebook (sl.codebook g) := by
  obtain ⟨_, _, h1, h4⟩ := h
  cases g
  · exact h1
  · exact h4

/-- An entry read from a good slot has plain colours, also an undefined one (R46, U3). -/
theorem State.lookup_plain {s t : State} {i : Fin 32} {g : Target} {idx : Byte} {e : Entry}
    (h : s.lookup i g idx = some (e, t)) (hg : s.slots[i.val].Good) : e.plain := by
  rcases State.lookup_some h with ⟨_, rfl, _⟩ | ⟨_, _, rfl, _⟩
  · exact hg.codebook_plain g ⟨idx.toNat, idx.isLt⟩
  · exact undefinedEntry_plain _

/-- Drawing the due block from a state that entries were read in. -/
theorem State.drewDueBlock_of_writeBlock {s v u : State} {fr : FrameRegs} {vp : VectorRegs}
    {colour : Nat → Nat → Colour} (hcontext : s.SameContext v)
    (hkept : v.cursor = s.cursor ∧ v.slots = s.slots ∧ v.fb = s.fb)
    (hplain : s.slots[fr.i.val].Good → ∀ dx dy, (colour dx dy).plain) (h : v.writeBlock vp.bx vp.by_ colour = some u) :
    s.DrewDueBlock u fr vp := by
  obtain ⟨hx, _, rfl⟩ := State.writeBlock_some h
  obtain ⟨hcursor, hslots, hfb⟩ := hkept
  exact ⟨hcontext, hcursor, hslots, colour, hx, by rw [hfb], hplain⟩

/-- Drawing succeeds inside the framebuffer, and then the walk goes on (R181). -/
theorem State.drawBlock_next {s t : State} {fr : FrameRegs} {st : StripRegs} {vp : VectorRegs} {n : Nat}
    {colour : Nat → Nat → Colour} (h : s.drawBlock fr st vp n colour = .next t) :
    ∃ u, s.writeBlock vp.bx vp.by_ colour = some u ∧ u.blockDone fr st vp n = .next t := by
  unfold State.drawBlock at h
  split at h
  · rename_i u hu; exact ⟨u, hu, h⟩
  · cases h

/-- A V1 block fails, or the due block is drawn and the walk goes on past its index byte (R185). -/
theorem State.placeV1_next {s t : State} {fr : FrameRegs} {st : StripRegs} {vp : VectorRegs} {i0 : Byte}
    (h : s.placeV1 fr st vp i0 = .next t) :
    t = s.fail .invalidData ∨
    ∃ u n, vp.pl.p + n ≤ vp.pl.E ∧ s.DrewDueBlock u fr vp ∧ u.blockDone fr st vp n = .next t := by
  refine (State.checked_next h).elim .inl fun ⟨hfit, h⟩ => ?_
  split at h
  · rename_i e v hv
    obtain ⟨u, hu, h⟩ := State.drawBlock_next h
    refine .inr ⟨u, 1, hfit, State.drewDueBlock_of_writeBlock (State.lookup_sameContext hv) (State.lookup_slots_fb hv)
      (fun hg => lanesV1_plain (State.lookup_plain hv hg)) hu, h⟩
  · exact .inl (State.failCheck_next.mp h).2

/-- Four entries are read without a write, and from a good slot all are plain (R186). -/
theorem State.lookup4_kept_plain {s t : State} {i : Fin 32} {i0 i1 i2 i3 : Byte} {e0 e1 e2 e3 : Entry}
    (h : s.lookup4 i i0 i1 i2 i3 = some (e0, e1, e2, e3, t)) :
    (t.cursor = s.cursor ∧ t.slots = s.slots ∧ t.fb = s.fb) ∧
    (s.slots[i.val].Good → e0.plain ∧ e1.plain ∧ e2.plain ∧ e3.plain) := by
  obtain ⟨s0, s1, s2, h0, h1, h2, h3⟩ := State.lookup4_some h
  obtain ⟨c0, l0, f0⟩ := State.lookup_slots_fb h0
  obtain ⟨c1, l1, f1⟩ := State.lookup_slots_fb h1
  obtain ⟨c2, l2, f2⟩ := State.lookup_slots_fb h2
  obtain ⟨c3, l3, f3⟩ := State.lookup_slots_fb h3
  have l01 : s1.slots = s.slots := l1.trans l0
  have l02 : s2.slots = s.slots := l2.trans l01
  refine ⟨⟨by rw [c3, c2, c1, c0], l3.trans l02, by rw [f3, f2, f1, f0]⟩, fun hg => ?_⟩
  exact ⟨State.lookup_plain h0 hg, State.lookup_plain h1 (by rwa [l0]), State.lookup_plain h2 (by rwa [l01]),
    State.lookup_plain h3 (by rwa [l02])⟩

/-- A V4 block fails, or the due block is drawn and the walk goes on past its index bytes (R186). -/
theorem State.placeV4_next {s t : State} {fr : FrameRegs} {st : StripRegs} {vp : VectorRegs} {i0 i1 i2 i3 : Byte}
    (h : s.placeV4 fr st vp i0 i1 i2 i3 = .next t) :
    t = s.fail .invalidData ∨
    ∃ u n, vp.pl.p + n ≤ vp.pl.E ∧ s.DrewDueBlock u fr vp ∧ u.blockDone fr st vp n = .next t := by
  refine (State.checked_next h).elim .inl fun ⟨hfit, h⟩ => ?_
  split at h
  · rename_i e0 e1 e2 e3 v hv
    obtain ⟨u, hu, h⟩ := State.drawBlock_next h
    obtain ⟨hkept, hplain⟩ := State.lookup4_kept_plain hv
    refine .inr ⟨u, 4, hfit, State.drewDueBlock_of_writeBlock (State.lookup4_sameContext hv) hkept (fun hg => ?_) hu, h⟩
    obtain ⟨p0, p1, p2, p3⟩ := hplain hg
    exact lanesV4_plain p0 p1 p2 p3
  · exact .inl (State.failCheck_next.mp h).2

end Sys2Proof.Machine

/-!
PROOFS. Every step keeps the invariant: a record due where the invariant holds leaves a state that meets it again, and
DECODE_FRAME iterates records (R31, R35, R40, R46).
-/

namespace Sys2Proof.Machine

/-! ## The invariant by the state machine -/

/-- The memories and the slots of a state that is neither at power-on nor failed. -/
def State.Sound (s : State) : Prop := s.StreamGood ∧ s.FramebufferGood ∧ ∀ i : Fin 32, s.slots[i.val].Good

theorem State.Sound.stream {s : State} (h : s.Sound) : s.StreamGood := h.1
theorem State.Sound.fb {s : State} (h : s.Sound) : s.FramebufferGood := h.2.1
theorem State.Sound.slots {s : State} (h : s.Sound) (i : Fin 32) : s.slots[i.val].Good := h.2.2 i

theorem State.inv_decoding {s : State} {due : Due} (hf : s.fsm = .decoding due) : s.Inv ↔ s.Sound ∧ s.DueGood due := by
  simp only [State.Inv, State.Sound, hf, and_assoc]

theorem State.inv_ready {s : State} (hf : s.fsm = .ready) : s.Inv ↔ s.Sound ∧ s.cursor < s.length := by
  simp only [State.Inv, State.Sound, hf, and_assoc]

theorem State.inv_exhausted {s : State} (hf : s.fsm = .exhausted) : s.Inv ↔ s.Sound ∧ s.cursor = s.length := by
  simp only [State.Inv, State.Sound, hf, and_assoc]

/-- The invariant inside a frame, from its two parts. -/
theorem State.Sound.inv_of_due {s : State} {due : Due} (hf : s.fsm = .decoding due) (hs : s.Sound) (hd : s.DueGood due) :
    s.Inv :=
  (State.inv_decoding hf).mpr ⟨hs, hd⟩

/-- Whatever an error leaves free, its pixels are plain (R46, R269). -/
theorem State.inv_fail {s : State} (k : ErrKind) (h : s.StreamGood) : (s.fail k).Inv :=
  ⟨h, Framebuffer.good_free _, trivial⟩

/-- A frame that ends inside the stream leaves `Ready` or `Exhausted` by the cursor (R230). -/
theorem State.inv_finishFrame {s : State} (hs : s.Sound) (hc : s.cursor ≤ s.length) : s.finishFrame.Inv := by
  by_cases he : s.cursor = s.length
  · exact (State.inv_exhausted (by simp [idleFsm, he])).mpr ⟨hs, he⟩
  · exact (State.inv_ready (by simp [idleFsm, he])).mpr ⟨hs, Nat.lt_of_le_of_ne hc he⟩

/-- The slot INIT leaves has an empty box and plain colours (R47). -/
theorem Slot.zero_good : Slot.zero.Good := by
  have hzero : plainCodebook (Vector.replicate 256 Entry.zero) := by
    intro k
    simp only [Vector.getElem_replicate]
    decide
  exact ⟨by decide, by decide, hzero, hzero⟩

/-- INIT leaves an empty framebuffer, zero slots and the cursor at 0 (R47, R241). -/
theorem State.inv_bind (s : State) (stream : List Byte) (n : Nat) : (s.bind stream n).Inv := by
  have hs : (s.bind stream n).Sound :=
    ⟨s.bind_streamGood stream n, Framebuffer.good_empty, fun i => by simpa using Slot.zero_good⟩
  by_cases hn : 0 < n
  · exact (State.inv_ready (by simp [hn])).mpr ⟨hs, hn⟩
  · exact (State.inv_exhausted (by simp [hn])).mpr ⟨hs, by simp; omega⟩

/-! ## Slots -/

theorem State.Sound.setSlot {s : State} (h : s.Sound) (i : Fin 32) {sl : Slot} (hsl : sl.Good) : (s.setSlot i sl).Sound := by
  refine ⟨h.stream, h.fb, fun j => ?_⟩
  simp only [State.setSlot_slots, Vector.getElem_set]
  split
  · exact hsl
  · exact h.slots j

theorem plainCodebook_set {cb : Vector Entry 256} {k : Nat} {e : Entry} (h : plainCodebook cb) (hk : k < 256)
    (he : e.plain) : plainCodebook (cb.set k e) := by
  intro n
  simp only [Vector.getElem_set]
  split
  · exact he
  · exact h n

/-- Writing a plain entry keeps a slot good (R153). -/
theorem Slot.Good.writeEntry {sl : Slot} (h : sl.Good) (g : Target) {k : Nat} {e : Entry} (hk : k < 256) (he : e.plain) :
    (sl.writeEntry g k e hk).Good := by
  obtain ⟨haligned, hin, h1, h4⟩ := h
  cases g
  · exact ⟨haligned, hin, plainCodebook_set h1 hk he, h4⟩
  · exact ⟨haligned, hin, h1, plainCodebook_set h4 hk he⟩

/-- A strip's slot after its header is good where its box has passed the checks (R204 to R206). -/
theorem State.Sound.headedSlot {s : State} (h : s.Sound) (fr : FrameRegs) {b : Box} (ha : b.aligned) (hb : b.inFrame) :
    (s.headedSlot fr b).Good := by
  obtain ⟨_, _, hv1, hv4⟩ := h.slots fr.i
  unfold State.headedSlot
  split
  · obtain ⟨_, _, hp1, hp4⟩ := h.slots ⟨fr.i.val - 1, by omega⟩
    exact ⟨ha, hb, hp1, hp4⟩
  · exact ⟨ha, hb, hv1, hv4⟩

/-! ## What follows a record -/

/-- A strip that begins at the cursor and ends inside its frame, which ends inside the stream. -/
structure StripOpen (length cursor : Nat) (fr : FrameRegs) (st : StripRegs) : Prop where
  frame : fr.Good length
  after : fr.F < cursor
  start : st.S = cursor
  fits : st.S + st.slen ≤ fr.F + fr.flen

/-- A strip with a chunk that starts inside it. -/
structure ChunkOpen (length cursor : Nat) (fr : FrameRegs) (st : StripRegs) : Prop extends
    StripOpen length cursor fr st where
  ge_start : st.S ≤ st.c
  lt_end : st.c < st.S + st.slen

theorem chunkOpen_iff {length cursor : Nat} {fr : FrameRegs} {st : StripRegs} :
    ChunkOpen length cursor fr st ↔ fr.Good length ∧ fr.F < cursor ∧ st.Good fr cursor :=
  ⟨fun h => ⟨h.frame, h.after, h.start, h.fits, h.ge_start, h.lt_end⟩,
    fun ⟨hf, ha, hs, hfit, hge, hlt⟩ => ⟨⟨hf, ha, hs, hfit⟩, hge, hlt⟩⟩

/-- The chunk loop keeps the invariant (R208, R227 to R230). -/
theorem ChunkNext.inv {s t : State} {fr : FrameRegs} {st : StripRegs} {c : Nat} (h : ChunkNext s fr st c t)
    (hs : s.Sound) (ho : StripOpen s.length s.cursor fr st) (hc : st.S ≤ c) : t.Inv := by
  obtain ⟨⟨hend, hlen, hmax, hi⟩, hafter, hstart, hfits⟩ := ho
  cases h with
  | chunk hlt =>
    exact State.Sound.inv_of_due rfl hs ⟨⟨hend, hlen, hmax, hi⟩, hafter, hstart, hfits, hc, hlt⟩
  | strip _ hn hi' =>
    exact State.Sound.inv_of_due rfl hs ⟨⟨hend, hlen, hmax, hn⟩, by dsimp only; omega, hfits⟩
  | done _ _ he =>
    exact State.inv_finishFrame hs (by dsimp only; omega)
  | fail => exact State.inv_fail _ hs.stream

/-- The group loop keeps the invariant (R151, R156). -/
theorem State.codebookLoop_inv {s t : State} {fr : FrameRegs} {st : StripRegs} {cb : CodebookRegs} (hs : s.Sound)
    (ho : ChunkOpen s.length s.cursor fr st) (hpl : cb.pl.Good st) (h : s.codebookLoop fr st cb = .next t) : t.Inv := by
  rcases State.codebookLoop_next h with ⟨hp, rfl⟩ | ⟨_, _, _, _, rfl⟩ | ⟨_, _, hc⟩
  · obtain ⟨hfr, hafter, hst⟩ := chunkOpen_iff.mp ho
    exact State.Sound.inv_of_due rfl hs ⟨hfr, hafter, hst, hpl, hp⟩
  · exact State.inv_fail _ hs.stream
  · obtain ⟨hge, hle, _, _⟩ := hpl
    exact hc.inv hs ho.toStripOpen (ho.ge_start.trans (hge.trans hle))

/-- The block walk keeps the invariant (R181, R189). -/
theorem State.blockLoop_inv {s t : State} {fr : FrameRegs} {st : StripRegs} {vp : VectorRegs} (hs : s.Sound)
    (ho : ChunkOpen s.length s.cursor fr st) (hpl : vp.pl.Good st) (hx : vp.bx % 4 = 0) (hy : vp.by_ % 4 = 0)
    (h : s.blockLoop fr st vp = .next t) : t.Inv := by
  rcases State.blockLoop_next h with ⟨hby, hbx, rfl⟩ | ⟨_, hc⟩ | ⟨_, _, rfl⟩
  · obtain ⟨hfr, hafter, hst⟩ := chunkOpen_iff.mp ho
    exact State.Sound.inv_of_due rfl hs ⟨hfr, hafter, hst, hpl, hx, hy, hbx, hby⟩
  · obtain ⟨hge, hle, _, _⟩ := hpl
    exact hc.inv hs ho.toStripOpen (ho.ge_start.trans (hge.trans hle))
  · exact State.inv_fail _ hs.stream

/-- The block after a block on the 4-pixel grid is on it (R181). -/
theorem State.Sound.nextBlock_aligned {s : State} (hs : s.Sound) (fr : FrameRegs) {vp : VectorRegs} (hx : vp.bx % 4 = 0)
    (hy : vp.by_ % 4 = 0) : (s.nextBlock fr vp).bx % 4 = 0 ∧ (s.nextBlock fr vp).by_ % 4 = 0 := by
  obtain ⟨⟨hx0, _⟩, _⟩ := hs.slots fr.i
  unfold State.nextBlock
  split
  · exact ⟨by simpa using hx, hy⟩
  · exact ⟨hx0, by simpa using hy⟩

/-- A block of n index bytes inside the payload keeps the invariant. -/
theorem State.blockDone_inv {s t : State} {fr : FrameRegs} {st : StripRegs} {vp : VectorRegs} {n : Nat} (hs : s.Sound)
    (ho : ChunkOpen s.length s.cursor fr st) (hpl : vp.pl.Good st) (hn : vp.pl.p + n ≤ vp.pl.E) (hx : vp.bx % 4 = 0)
    (hy : vp.by_ % 4 = 0) (h : s.blockDone fr st vp n = .next t) : t.Inv := by
  obtain ⟨hx', hy'⟩ := hs.nextBlock_aligned fr hx hy
  obtain ⟨hge, _, hE, hleft⟩ := hpl
  have hpl' : Payload.Good { vp.pl with p := vp.pl.p + n } st := ⟨Nat.le_add_right_of_le hge, hn, hE, hleft⟩
  exact State.blockLoop_inv (vp := { s.nextBlock fr vp with pl := { vp.pl with p := vp.pl.p + n } }) hs ho hpl' hx' hy' h

/-! ## Records -/

/-- What a record needs of the registers it runs with: as where it was due, but that the mask word taken for a group may
have used up its payload. -/
def State.DueOpen (s : State) (due : Due) : Prop :=
  match due with
  | .frame => s.DueGood .frame
  | .strip fr => s.DueGood (.strip fr)
  | .chunk fr st => ChunkOpen s.length s.cursor fr st
  | .group fr st cb => ChunkOpen s.length s.cursor fr st ∧ cb.pl.Good st
  | .block fr st vp => ChunkOpen s.length s.cursor fr st ∧ vp.pl.Good st ∧ vp.bx % 4 = 0 ∧ vp.by_ % 4 = 0

theorem State.DueGood.dueOpen {s : State} {due : Due} (h : s.DueGood due) : s.DueOpen due := by
  cases due with
  | frame | strip => exact h
  | chunk => exact chunkOpen_iff.mpr h
  | group =>
    obtain ⟨hfr, hafter, hst, hpl, _⟩ := h
    exact ⟨chunkOpen_iff.mpr ⟨hfr, hafter, hst⟩, hpl⟩
  | block =>
    obtain ⟨hfr, hafter, hst, hpl, hx, hy, _⟩ := h
    exact ⟨chunkOpen_iff.mpr ⟨hfr, hafter, hst⟩, hpl, hx, hy⟩

/-- A state in which a fetched record runs. -/
structure State.RecordReady (s : State) : Prop where
  sound : s.Sound
  due : ∀ {due}, s.fsm = .decoding due → s.DueOpen due

theorem State.frameHeader_inv {s t : State} {inter : Bool} {flen : BitVec 24} {width height nstrips : U16}
    (hs : s.Sound) (h : s.frameHeader inter flen width height nstrips = .next t) : t.Inv := by
  obtain ⟨_, ⟨k, _, rfl⟩ | ⟨hmin, hfit, ⟨_, rfl⟩ | ⟨hpos, hmax, rfl⟩⟩⟩ := State.frameHeader_next h
  · exact State.inv_fail k hs.stream
  · exact State.inv_finishFrame hs (by dsimp only; omega)
  · exact State.Sound.inv_of_due rfl hs
      ⟨⟨hfit, flen.isLt, hmax, hpos⟩, Nat.lt_add_of_pos_right (by decide), Nat.add_le_add_left hmin _⟩

theorem State.stripHeader_inv {s t : State} {slen py0 px0 py1 px1 : U16} (hs : s.RecordReady)
    (h : s.stripHeader slen py0 px0 py1 px1 = .next t) : t.Inv := by
  obtain ⟨fr, hf, rfl | ⟨b, ha, hb, hfit, hc⟩⟩ := State.stripHeader_next h
  · exact State.inv_fail _ hs.sound.stream
  · obtain ⟨hfr, hafter, _⟩ := hs.due hf
    exact hc.inv (hs.sound.setSlot fr.i (hs.sound.headedSlot fr ha hb)) ⟨hfr, hafter, rfl, hfit⟩ (Nat.le_add_right _ _)

/-- A chunk header keeps the invariant where what it opens does. -/
theorem State.openChunk_inv {s t : State} {clen : U16} {body : FrameRegs → StripRegs → Payload → Outcome}
    (hs : s.RecordReady)
    (hbody : ∀ fr st pl, ChunkOpen s.length s.cursor fr st → pl.Good st → body fr st pl = .next t → t.Inv)
    (h : s.openChunk clen body = .next t) : t.Inv := by
  obtain ⟨fr, st, hf, rfl | ⟨hmin, hfit, h⟩⟩ := State.openChunk_next h
  · exact State.inv_fail _ hs.sound.stream
  · exact hbody fr st _ (hs.due hf)
      ⟨Nat.le_add_right _ _, Nat.add_le_add_left hmin _, hfit, Nat.zero_le _⟩ h

theorem State.openCodebook_inv {s t : State} {target : Target} {bpp12 selective : Bool} {clen : U16}
    (hs : s.RecordReady) (h : s.openCodebook target bpp12 selective clen = .next t) : t.Inv :=
  State.openChunk_inv hs (fun _ _ _ ho hpl h => State.codebookLoop_inv hs.sound ho hpl h) h

theorem State.openVector_inv {s t : State} {kind : VecKind} {clen : U16} (hs : s.RecordReady)
    (h : s.openVector kind clen = .next t) : t.Inv := by
  refine State.openChunk_inv hs (fun fr st pl ho hpl h => ?_) h
  obtain ⟨⟨hx, _, hy, _⟩, _⟩ := hs.sound.slots fr.i
  exact State.blockLoop_inv hs.sound ho hpl hx hy h

/-- A group of plain colours keeps the invariant (R153). -/
theorem State.decodeGroup_inv {s t : State} {fr : FrameRegs} {st : StripRegs} {cb : CodebookRegs} {n : Nat} {e : Entry}
    (hs : s.RecordReady) (hf : s.fsm = .decoding (.group fr st cb)) (he : e.plain)
    (h : s.decodeGroup fr st cb n e = .next t) : t.Inv := by
  obtain rfl | ⟨hk, hfit, h⟩ := State.decodeGroup_next h
  · exact State.inv_fail _ hs.sound.stream
  · obtain ⟨ho, hge, _, hE, hleft⟩ := hs.due hf
    have hpl : Payload.Good { cb.pl with p := cb.pl.p + n } st := ⟨Nat.le_add_right_of_le hge, hfit, hE, hleft⟩
    exact State.codebookLoop_inv (cb := { cb with k := cb.k + 1, pl := { cb.pl with p := cb.pl.p + n } })
      (hs.sound.setSlot fr.i ((hs.sound.slots fr.i).writeEntry cb.target hk he)) ho hpl h

theorem execGskip_inv {s t : State} (hs : s.RecordReady) (h : execGskip s = .next t) : t.Inv := by
  obtain ⟨fr, st, cb, hf, rfl | h⟩ := execGskip_next h
  · exact State.inv_fail _ hs.sound.stream
  · obtain ⟨ho, hpl⟩ := hs.due hf
    exact State.codebookLoop_inv (cb := { cb with k := cb.k + 1 }) hs.sound ho hpl h

/-- Drawing the due block leaves the memories and slots good (R46, R173). -/
theorem State.DrewDueBlock.sound {s u : State} {fr : FrameRegs} {vp : VectorRegs} (h : s.DrewDueBlock u fr vp)
    (hs : s.Sound) : u.Sound := by
  obtain ⟨⟨_, _, hstream, hlength, _⟩, _, hslots, colour, hx, hfb, hplain⟩ := h
  refine ⟨?_, ?_, hslots ▸ hs.slots⟩
  · unfold State.StreamGood
    rw [hstream, hlength]
    exact hs.stream
  · unfold State.FramebufferGood
    rw [hfb]
    exact Framebuffer.good_setBlock _ hs.fb hx (hplain (hs.slots fr.i))

/-- A block code that fails or draws the due block keeps the invariant. -/
theorem State.drewDueBlock_inv {s t : State} {fr : FrameRegs} {st : StripRegs} {vp : VectorRegs} (hs : s.RecordReady)
    (hf : s.fsm = .decoding (.block fr st vp))
    (h : t = s.fail .invalidData ∨
      ∃ u n, vp.pl.p + n ≤ vp.pl.E ∧ s.DrewDueBlock u fr vp ∧ u.blockDone fr st vp n = .next t) : t.Inv := by
  obtain rfl | ⟨u, n, hfit, hu, h⟩ := h
  · exact State.inv_fail _ hs.sound.stream
  · obtain ⟨ho, hpl, hx, hy⟩ := hs.due hf
    obtain ⟨_, _, _, hlength, _⟩ := hu.context
    exact State.blockDone_inv (hu.sound hs.sound) (by rwa [hlength, hu.cursor]) hpl hfit hx hy h

/-- Every record that runs where it was fetched leaves the invariant. -/
theorem runRecord_inv {i : Instr} {s t : State} (hs : s.RecordReady) (h : runRecord i s = .next t) : t.Inv := by
  cases i with
  | frameIntra | frameInter => exact State.frameHeader_inv hs.sound h
  | stripIntra | stripInter => exact State.stripHeader_inv hs h
  | cbV412Full | cbV412Sel | cbV112Full | cbV112Sel | cbV48Full | cbV48Sel | cbV18Full | cbV18Sel =>
    exact State.openCodebook_inv hs h
  | vecMixed | vecDelta | vecUniform => exact State.openVector_inv hs h
  | g8 => obtain ⟨_, _, _, _, _, hf, he, h⟩ := execG8_next h; exact State.decodeGroup_inv hs hf he h
  | g12 => obtain ⟨_, _, _, _, _, hf, he, h⟩ := execG12_next h; exact State.decodeGroup_inv hs hf he h
  | gskip => exact execGskip_inv hs h
  | buV1 | bmV1 | bcV1 =>
    obtain ⟨_, _, _, hf, h⟩ := State.inBlock_next h
    exact State.drewDueBlock_inv hs hf (State.placeV1_next h)
  | bmV4 | bcV4 =>
    obtain ⟨_, _, _, hf, h⟩ := State.inBlock_next h
    exact State.drewDueBlock_inv hs hf (State.placeV4_next h)
  | bcSkip =>
    obtain ⟨_, _, _, hf, h⟩ := State.inBlock_next h
    obtain ⟨ho, ⟨hge, hle, hE, hleft⟩, hx, hy⟩ := hs.due hf
    exact State.blockDone_inv hs.sound ho ⟨hge, hle, hE, hleft⟩ hle hx hy h
  | ct | bwV1 | bwV4 | init | hasNext | decodeFrame | fbView => cases h

/-! ## The fetch -/

/-- Taking a mask bit leaves the payload registers inside the chunk (R183). -/
theorem State.nextBit_good {s : State} {st : StripRegs} {pl pl' : Payload} {b : Bool} (h : s.nextBit pl = .bit b pl')
    (hpl : pl.Good st) : pl'.Good st := by
  obtain ⟨hge, hle, hE, hleft⟩ := hpl
  rcases State.nextBit_bit h with ⟨_, _, rfl⟩ | ⟨_, hword, _, _, _, rfl⟩
  · exact ⟨hge, hle, hE, (Nat.sub_le _ _).trans hleft⟩
  · exact ⟨Nat.le_add_right_of_le hge, hword, hE, Nat.le_succ 31⟩

theorem BitsTaken.good {s : State} {st : StripRegs} {pl pl' : Payload} (h : BitsTaken s pl pl') (hpl : pl.Good st) :
    pl'.Good st := by
  induction h with
  | zero => exact hpl
  | more hb _ ih => exact ih (State.nextBit_good hb hpl)

/-- A record fetched where the invariant holds runs in a state that is ready for it. -/
theorem Fetches.recordReady {s t : State} {due : Due} {i : Instr} (h : Fetches s due i t) (hf : s.fsm = .decoding due)
    (hs : s.Sound) (hd : s.DueOpen due) : t.RecordReady := by
  have hready : s.RecordReady := ⟨hs, fun hf' => by cases hf.symm.trans hf'; exact hd⟩
  cases h with
  | frameIntra | frameInter | stripIntra | stripInter | chunk | group => exact hready
  | maskedGroup _ _ _ hb | gskip _ _ _ hb =>
    obtain ⟨ho, hpl⟩ := hd
    exact ⟨hs, fun hf' => by cases hf'; exact ⟨ho, State.nextBit_good hb hpl⟩⟩
  | block hb =>
    obtain ⟨ho, hpl, hx, hy⟩ := hd
    exact ⟨hs, fun hf' => by cases hf'; exact ⟨ho, hb.good hpl, hx, hy⟩⟩

/-- A record step keeps the invariant. -/
theorem recordStep_inv {due : Due} {s t : State} (hf : s.fsm = .decoding due) (hs : s.Inv)
    (h : recordStep due s = .next t) : t.Inv := by
  obtain ⟨hsound, hdue⟩ := (State.inv_decoding hf).mp hs
  have hopen := hdue.dueOpen
  unfold recordStep at h
  split at h
  · rename_i i u hfetch
    exact runRecord_inv ((State.fetch_run hfetch).recordReady hf hsound hopen) h
  · rename_i o hfetch
    subst h
    rcases State.fetch_halt_next hfetch with ⟨_, rfl⟩ | ⟨fr, st, cb, rfl, _, hloop⟩
    · exact State.inv_fail _ hsound.stream
    · obtain ⟨ho, hpl⟩ := hopen
      exact State.codebookLoop_inv hsound ho hpl hloop

/-! ## The host's commands -/

theorem runFrame_inv {n : Nat} {s t : State} (h : runFrame n s = .next t) : s.Inv → t.Inv :=
  runFrame_induction (P := fun s t => s.Inv → t.Inv) (fun _ h => h)
    (fun hf hr hu hs => hu (recordStep_inv hf hs hr)) h

/-- An idle state that meets the invariant has sound memories and slots, and its cursor is inside the stream (R31). -/
theorem State.Inv.idle {s : State} (h : s.Inv) (hf : s.fsm = .ready ∨ s.fsm = .exhausted) :
    s.Sound ∧ s.cursor ≤ s.length := by
  rcases hf with hf | hf
  · exact ((State.inv_ready hf).mp h).imp_right Nat.le_of_lt
  · exact ((State.inv_exhausted hf).mp h).imp_right Nat.le_of_eq

/-- DECODE_FRAME before the end of the stream starts with a frame header due inside it (R220). -/
theorem execDecodeFrame_inv {s t : State} (hs : s.Inv) (h : execDecodeFrame s = .next t) : t.Inv := by
  obtain ⟨hidle, ⟨_, rfl⟩ | ⟨hne, hrun⟩⟩ := execDecodeFrame_next h
  · exact hs
  · obtain ⟨hsound, hle⟩ := hs.idle hidle
    exact runFrame_inv hrun ((State.inv_decoding (State.beginFrame_fsm s)).mpr
      ⟨hsound, Nat.lt_of_le_of_ne hle hne⟩)

/-- Every command of the host keeps the invariant. -/
theorem hostCommand_inv {c : HostCmd} {s t : State} (hs : s.Inv) (h : exec c.instr s = .next t) : t.Inv := by
  cases c with
  | init stream n => obtain ⟨_, _, rfl⟩ := execInit_next.mp h; exact s.inv_bind stream n
  | hasNext => obtain ⟨_, rfl⟩ := execHasNext_next h; exact hs
  | decodeFrame => exact execDecodeFrame_inv hs h
  | fbView => obtain ⟨_, rfl⟩ := execFbView_next h; exact hs

/-- Settles O53: while a frame is decoded the step is a record step, which keeps the invariant; else it is idle or issues a
command, and DECODE_FRAME keeps the invariant by induction over its records. -/
theorem stepKeepsInvariant : Obligations.StepKeepsInvariant := by
  unfold Obligations.StepKeepsInvariant
  intro s t hs h
  by_cases hd : ∃ due, s.fsm = .decoding due
  · obtain ⟨due, hf⟩ := hd
    exact recordStep_inv hf hs (step_decoding hf ▸ h)
  · unfold step at h
    split at h
    · rename_i due hf; exact absurd ⟨due, hf⟩ hd
    · split at h
      · cases h; exact hs
      · rename_i c rest _
        exact hostCommand_inv (s := { s with cmds := rest }) hs h

end Sys2Proof.Machine

/-!
PROOFS. What a record may write: a strip header or a group its own slot, a block code the framebuffer, every other record
neither (R37, R39, R173, R205).
-/

namespace Sys2Proof.Machine

/-! ## Where a frame stands -/

/-- The registers of the frame whose record is due; none before its header. -/
def Due.regs (due : Due) : Option FrameRegs :=
  match due with
  | .frame => none
  | .strip fr => some fr
  | .chunk fr _ => some fr
  | .group fr _ _ => some fr
  | .block fr _ _ => some fr

/-- The registers of the same frame, at the same strip or at another one below the strip count. -/
structure FrameRegs.SameFrame (fr fr' : FrameRegs) : Prop where
  start : fr'.F = fr.F
  length : fr'.flen = fr.flen
  strips : fr'.nstrips = fr.nstrips
  counted : fr.i.val < fr.nstrips → fr'.i.val < fr'.nstrips

theorem FrameRegs.SameFrame.refl (fr : FrameRegs) : fr.SameFrame fr := ⟨rfl, rfl, rfl, id⟩

theorem FrameRegs.SameFrame.trans {fr fr' fr'' : FrameRegs} (h : fr.SameFrame fr') (h' : fr'.SameFrame fr'') :
    fr.SameFrame fr'' :=
  ⟨h'.start.trans h.start, h'.length.trans h.length, h'.strips.trans h.strips, fun hi => h'.counted (h.counted hi)⟩

/-- A frame that goes on with one of its records due, or that has ended at its declared end (R229, R230). -/
inductive State.WithinFrame (fr : FrameRegs) (t : State) : Prop where
  | due {due : Due} {fr' : FrameRegs} (hf : t.fsm = .decoding due) (hr : due.regs = some fr') (hs : fr.SameFrame fr')
  | done (hc : t.cursor = fr.F + fr.flen) (hf : t.fsm = idleFsm t.cursor t.length)

theorem State.WithinFrame.of_sameFrame {fr fr' : FrameRegs} {t : State} (hs : fr.SameFrame fr')
    (h : t.WithinFrame fr') : t.WithinFrame fr := by
  cases h with
  | due hf hr hs' => exact .due hf hr (hs.trans hs')
  | done hc hf => exact .done (by rw [hc, hs.start, hs.length]) hf

/-- What follows a record that has made its writes in u: an error, or the frame goes on or ends with u's slots and
framebuffer. -/
inductive State.Follows (u : State) (fr : FrameRegs) (t : State) : Prop where
  | failed (hf : t.fsm = .failed) (he : t.err ≠ .ok)
  | onward (hs : t.slots = u.slots) (hb : t.fb = u.fb) (hw : t.WithinFrame fr)

theorem State.follows_fail (s u : State) (fr : FrameRegs) : u.Follows fr (s.fail .invalidData) :=
  .failed rfl (by simp)

theorem ChunkNext.follows {s t : State} {fr : FrameRegs} {st : StripRegs} {c : Nat} (h : ChunkNext s fr st c t) :
    s.Follows fr t := by
  cases h with
  | chunk => exact .onward rfl rfl (.due rfl rfl (.refl fr))
  | strip _ hn => exact .onward rfl rfl (.due rfl rfl ⟨rfl, rfl, rfl, fun _ => hn⟩)
  | done _ _ he => exact .onward rfl rfl (.done he rfl)
  | fail => exact State.follows_fail ..

theorem State.codebookLoop_follows {s t : State} {fr : FrameRegs} {st : StripRegs} {cb : CodebookRegs}
    (h : s.codebookLoop fr st cb = .next t) : s.Follows fr t := by
  rcases State.codebookLoop_next h with ⟨_, rfl⟩ | ⟨_, _, _, _, rfl⟩ | ⟨_, _, hc⟩
  · exact .onward rfl rfl (.due rfl rfl (.refl fr))
  · exact State.follows_fail ..
  · exact hc.follows

theorem State.blockLoop_follows {s t : State} {fr : FrameRegs} {st : StripRegs} {vp : VectorRegs}
    (h : s.blockLoop fr st vp = .next t) : s.Follows fr t := by
  rcases State.blockLoop_next h with ⟨_, _, rfl⟩ | ⟨_, hc⟩ | ⟨_, _, rfl⟩
  · exact .onward rfl rfl (.due rfl rfl (.refl fr))
  · exact hc.follows
  · exact State.follows_fail ..

/-! ## A record's writes -/

/-- The writes of a record inside a strip of a frame: no slot but the strip's, no slot and no pixel where the record is none
that writes them. -/
structure State.Wrote (i : Instr) (fr : FrameRegs) (s u : State) : Prop where
  otherSlots : ∀ j : Fin 32, j ≠ fr.i → u.slots[j.val] = s.slots[j.val]
  slots : Instr.writesSlots i = false → u.slots = s.slots
  fb : Instr.writesPixels i = false → u.fb = s.fb

theorem State.Wrote.refl (i : Instr) (fr : FrameRegs) (s : State) : State.Wrote i fr s s :=
  ⟨fun _ _ => rfl, fun _ => rfl, fun _ => rfl⟩

theorem State.wrote_setSlot {i : Instr} (hi : Instr.writesSlots i = true) (fr : FrameRegs) (s : State) (sl : Slot) :
    State.Wrote i fr s (s.setSlot fr.i sl) := by
  refine ⟨fun j hj => ?_, fun h => by simp [hi] at h, fun _ => rfl⟩
  have hne : fr.i.val ≠ j.val := fun h => hj (Fin.ext h.symm)
  simp [hne]

theorem State.DrewDueBlock.wrote {i : Instr} (hi : Instr.writesPixels i = true) {fr : FrameRegs} {vp : VectorRegs}
    {s u : State} (h : s.DrewDueBlock u fr vp) : State.Wrote i fr s u :=
  ⟨fun _ _ => by rw [h.slots], fun _ => h.slots, fun h => by simp [hi] at h⟩

/-- What a record answers, by where it is due: a frame header writes no slot and no pixel unless it fails; a record inside a
strip makes its writes, which an error or the frame's next record follows. -/
inductive RecordNext (i : Instr) (s t : State) : Prop where
  | header (hf : s.fsm = .decoding .frame) (h : t.fsm = .failed ∨ t.slots = s.slots ∧ t.fb = s.fb)
  | body {due : Due} {fr : FrameRegs} {u : State} (hf : s.fsm = .decoding due) (hr : due.regs = some fr)
      (hw : State.Wrote i fr s u) (h : u.Follows fr t)

/-- A record that fails before it writes. -/
theorem RecordNext.fail {i : Instr} {s : State} {due : Due} {fr : FrameRegs} (hf : s.fsm = .decoding due)
    (hr : due.regs = some fr) : RecordNext i s (s.fail .invalidData) :=
  .body hf hr (.refl i fr s) (State.follows_fail ..)

theorem State.frameHeader_recordNext {i : Instr} {s t : State} {inter : Bool} {flen : BitVec 24}
    {width height nstrips : U16} (h : s.frameHeader inter flen width height nstrips = .next t) : RecordNext i s t := by
  obtain ⟨hf, ⟨_, _, rfl⟩ | ⟨_, _, ⟨_, rfl⟩ | ⟨_, _, rfl⟩⟩⟩ := State.frameHeader_next h
  · exact .header hf (.inl rfl)
  · exact .header hf (.inr ⟨rfl, rfl⟩)
  · exact .header hf (.inr ⟨rfl, rfl⟩)

theorem State.stripHeader_recordNext {i : Instr} (hi : Instr.writesSlots i = true) {s t : State}
    {slen py0 px0 py1 px1 : U16} (h : s.stripHeader slen py0 px0 py1 px1 = .next t) : RecordNext i s t := by
  obtain ⟨fr, hf, rfl | ⟨_, _, _, _, hc⟩⟩ := State.stripHeader_next h
  · exact .fail hf rfl
  · exact .body hf rfl (State.wrote_setSlot hi fr s _) hc.follows

theorem State.openChunk_recordNext {i : Instr} {s t : State} {clen : U16}
    {body : FrameRegs → StripRegs → Payload → Outcome}
    (hbody : ∀ fr st pl, body fr st pl = .next t → s.Follows fr t) (h : s.openChunk clen body = .next t) :
    RecordNext i s t := by
  obtain ⟨fr, st, hf, rfl | ⟨_, _, h⟩⟩ := State.openChunk_next h
  · exact .fail hf rfl
  · exact .body hf rfl (.refl i fr s) (hbody _ _ _ h)

theorem State.decodeGroup_recordNext {i : Instr} (hi : Instr.writesSlots i = true) {s t : State} {fr : FrameRegs}
    {st : StripRegs} {cb : CodebookRegs} {n : Nat} {e : Entry} (hf : s.fsm = .decoding (.group fr st cb))
    (h : s.decodeGroup fr st cb n e = .next t) : RecordNext i s t := by
  obtain rfl | ⟨_, _, h⟩ := State.decodeGroup_next h
  · exact .fail hf rfl
  · exact .body hf rfl (State.wrote_setSlot hi fr s _) (State.codebookLoop_follows h)

theorem execGskip_recordNext {i : Instr} {s t : State} (h : execGskip s = .next t) : RecordNext i s t := by
  obtain ⟨fr, st, cb, hf, rfl | h⟩ := execGskip_next h
  · exact .fail hf rfl
  · exact .body hf rfl (.refl i fr s) (State.codebookLoop_follows h)

/-- A block code that fails or draws the due block. -/
theorem State.drewDueBlock_recordNext {i : Instr} (hi : Instr.writesPixels i = true) {s t : State} {fr : FrameRegs}
    {st : StripRegs} {vp : VectorRegs} (hf : s.fsm = .decoding (.block fr st vp))
    (h : t = s.fail .invalidData ∨
      ∃ u n, vp.pl.p + n ≤ vp.pl.E ∧ s.DrewDueBlock u fr vp ∧ u.blockDone fr st vp n = .next t) : RecordNext i s t := by
  obtain rfl | ⟨u, n, _, hu, h⟩ := h
  · exact .fail hf rfl
  · exact .body hf rfl (hu.wrote hi) (State.blockLoop_follows h)

/-- Every record's answer. -/
theorem runRecord_next {i : Instr} {s t : State} (h : runRecord i s = .next t) : RecordNext i s t := by
  cases i with
  | frameIntra | frameInter => exact State.frameHeader_recordNext h
  | stripIntra | stripInter => exact State.stripHeader_recordNext rfl h
  | cbV412Full | cbV412Sel | cbV112Full | cbV112Sel | cbV48Full | cbV48Sel | cbV18Full | cbV18Sel =>
    exact State.openChunk_recordNext (fun _ _ _ h => State.codebookLoop_follows h) h
  | vecMixed | vecDelta | vecUniform => exact State.openChunk_recordNext (fun _ _ _ h => State.blockLoop_follows h) h
  | g8 => obtain ⟨_, _, _, _, _, hf, _, h⟩ := execG8_next h; exact State.decodeGroup_recordNext rfl hf h
  | g12 => obtain ⟨_, _, _, _, _, hf, _, h⟩ := execG12_next h; exact State.decodeGroup_recordNext rfl hf h
  | gskip => exact execGskip_recordNext h
  | buV1 | bmV1 | bcV1 =>
    obtain ⟨_, _, _, hf, h⟩ := State.inBlock_next h
    exact State.drewDueBlock_recordNext rfl hf (State.placeV1_next h)
  | bmV4 | bcV4 =>
    obtain ⟨_, _, _, hf, h⟩ := State.inBlock_next h
    exact State.drewDueBlock_recordNext rfl hf (State.placeV4_next h)
  | bcSkip =>
    obtain ⟨fr, _, _, hf, h⟩ := State.inBlock_next h
    exact .body hf rfl (.refl _ fr s) (State.blockLoop_follows h)
  | ct | bwV1 | bwV4 | init | hasNext | decodeFrame | fbView => cases h

/-! ## Slots and pixels over all instructions -/

/-- Slots and framebuffer are as before where the instruction is none that writes them. -/
def State.WritesAllowed (i : Instr) (s t : State) : Prop :=
  (Instr.writesSlots i = false → t.slots = s.slots) ∧ (Instr.writesPixels i = false → t.fb = s.fb)

theorem State.writesAllowed_of_kept {i : Instr} {s t : State} (hs : t.slots = s.slots) (hb : t.fb = s.fb) :
    State.WritesAllowed i s t :=
  ⟨fun _ => hs, fun _ => hb⟩

/-- A record that does not fail writes what its kind allows; it runs while a frame is decoded, so before it nothing had
failed. -/
theorem RecordNext.writesAllowed {i : Instr} {s t : State} (h : RecordNext i s t)
    (hfail : t.fsm = .failed → s.fsm = .failed) : State.WritesAllowed i s t := by
  cases h with
  | header hf h =>
    rcases h with hft | ⟨hs, hb⟩
    · cases hf.symm.trans (hfail hft)
    · exact State.writesAllowed_of_kept hs hb
  | body hf _ hw h =>
    cases h with
    | failed hft => cases hf.symm.trans (hfail hft)
    | onward hs hb => exact ⟨fun hi => hs.trans (hw.slots hi), fun hi => hb.trans (hw.fb hi)⟩

/-- A block write by itself writes no slot. -/
theorem State.blockWrite_slots {s t : State} {x y : Nat} {colour : Nat → Nat → Colour}
    (h : s.blockWrite x y colour = .next t) : t.slots = s.slots := by
  unfold State.blockWrite at h
  split at h
  · rename_i u hu; cases h; obtain ⟨_, _, rfl⟩ := State.writeBlock_some hu; rfl
  · cases h

/-- Every instruction that does not fail writes what its kind allows. -/
theorem exec_writesAllowed {i : Instr} {s t : State} (h : exec i s = .next t) (hfail : t.fsm = .failed → s.fsm = .failed) :
    State.WritesAllowed i s t := by
  cases i with
  | init | decodeFrame => exact ⟨nofun, nofun⟩
  | hasNext => obtain ⟨_, rfl⟩ := execHasNext_next h; exact State.writesAllowed_of_kept rfl rfl
  | fbView => obtain ⟨_, rfl⟩ := execFbView_next h; exact State.writesAllowed_of_kept rfl rfl
  | ct => cases h; exact State.writesAllowed_of_kept rfl rfl
  | bwV1 | bwV4 => exact ⟨fun _ => State.blockWrite_slots h, nofun⟩
  | _ => exact (runRecord_next ((runRecord_eq_exec rfl s).trans h)).writesAllowed hfail

/-- Settles O49: of the records only a block code that draws the due block changes the framebuffer. -/
theorem pixelsWrittenByBlocksOnly : Obligations.PixelsWrittenByBlocksOnly := by
  unfold Obligations.PixelsWrittenByBlocksOnly
  intro i s t h hfail hi
  exact (exec_writesAllowed h hfail).2 hi

/-- Settles O50: of the records only a strip header and a group set a slot. -/
theorem slotsWrittenByStripsAndGroupsOnly : Obligations.SlotsWrittenByStripsAndGroupsOnly := by
  unfold Obligations.SlotsWrittenByStripsAndGroupsOnly
  intro i s t h hfail hi
  exact (exec_writesAllowed h hfail).1 hi

end Sys2Proof.Machine

/-!
PROOFS. A DECODE_FRAME that answers `Ok` has run one frame from its header to its declared end, through strips below its
strip count (R37, R216, R229, R230, R236).
-/

namespace Sys2Proof.Machine

/-! ## The records of a frame -/

/-- A fetch inside a frame writes no slot and leaves the frame's registers. -/
theorem Fetches.regs_slots {s t : State} {due : Due} {i : Instr} (h : Fetches s due i t) (hf : s.fsm = .decoding due) :
    (∃ due', t.fsm = .decoding due' ∧ due'.regs = due.regs) ∧ t.slots = s.slots := by
  cases h with
  | frameIntra | frameInter | stripIntra | stripInter | chunk | group => exact ⟨⟨_, hf, rfl⟩, rfl⟩
  | maskedGroup | gskip | block => exact ⟨⟨_, rfl, rfl⟩, rfl⟩

/-- A record step inside a frame: no slot but the due strip's is written before an error or the frame's next record
follows. -/
theorem recordStep_follows {due : Due} {fr : FrameRegs} {s t : State} (hf : s.fsm = .decoding due)
    (hr : due.regs = some fr) (h : recordStep due s = .next t) :
    ∃ u : State, (∀ j : Fin 32, j ≠ fr.i → u.slots[j.val] = s.slots[j.val]) ∧ u.Follows fr t := by
  unfold recordStep at h
  split at h
  · rename_i i v hfetch
    obtain ⟨⟨due', hf', hregs⟩, hslots⟩ := (State.fetch_run hfetch).regs_slots hf
    rw [hr] at hregs
    cases runRecord_next h with
    | header hv => cases hf'.symm.trans hv; cases hregs
    | body hv hr' hw hu =>
      cases hf'.symm.trans hv
      cases hregs.symm.trans hr'
      exact ⟨_, fun j hj => by rw [hw.otherSlots j hj, hslots], hu⟩
  · rename_i o hfetch
    subst h
    rcases State.fetch_halt_next hfetch with ⟨_, rfl⟩ | ⟨fr', st, cb, rfl, _, hloop⟩
    · exact ⟨s, fun _ _ => rfl, State.follows_fail ..⟩
    · cases hr
      exact ⟨s, fun _ _ => rfl, State.codebookLoop_follows hloop⟩

/-- A frame that began with registers fr in state s stands at t: it has failed, or it goes on or has ended well with every
slot from its strip count on as it was. -/
def State.FrameUnderway (fr : FrameRegs) (s t : State) : Prop :=
  (t.fsm = .failed ∧ t.err ≠ .ok) ∨
  (t.WithinFrame fr ∧ ∀ j : Fin 32, fr.nstrips ≤ j.val → t.slots[j.val] = s.slots[j.val])

/-- A frame with a record due and its slots not yet written is under way. -/
theorem State.frameUnderway_of_due {fr : FrameRegs} {due : Due} {s t : State} (hf : t.fsm = .decoding due)
    (hr : due.regs = some fr) (hs : t.slots = s.slots) : State.FrameUnderway fr s t :=
  .inr ⟨.due hf hr (.refl fr), fun _ _ => by rw [hs]⟩

theorem idleFsm_ne_decoding (cursor length : Nat) (due : Due) : idleFsm cursor length ≠ .decoding due := by
  unfold idleFsm
  split <;> exact nofun

/-- A record step goes on with its frame (R37). -/
theorem recordStep_underway {due : Due} {fr : FrameRegs} {s t u : State} (hi : fr.i.val < fr.nstrips)
    (hf : t.fsm = .decoding due) (h : recordStep due t = .next u) (ht : State.FrameUnderway fr s t) :
    State.FrameUnderway fr s u := by
  obtain ⟨hfailed, _⟩ | ⟨hwithin, hslots⟩ := ht
  · cases hf.symm.trans hfailed
  · cases hwithin with
    | done _ hidle => exact absurd (hidle.symm.trans hf) (idleFsm_ne_decoding _ _ _)
    | due hf' hr hsame =>
      cases hf.symm.trans hf'
      obtain ⟨v, hv, hfollows⟩ := recordStep_follows hf hr h
      cases hfollows with
      | failed hft he => exact .inl ⟨hft, he⟩
      | onward hs _ hw =>
        refine .inr ⟨hw.of_sameFrame hsame, fun j hj => ?_⟩
        have hbelow := hsame.counted hi
        have hstrips := hsame.strips
        rw [hs, hv j (fun he => by subst he; omega), hslots j hj]

/-- Record steps to a frame's end go on with it. -/
theorem runFrame_underway {fr : FrameRegs} (hi : fr.i.val < fr.nstrips) {n : Nat} {s t u : State}
    (h : runFrame n t = .next u) : State.FrameUnderway fr s t → State.FrameUnderway fr s u :=
  runFrame_induction (P := fun t u => State.FrameUnderway fr s t → State.FrameUnderway fr s u) (fun _ h => h)
    (fun hf hr hu ht => hu (recordStep_underway hi hf hr ht)) h

/-- The run of a frame whose record is due begins with that record's step. -/
theorem runFrame_decoding {n : Nat} {s t : State} {due : Due} (hf : s.fsm = .decoding due) (h : runFrame n s = .next t) :
    ∃ m u, recordStep due s = .next u ∧ runFrame m u = .next t := by
  unfold runFrame at h
  simp only [hf] at h
  split at h
  · cases h
  · rename_i m
    split at h
    · rename_i u hu; exact ⟨m, u, hu, h⟩
    · cases h
    · cases h

/-- Where no frame is being decoded there is nothing to run. -/
theorem runFrame_idle {n : Nat} {s t : State} (hf : ∀ due, s.fsm ≠ .decoding due) (h : runFrame n s = .next t) :
    t = s := by
  unfold runFrame at h
  split at h
  · rename_i due hd; exact absurd hd (hf due)
  · cases h; rfl

/-- A frame's run ends where no frame is being decoded. -/
theorem runFrame_ends {n : Nat} {s t : State} (h : runFrame n s = .next t) : ∀ due, t.fsm ≠ .decoding due := by
  induction n generalizing s with
  | zero =>
    unfold runFrame at h
    split at h
    · cases h
    · rename_i hs; cases h; exact hs
  | succ m ih =>
    unfold runFrame at h
    split at h
    · dsimp only at h
      split at h
      · exact ih h
      · cases h
      · cases h
    · rename_i hs; cases h; exact hs

/-! ## The frame header -/

/-- A frame header takes ten bytes (R102). -/
theorem decodeFrameHeader_length {bytes rest : List Byte} {i : Instr} (h : decodeFrameHeader bytes = .ok (i, rest)) :
    bytes.length = 10 + rest.length := by
  unfold decodeFrameHeader at h
  split at h
  · dsimp only at h
    split at h <;> cases h <;> simp only [List.length_cons] <;> omega
  · cases h

/-- One of the two frame records, with these fields. -/
def Instr.IsFrameHeader (i : Instr) (spare : BitVec 7) (flen : BitVec 24) (w h n : U16) : Prop :=
  i = .frameIntra spare flen w h n ∨ i = .frameInter spare flen w h n

/-- A frame record has one strip count. -/
theorem Instr.IsFrameHeader.nstrips_eq {i : Instr} {spare spare' : BitVec 7} {flen flen' : BitVec 24}
    {w h n w' h' n' : U16} (hi : Instr.IsFrameHeader i spare flen w h n)
    (hi' : Instr.IsFrameHeader i spare' flen' w' h' n') : n = n' := by
  rcases hi with rfl | rfl <;> rcases hi' with he | he <;> cases he <;> rfl

/-- A frame record is the frame header with its coding flag. -/
theorem Instr.IsFrameHeader.runRecord {i : Instr} {spare : BitVec 7} {flen : BitVec 24} {w h n : U16}
    (hi : Instr.IsFrameHeader i spare flen w h n) (s : State) :
    ∃ inter, runRecord i s = s.frameHeader inter flen w h n := by
  rcases hi with rfl | rfl
  · exact ⟨false, rfl⟩
  · exact ⟨true, rfl⟩

/-- Ten bytes that decode at the frame level are one frame record and nothing more. -/
theorem decode_frame_ok {l : List Byte} {d : Decoded} (hl : l.length = 10) (h : decode .frame [] l = .ok d) :
    d.bits = [] ∧ d.bytes = [] ∧ ∃ spare flen w ht n, Instr.IsFrameHeader d.instr spare flen w ht n := by
  obtain ⟨i, rest, hi, rfl⟩ := withBits_ok.mp h
  have hrest := decodeFrameHeader_length hi
  exact ⟨rfl, List.length_eq_zero_iff.mp (by dsimp only; omega), decodeFrameHeader_ok hi⟩

/-- Where a frame header is due, the record step fails or runs the frame header that stands at the cursor (R220, R221). -/
theorem recordStep_frame_next {s t : State} (h : recordStep .frame s = .next t) :
    t = s.fail .invalidData ∨
    ∃ l d spare flen w ht n inter, s.bytes s.cursor 10 = some l ∧ decode .frame [] l = .ok d ∧
      Instr.IsFrameHeader d.instr spare flen w ht n ∧ s.frameHeader inter flen w ht n = .next t := by
  unfold recordStep at h
  split at h
  · rename_i i v hfetch
    obtain ⟨_, rfl, l, d, hl, hd, rfl⟩ := State.fetchWithin_run hfetch
    obtain ⟨_, _, spare, flen, w, ht, n, hi⟩ := decode_frame_ok (State.bytes_length hl) hd
    obtain ⟨inter, hrun⟩ := hi.runRecord v
    exact .inr ⟨l, d, spare, flen, w, ht, n, inter, hl, hd, hi, hrun ▸ h⟩
  · rename_i o hfetch
    subst h
    exact .inl (State.fetchWithin_halt_next hfetch).2

/-! ## DECODE_FRAME -/

/-- A frame of declared length flen and n strips has been decoded from s to t. -/
structure State.FrameDone (s t : State) (flen n : Nat) : Prop where
  header : 10 ≤ flen
  fits : s.cursor + flen ≤ s.length
  cursor : t.cursor = s.cursor + flen
  fsm : t.fsm = idleFsm t.cursor t.length
  slots : ∀ j : Fin 32, n ≤ j.val → t.slots[j.val] = s.slots[j.val]

/-- A run that begins with a frame header and ends with `Ok` has decoded the header's frame. -/
theorem State.frameDone_of_frameHeader {s t u : State} {inter : Bool} {flen : BitVec 24} {w ht n : U16} {m : Nat}
    (hu : s.frameHeader inter flen w ht n = .next u) (hrun : runFrame m u = .next t) (hok : t.err = .ok) :
    s.FrameDone t flen.toNat n.toNat := by
  obtain ⟨_, ⟨k, hk, rfl⟩ | ⟨hmin, hfit, ⟨hten, rfl⟩ | ⟨hpos, _, rfl⟩⟩⟩ := State.frameHeader_next hu
  · cases runFrame_idle (fun _ => by simp) hrun
    exact absurd hok hk
  · cases runFrame_idle (fun due => idleFsm_ne_decoding _ _ due) hrun
    exact ⟨hmin, hfit, by rw [hten]; rfl, rfl, fun _ _ => rfl⟩
  · obtain ⟨_, he⟩ | ⟨hwithin, hslots⟩ := runFrame_underway hpos hrun (State.frameUnderway_of_due rfl rfl rfl)
    · exact absurd hok he
    · cases hwithin with
      | due hf => exact absurd hf (runFrame_ends hrun _)
      | done hc hf => exact ⟨hmin, hfit, hc, hf, hslots⟩

theorem State.byte_beginFrame (s : State) (a : Nat) : s.beginFrame.byte a = s.byte a := rfl

/-- The start of a frame leaves the stream. -/
@[simp] theorem State.bytes_beginFrame (s : State) (a n : Nat) : s.beginFrame.bytes a n = s.bytes a n := by
  induction n generalizing a with
  | zero => rfl
  | succ m ih => simp only [State.bytes, State.byte_beginFrame, ih]

/-- A DECODE_FRAME before the end of the stream that answers `Ok` has decoded the frame whose header stands at the
cursor. -/
theorem execDecodeFrame_ok {s t : State} (hne : s.cursor ≠ s.length) (h : execDecodeFrame s = .next t)
    (hok : t.err = .ok) :
    ∃ l d spare flen w ht n, s.bytes s.cursor 10 = some l ∧ decode .frame [] l = .ok d ∧
      Instr.IsFrameHeader d.instr spare flen w ht n ∧ s.FrameDone t flen.toNat n.toNat := by
  obtain ⟨_, ⟨he, _⟩ | ⟨_, hrun⟩⟩ := execDecodeFrame_next h
  · exact absurd he hne
  · obtain ⟨m, u, hstep, hrun⟩ := runFrame_decoding s.beginFrame_fsm hrun
    obtain rfl | ⟨l, d, spare, flen, w, ht, n, inter, hl, hd, hi, hu⟩ := recordStep_frame_next hstep
    · cases runFrame_idle (fun _ => by simp) hrun
      cases hok
    · obtain ⟨hmin, hfit, hcursor, hfsm, hslots⟩ := State.frameDone_of_frameHeader hu hrun hok
      exact ⟨l, d, spare, flen, w, ht, n, by simpa using hl, hd, hi, hmin, hfit, hcursor, hfsm, hslots⟩

/-- Settles O58: the frame's run keeps its registers, and it ends with `Ok` at the declared end only. -/
theorem frameConsumesDeclaredLength : Obligations.FrameConsumesDeclaredLength := by
  unfold Obligations.FrameConsumesDeclaredLength
  intro s t hne h hok
  obtain ⟨l, d, spare, flen, w, ht, n, hl, hd, hi, hdone⟩ := execDecodeFrame_ok hne h hok
  obtain ⟨hbits, hbytes, _⟩ := decode_frame_ok (State.bytes_length hl) hd
  obtain ⟨hmin, hfit, hcursor, hfsm, _⟩ := hdone
  refine ⟨l, spare, flen, w, ht, n, hl, hi.imp ?_ ?_, hcursor, by omega, by omega, hfsm⟩
  all_goals
    intro hinstr
    rw [hd, ← hinstr, ← hbits, ← hbytes]

/-- Settles O59: a frame's records write the slots of its strips alone, whose numbers are below its strip count. -/
theorem unusedSlotsKept : Obligations.UnusedSlotsKept := by
  unfold Obligations.UnusedSlotsKept
  intro s t l d spare flen w ht n hne h hok hl hd hi
  obtain ⟨l', d', _, _, _, _, n', hl', hd', hi', hdone⟩ := execDecodeFrame_ok hne h hok
  cases hl.symm.trans hl'
  cases hd.symm.trans hd'
  cases Instr.IsFrameHeader.nstrips_eq hi hi'
  exact hdone.slots

end Sys2Proof.Machine

/-!
PROOFS. The bits of a mask word in the order in which they are taken (R73, R109, R183).
-/

namespace Sys2Proof.Machine

/-- A word read for its first bit is a word in use with all 32 bits left (R183). -/
theorem State.nextBit_eq_of_be32 {s : State} {pl : Payload} {w : BitVec 32} (hleft : pl.left = 0)
    (hend : pl.p + 4 ≤ pl.E) (hw : s.be32 pl.p = some w) :
    s.nextBit pl = s.nextBit { pl with p := pl.p + 4, mask := w, left := 32 } := by
  simp [State.nextBit, hleft, hend, hw]

/-- While bits are left, the next one is the top bit of the mask register, which is shifted. -/
theorem State.nextBit_of_left {s : State} {pl : Payload} (hleft : pl.left ≠ 0) :
    s.nextBit pl = .bit pl.mask.msb { pl with mask := pl.mask <<< 1, left := pl.left - 1 } := by
  simp [State.nextBit, hleft]

/-- Taking the next bit and then n more. -/
theorem State.takeBits_succ {s : State} {n : Nat} {pl pl₁ pl₂ : Payload} {b : Bool} {bits : List Bool}
    (hb : s.nextBit pl = .bit b pl₁) (hn : s.takeBits n pl₁ = some (bits, pl₂)) :
    s.takeBits (n + 1) pl = some (b :: bits, pl₂) := by
  simp [State.takeBits, hb, hn]

/-- What is taken depends on the payload registers through the first bit alone. -/
theorem State.takeBits_succ_congr {s : State} {pl pl' : Payload} (n : Nat) (h : s.nextBit pl = s.nextBit pl') :
    s.takeBits (n + 1) pl = s.takeBits (n + 1) pl' := by
  simp only [State.takeBits, h]

/-- The bits of a word from bit 31 down: its top bit, then those of the word shifted left (R73). -/
theorem bitsFromTop_succ (w : BitVec 32) {n : Nat} (hn : n + 1 ≤ 32) :
    (List.range (n + 1)).map (fun j => w.getLsbD (31 - j)) =
      w.msb :: (List.range n).map (fun j => (w <<< 1).getLsbD (31 - j)) := by
  rw [List.range_succ_eq_map, List.map_cons, List.map_map, BitVec.msb_eq_getLsbD_last]
  congr 1
  refine List.map_congr_left fun j hj => ?_
  have hj : j < n := List.mem_range.mp hj
  have hin : 31 - j < 32 := by omega
  have hpos : ¬ 31 - j < 1 := by omega
  simp only [Function.comp_apply, BitVec.getLsbD_shiftLeft, hin, hpos, decide_true, decide_false, Bool.not_false,
    Bool.true_and]
  congr 1

/-- Bits that are left are taken from bit 31 of the mask register down, and no byte is read. -/
theorem State.takeBits_of_left {s : State} : ∀ {n : Nat} (pl : Payload), n ≤ pl.left → n ≤ 32 →
    s.takeBits n pl = some ((List.range n).map (fun j => pl.mask.getLsbD (31 - j)),
      { pl with mask := pl.mask <<< n, left := pl.left - n }) := by
  intro n
  induction n with
  | zero => intro pl _ _; simp [State.takeBits]
  | succ m ih =>
    intro pl hleft hn
    have hrest := ih { pl with mask := pl.mask <<< 1, left := pl.left - 1 } (by dsimp only; omega) (by omega)
    rw [State.takeBits_succ (State.nextBit_of_left (by omega)) hrest, bitsFromTop_succ pl.mask hn]
    simp only [← BitVec.shiftLeft_add, Nat.add_comm 1 m, Nat.sub_sub]

/-- Settles O5: the first bit reads the word, after which it is a word with all 32 bits left. -/
theorem maskBitsMsbFirst : Obligations.MaskBitsMsbFirst := by
  unfold Obligations.MaskBitsMsbFirst
  intro s pl w n hleft hend hw hpos hmax
  obtain ⟨m, rfl⟩ := Nat.exists_eq_add_of_le' hpos
  refine ⟨{ pl with p := pl.p + 4, mask := w <<< (m + 1), left := 32 - (m + 1) }, ?_, rfl, rfl, rfl, rfl⟩
  rw [State.takeBits_succ_congr m (State.nextBit_eq_of_be32 hleft hend hw)]
  exact State.takeBits_of_left { pl with p := pl.p + 4, mask := w, left := 32 } hmax hmax

end Sys2Proof.Machine

/-!
PROOFS. DECODE_FRAME is the run of the machine's own record steps (R80, R220, R245): the frame's run and the machine's run
take the same steps, and a run that has left its frame stays where it is.
-/

namespace Sys2Proof.Machine

/-- Either a record is due or no frame is being decoded. -/
theorem Fsm.decoding_or_idle (f : Fsm) : (∃ due, f = .decoding due) ∨ f.isDecoding = false := by
  cases f with
  | decoding due => exact .inl ⟨due, rfl⟩
  | _ => exact .inr rfl

/-- Where no frame is being decoded a frame's run is over. -/
theorem runFrame_of_idle {s : State} (n : Nat) (hf : s.fsm.isDecoding = false) : runFrame n s = .next s := by
  unfold runFrame
  split
  · rename_i hd; rw [hd] at hf; cases hf
  · rfl

/-- Where no frame is being decoded there is no record to run. -/
theorem recordRun_of_idle {s : State} (n : Nat) (hf : s.fsm.isDecoding = false) : recordRun n s = .next s := by
  cases n with
  | zero => rfl
  | succ m =>
    unfold recordRun
    split
    · rename_i hd; rw [hd] at hf; cases hf
    · rfl

/-- With no frame being decoded both runs end at once. -/
theorem runFrame_eq_next_iff_of_idle {n : Nat} {s t : State} (hf : s.fsm.isDecoding = false) :
    runFrame n s = .next t ↔ recordRun n s = .next t ∧ t.fsm.isDecoding = false := by
  rw [runFrame_of_idle n hf, recordRun_of_idle n hf]
  exact ⟨fun h => by cases h; exact ⟨rfl, hf⟩, And.left⟩

/-- The frame's run ends in t exactly when the machine's record steps reach t and no frame is being decoded there. -/
theorem runFrame_eq_next_iff {n : Nat} {s t : State} :
    runFrame n s = .next t ↔ recordRun n s = .next t ∧ t.fsm.isDecoding = false := by
  induction n generalizing s with
  | zero =>
    rcases s.fsm.decoding_or_idle with ⟨due, hf⟩ | hf
    · simp only [runFrame, hf, recordRun, reduceCtorEq, Host.Outcome.next.injEq, false_iff]
      rintro ⟨rfl, hidle⟩
      rw [hf] at hidle
      cases hidle
    · exact runFrame_eq_next_iff_of_idle hf
  | succ m ih =>
    rcases s.fsm.decoding_or_idle with ⟨due, hf⟩ | hf
    · rw [runFrame, recordRun]
      simp only [hf, step_decoding hf]
      cases recordStep due s with
      | next u => exact ih
      | fault r => simp
      | refused r => simp
    · exact runFrame_eq_next_iff_of_idle hf

/-- A run that has left its frame has the same end under every greater bound. -/
theorem recordRun_mono {m n : Nat} {s t : State} (hmn : m ≤ n) (h : recordRun m s = .next t)
    (ht : t.fsm.isDecoding = false) : recordRun n s = .next t := by
  induction m generalizing n s with
  | zero => cases h; exact recordRun_of_idle n ht
  | succ m ih =>
    obtain ⟨n, rfl⟩ := Nat.exists_eq_add_of_le' (Nat.le_of_add_left_le hmn)
    rcases s.fsm.decoding_or_idle with ⟨due, hf⟩ | hf
    · rw [recordRun] at h ⊢
      simp only [hf] at h ⊢
      cases hstep : step s with
      | next u => rw [hstep] at h; exact ih (Nat.le_of_succ_le_succ hmn) h
      | fault r => rw [hstep] at h; cases h
      | refused r => rw [hstep] at h; cases h
    · rw [recordRun_of_idle _ hf] at h ⊢
      exact h

/-- Before the end of the stream DECODE_FRAME is the run of a frame (R245). -/
theorem execDecodeFrame_eq_runFrame {s : State} (hf : s.fsm = .ready ∨ s.fsm = .exhausted) (hne : s.cursor ≠ s.length) :
    execDecodeFrame s = runFrame Config.frameFuel s.beginFrame := by
  rcases hf with hf | hf <;> simp only [execDecodeFrame, State.whenIdle, hf, if_neg hne]

/-- Settles O21, by induction on the bound of the run. -/
theorem decodeFrameIsRecordRun : Obligations.DecodeFrameIsRecordRun := by
  unfold Obligations.DecodeFrameIsRecordRun
  intro s t hf hne
  rw [show exec .decodeFrame s = runFrame Config.frameFuel s.beginFrame from execDecodeFrame_eq_runFrame hf hne,
    runFrame_eq_next_iff]
  constructor
  · rintro ⟨hrun, ht⟩
    exact ⟨_, Nat.le_refl _, hrun, ht⟩
  · rintro ⟨n, hn, hrun, ht⟩
    exact ⟨recordRun_mono hn hrun ht, ht⟩

end Sys2Proof.Machine

/-!
PROOFS. From a good state no step faults (R82, R225, R304). One pass over the model answers two questions of every record
step at once: it is no fault, and where the frame goes on it has used up at least one of the bits that were left of the
frame, so that a frame ends within the model's bound (log entry 11).
-/

namespace Sys2Proof.Machine

/-! ## The measure -/

/-- The bits a payload still has to give: those left of the mask word in use, and those of the bytes from the payload
pointer to the end of the frame. -/
def Payload.bitsLeft (pl : Payload) (frameEnd : Nat) : Nat := 8 * (frameEnd - pl.p) + pl.left

/-- The bits left of the frame where a record is due. Before its header the frame's length is not known: it is less than
2^24 bytes (R102). -/
def Due.bitsLeft (cursor : Nat) (due : Due) : Nat :=
  match due with
  | .frame => 2 ^ 27
  | .strip fr => 8 * (fr.F + fr.flen - cursor)
  | .chunk fr st => 8 * (fr.F + fr.flen - st.c)
  | .group fr _ cb => cb.pl.bitsLeft (fr.F + fr.flen)
  | .block fr _ vp => vp.pl.bitsLeft (fr.F + fr.flen)

/-- The outcome is no fault, and where the frame goes on in it fewer than m bits of the frame are left. -/
def Progress (m : Nat) (o : Outcome) : Prop :=
  match o with
  | .next t => ∀ due, t.fsm = .decoding due → due.bitsLeft t.cursor < m
  | .fault _ => False
  | .refused _ => True

theorem Progress.ne_fault {m : Nat} {o : Outcome} (h : Progress m o) (r : Fault) : o ≠ .fault r := by
  rintro rfl
  exact h

theorem Progress.lt {m : Nat} {t : State} {due : Due} (h : Progress m (.next t)) (hf : t.fsm = .decoding due) :
    due.bitsLeft t.cursor < m :=
  h due hf

theorem progress_refused (m : Nat) (r : Refusal) : Progress m (.refused r) := trivial

/-- The frame goes on with a record due. -/
theorem progress_of_due {m : Nat} {t : State} {due : Due} (hf : t.fsm = .decoding due) (h : due.bitsLeft t.cursor < m) :
    Progress m (.next t) := by
  intro due' hf'
  cases hf.symm.trans hf'
  exact h

/-- The frame has ended. -/
theorem progress_of_idle {m : Nat} {t : State} (hf : t.fsm.isDecoding = false) : Progress m (.next t) := by
  intro due hd
  rw [hd] at hf
  cases hf

theorem State.failCheck_progress (s : State) (k : ErrKind) (m : Nat) : Progress m (s.failCheck k) := by
  unfold State.failCheck
  split
  · exact progress_of_idle rfl
  · exact progress_refused _ _

/-- A frame that succeeds has ended (R230). -/
theorem State.finishFrame_progress (s : State) (m : Nat) : Progress m (.next s.finishFrame) := by
  refine progress_of_idle ?_
  simp only [State.finishFrame_fsm, idleFsm]
  split <;> rfl

/-- A check in front of an operation. -/
theorem State.checked_progress {s : State} {c : Prop} [Decidable c] {k : ErrKind} {m : Nat} {o : Outcome}
    (h : c → Progress m o) : Progress m (if ¬ c then s.failCheck k else o) := by
  by_cases hc : c
  · simpa [hc] using h hc
  · simpa [hc] using s.failCheck_progress k m

/-! ## What follows a record -/

/-- The chunk loop from a chunk pointer inside the strip or at its end: a strip follows only below the frame's strip
count, which is at most 32 (R225, R227). -/
theorem State.chunkLoop_progress {s : State} {length cursor m c : Nat} {fr : FrameRegs} {st : StripRegs}
    (ho : StripOpen length cursor fr st) (hc : c ≤ st.S + st.slen) (hm : 8 * (fr.F + fr.flen - c) < m) :
    Progress m (s.chunkLoop fr st c) := by
  obtain ⟨_, _, hmax, _⟩ := ho.frame
  unfold State.chunkLoop
  split
  · exact progress_of_due rfl hm
  · rename_i hend
    unfold State.endStrip
    dsimp only
    split
    · rw [dif_pos (by omega)]
      refine progress_of_due rfl ?_
      simp only [Due.bitsLeft]
      omega
    · unfold State.endFrame
      split
      · exact State.finishFrame_progress _ _
      · exact State.failCheck_progress _ _ _

/-- The frame's declared end is inside the stream (R223). -/
theorem FrameRegs.Good.end_le {fr : FrameRegs} {length : Nat} (h : fr.Good length) : fr.F + fr.flen ≤ length := by
  obtain ⟨hend, _⟩ := h
  exact hend

/-- A strip of the frame ends inside the stream (R204, R223). -/
theorem StripOpen.end_le {length cursor : Nat} {fr : FrameRegs} {st : StripRegs} (h : StripOpen length cursor fr st) :
    st.S + st.slen ≤ length :=
  h.fits.trans h.frame.end_le

/-- A payload ends inside its strip (R208). -/
theorem Payload.Good.end_le {pl : Payload} {st : StripRegs} (h : pl.Good st) : pl.E ≤ st.S + st.slen := by
  obtain ⟨_, _, hE, _⟩ := h
  exact hE

/-- At the end of a payload no more bits of the frame are left than inside it. -/
theorem Payload.Good.bitsLeft_end {pl : Payload} {st : StripRegs} (h : pl.Good st) (frameEnd : Nat) :
    8 * (frameEnd - pl.E) ≤ pl.bitsLeft frameEnd := by
  obtain ⟨_, hle, _, _⟩ := h
  unfold Payload.bitsLeft
  omega

/-- The end of a chunk. -/
theorem State.chunkEnd_progress {s : State} {length cursor m : Nat} {fr : FrameRegs} {st : StripRegs} {pl : Payload}
    (ho : StripOpen length cursor fr st) (hpl : pl.Good st) (hm : pl.bitsLeft (fr.F + fr.flen) < m) :
    Progress m (s.chunkLoop fr st pl.E) :=
  State.chunkLoop_progress ho hpl.end_le (Nat.lt_of_le_of_lt (hpl.bitsLeft_end _) hm)

theorem State.codebookLoop_progress {s : State} {length cursor m : Nat} {fr : FrameRegs} {st : StripRegs}
    {cb : CodebookRegs} (ho : StripOpen length cursor fr st) (hpl : cb.pl.Good st)
    (hm : cb.pl.bitsLeft (fr.F + fr.flen) < m) : Progress m (s.codebookLoop fr st cb) := by
  unfold State.codebookLoop
  split
  · exact progress_of_due rfl hm
  · split
    · exact State.failCheck_progress _ _ _
    · exact State.chunkEnd_progress ho hpl hm

theorem State.blockLoop_progress {s : State} {length cursor m : Nat} {fr : FrameRegs} {st : StripRegs}
    {vp : VectorRegs} (ho : StripOpen length cursor fr st) (hpl : vp.pl.Good st)
    (hm : vp.pl.bitsLeft (fr.F + fr.flen) < m) : Progress m (s.blockLoop fr st vp) := by
  unfold State.blockLoop
  split
  · exact progress_of_due rfl hm
  · split
    · exact State.chunkEnd_progress ho hpl hm
    · exact State.failCheck_progress _ _ _

/-! ## Headers -/

theorem State.frameHeader_progress (s : State) (inter : Bool) (flen : BitVec 24) (width height nstrips : U16) :
    Progress (2 ^ 27) (s.frameHeader inter flen width height nstrips) := by
  unfold State.frameHeader
  split
  · refine State.checked_progress fun _ => State.checked_progress fun _ => State.checked_progress fun _ =>
      State.checked_progress fun _ => ?_
    split
    · split
      · exact State.finishFrame_progress _ _
      · exact progress_refused _ _
    · refine progress_of_due rfl ?_
      have := flen.isLt
      simp only [Due.bitsLeft]
      omega
  · exact progress_refused _ _

theorem State.stripHeader_progress {s : State} {fr : FrameRegs} {slen py0 px0 py1 px1 : U16}
    (hf : s.fsm = .decoding (.strip fr)) (hfr : fr.Good s.length) (hafter : fr.F < s.cursor) :
    Progress ((Due.strip fr).bitsLeft s.cursor) (s.stripHeader slen py0 px0 py1 px1) := by
  unfold State.stripHeader
  simp only [hf]
  refine State.checked_progress fun hhead => State.checked_progress fun ⟨hmin, hfit⟩ => State.checked_progress fun _ =>
    State.checked_progress fun _ => State.checked_progress fun _ => ?_
  refine State.chunkLoop_progress (length := s.length) (cursor := s.cursor) ⟨hfr, hafter, rfl, hfit⟩
    (Nat.add_le_add_left hmin _) ?_
  simp only [Due.bitsLeft]
  omega

/-- A chunk header is four bytes of the frame, whatever its payload opens with. -/
theorem State.openChunk_progress {s : State} {fr : FrameRegs} {st : StripRegs} {clen : U16}
    {body : FrameRegs → StripRegs → Payload → Outcome} (hf : s.fsm = .decoding (.chunk fr st))
    (ho : StripOpen s.length s.cursor fr st)
    (hbody : ∀ pl : Payload, pl.Good st → pl.bitsLeft (fr.F + fr.flen) < (Due.chunk fr st).bitsLeft s.cursor →
      Progress ((Due.chunk fr st).bitsLeft s.cursor) (body fr st pl)) :
    Progress ((Due.chunk fr st).bitsLeft s.cursor) (s.openChunk clen body) := by
  unfold State.openChunk
  simp only [hf]
  refine State.checked_progress fun hhead => State.checked_progress fun ⟨hmin, hfit⟩ => hbody _ ?_ ?_
  · exact ⟨Nat.le_add_right _ _, Nat.add_le_add_left hmin _, hfit, Nat.zero_le _⟩
  · have := ho.fits
    simp only [Payload.bitsLeft, Due.bitsLeft]
    omega

/-- A chunk header that decodes is a record of the chunk table. -/
theorem decode_chunk_ok {bits : List Bool} {bytes : List Byte} {d : Decoded} (h : decode .chunk bits bytes = .ok d) :
    ∃ row clen, row ∈ chunkRecords ∧ d.instr = row.2 clen := by
  obtain ⟨i, rest, hi, rfl⟩ := withBits_ok.mp h
  unfold decodeChunk at hi
  split at hi
  · split at hi
    · rename_i hc
      obtain ⟨row, hrow, _, rfl⟩ := decodeChunkHeader_ok hc
      cases hi
      exact ⟨row, _, hrow, rfl⟩
    · cases hi
  · cases hi

/-- Every record of the chunk table opens a codebook or a vector payload (R107). -/
theorem runRecord_chunk_progress {s : State} {fr : FrameRegs} {st : StripRegs} {row : U16 × (U16 → Instr)} (clen : U16)
    (hrow : row ∈ chunkRecords) (hf : s.fsm = .decoding (.chunk fr st)) (ho : StripOpen s.length s.cursor fr st) :
    Progress ((Due.chunk fr st).bitsLeft s.cursor) (runRecord (row.2 clen) s) := by
  have hcodebook : ∀ target bpp12 selective, Progress ((Due.chunk fr st).bitsLeft s.cursor)
      (s.openCodebook target bpp12 selective clen) := fun _ _ _ =>
    State.openChunk_progress hf ho fun _ hpl hm => State.codebookLoop_progress ho hpl hm
  have hvector : ∀ kind, Progress ((Due.chunk fr st).bitsLeft s.cursor) (s.openVector kind clen) := fun _ =>
    State.openChunk_progress hf ho fun _ hpl hm => State.blockLoop_progress ho hpl hm
  simp only [chunkRecords, List.mem_cons, List.not_mem_nil, or_false] at hrow
  rcases hrow with rfl | rfl | rfl | rfl | rfl | rfl | rfl | rfl | rfl | rfl | rfl
  iterate 8 exact hcodebook _ _ _
  iterate 3 exact hvector _

/-! ## Groups -/

/-- Bytes taken from a payload stay inside it and are bits used up. -/
theorem Payload.Good.take {pl : Payload} {st : StripRegs} {n frameEnd : Nat} (h : pl.Good st) (hn : pl.p + n ≤ pl.E)
    (hpos : 0 < n) (hend : st.S + st.slen ≤ frameEnd) :
    Payload.Good { pl with p := pl.p + n } st ∧
      Payload.bitsLeft { pl with p := pl.p + n } frameEnd < pl.bitsLeft frameEnd := by
  obtain ⟨hge, _, hE, hleft⟩ := h
  refine ⟨⟨Nat.le_add_right_of_le hge, hn, hE, hleft⟩, ?_⟩
  simp only [Payload.bitsLeft]
  omega

theorem State.decodeGroup_progress {s : State} {length cursor m n : Nat} {fr : FrameRegs} {st : StripRegs}
    {cb : CodebookRegs} {e : Entry} (ho : StripOpen length cursor fr st) (hpl : cb.pl.Good st) (hpos : 0 < n)
    (hm : cb.pl.bitsLeft (fr.F + fr.flen) ≤ m) : Progress m (s.decodeGroup fr st cb n e) := by
  unfold State.decodeGroup
  split
  · refine State.checked_progress fun hfit => ?_
    obtain ⟨hpl', hless⟩ := hpl.take hfit hpos ho.fits
    exact State.codebookLoop_progress (cb := { cb with k := cb.k + 1, pl := { cb.pl with p := cb.pl.p + n } }) ho hpl'
      (Nat.lt_of_lt_of_le hless hm)
  · exact State.failCheck_progress _ _ _

/-- Which group records a chunk has does not depend on its payload registers. -/
theorem GroupOf.withPayload {cb : CodebookRegs} {i : Instr} (h : GroupOf cb i) (pl : Payload) :
    GroupOf { cb with pl := pl } i := by
  cases h with
  | g8 hmode => exact .g8 (cb := { cb with pl := pl }) hmode ..
  | g12 hmode => exact .g12 (cb := { cb with pl := pl }) hmode ..

/-- A group record that runs where its bits have been taken. -/
theorem runRecord_group_progress {s : State} {length cursor m : Nat} {fr : FrameRegs} {st : StripRegs} {cb : CodebookRegs}
    {i : Instr} (hf : s.fsm = .decoding (.group fr st cb)) (ho : StripOpen length cursor fr st) (hpl : cb.pl.Good st)
    (hm : cb.pl.bitsLeft (fr.F + fr.flen) ≤ m) (hi : GroupOf cb i) : Progress m (runRecord i s) := by
  cases hi with
  | g8 hmode =>
    simp only [runRecord, execG8, hf, hmode, Bool.false_eq_true, if_false]
    exact State.decodeGroup_progress ho hpl (by decide) hm
  | g12 hmode =>
    simp only [runRecord, execG12, hf, hmode, Bool.true_eq_false, if_false]
    exact State.decodeGroup_progress ho hpl (by decide) hm

/-- GSKIP takes no byte: its progress is the mask bit taken before it (R154). -/
theorem execGskip_progress {s : State} {length cursor m : Nat} {fr : FrameRegs} {st : StripRegs} {cb : CodebookRegs}
    (hf : s.fsm = .decoding (.group fr st cb)) (ho : StripOpen length cursor fr st) (hpl : cb.pl.Good st)
    (hm : cb.pl.bitsLeft (fr.F + fr.flen) < m) : Progress m (execGskip s) := by
  unfold execGskip
  simp only [hf]
  split
  · exact progress_refused _ _
  · exact State.checked_progress fun _ =>
      State.codebookLoop_progress (cb := { cb with k := cb.k + 1 }) ho hpl hm

/-! ## Block codes -/

theorem State.blockDone_progress {s : State} {length cursor m n : Nat} {fr : FrameRegs} {st : StripRegs}
    {vp : VectorRegs} (ho : StripOpen length cursor fr st) (hpl : Payload.Good { vp.pl with p := vp.pl.p + n } st)
    (hm : Payload.bitsLeft { vp.pl with p := vp.pl.p + n } (fr.F + fr.flen) < m) :
    Progress m (s.blockDone fr st vp n) :=
  State.blockLoop_progress (vp := { s.nextBlock fr vp with pl := { vp.pl with p := vp.pl.p + n } }) ho hpl hm

/-- Where a block code that draws can run: its block is inside the framebuffer, its payload inside the chunk, and no more
than m bits of the frame are left (R173, R204). -/
structure BlockOpen (m : Nat) (fr : FrameRegs) (st : StripRegs) (vp : VectorRegs) : Prop where
  payload : vp.pl.Good st
  right : vp.bx + 4 ≤ 320
  bottom : vp.by_ + 4 ≤ 240
  bits : vp.pl.bitsLeft (fr.F + fr.flen) ≤ m

theorem State.drawBlock_progress {s : State} {length cursor m n : Nat} {fr : FrameRegs} {st : StripRegs}
    {vp : VectorRegs} {colour : Nat → Nat → Colour} (ho : StripOpen length cursor fr st) (hb : BlockOpen m fr st vp)
    (hn : vp.pl.p + n ≤ vp.pl.E) (hpos : 0 < n) : Progress m (s.drawBlock fr st vp n colour) := by
  obtain ⟨hpl, hx, hy, hm⟩ := hb
  obtain ⟨hpl', hless⟩ := hpl.take hn hpos ho.fits
  simp only [State.drawBlock, State.writeBlock, if_pos (And.intro hx hy)]
  exact State.blockDone_progress ho hpl' (Nat.lt_of_lt_of_le hless hm)

theorem State.placeV1_progress {s : State} {length cursor m : Nat} {fr : FrameRegs} {st : StripRegs} {vp : VectorRegs}
    (i0 : Byte) (ho : StripOpen length cursor fr st) (hb : BlockOpen m fr st vp) :
    Progress m (s.placeV1 fr st vp i0) := by
  refine State.checked_progress fun hfit => ?_
  split
  · exact State.drawBlock_progress ho hb hfit (by decide)
  · exact State.failCheck_progress _ _ _

theorem State.placeV4_progress {s : State} {length cursor m : Nat} {fr : FrameRegs} {st : StripRegs} {vp : VectorRegs}
    (i0 i1 i2 i3 : Byte) (ho : StripOpen length cursor fr st) (hb : BlockOpen m fr st vp) :
    Progress m (s.placeV4 fr st vp i0 i1 i2 i3) := by
  refine State.checked_progress fun hfit => ?_
  split
  · exact State.drawBlock_progress ho hb hfit (by decide)
  · exact State.failCheck_progress _ _ _

/-- A block code that runs where its bits have been taken; BC.SKIP takes no byte, so its progress is the mask bit taken
before it (R184). -/
theorem runRecord_block_progress {s : State} {length cursor m : Nat} {fr : FrameRegs} {st : StripRegs} {vp : VectorRegs}
    {i : Instr} (hf : s.fsm = .decoding (.block fr st vp)) (ho : StripOpen length cursor fr st)
    (hb : BlockOpen m fr st vp) (hskip : vp.kind = .delta → vp.pl.bitsLeft (fr.F + fr.flen) < m)
    {kind : VecKind} (hk : vp.kind = kind) (hi : BlockOf kind i) : Progress m (runRecord i s) := by
  cases hi <;>
    simp only [runRecord, execBuV1, execBmV1, execBmV4, execBcSkip, execBcV1, execBcV4, State.inBlock, hf, hk, if_true]
  case buV1 | bmV1 | bcV1 => exact State.placeV1_progress _ ho hb
  case bmV4 | bcV4 => exact State.placeV4_progress _ _ _ _ ho hb
  case bcSkip => exact State.blockDone_progress ho hb.payload (hskip hk)

/-! ## The fetch -/

/-- A fetch makes progress where the record it yields does, or the outcome without one. -/
def FetchProgress (m : Nat) (f : Fetched) : Prop :=
  match f with
  | .run i t => Progress m (runRecord i t)
  | .halt o => Progress m o

theorem recordStep_progress_of_fetch {s : State} {due : Due} {m : Nat} (h : FetchProgress m (s.fetch due)) :
    Progress m (recordStep due s) := by
  unfold recordStep
  split
  · rename_i hf; rw [hf] at h; exact h
  · rename_i hf; rw [hf] at h; exact h

theorem State.reject_progress (s : State) (r : Reject) (m : Nat) : Progress m (s.reject r) := by
  unfold State.reject
  split
  · split
    · split
      · exact progress_refused _ _
      · exact State.failCheck_progress _ _ _
    · exact progress_refused _ _
  all_goals exact State.failCheck_progress _ _ _

/-- Bytes that must end by a limit inside the stream can be read (R10). -/
theorem State.fetchWithin_progress {s : State} {level : Level} {bits : List Bool} {a n limit m : Nat}
    (hlimit : limit ≤ s.length)
    (hrun : ∀ l d, l.length = n → decode level bits l = .ok d → Progress m (runRecord d.instr s)) :
    FetchProgress m (s.fetchWithin level bits a n limit) := by
  unfold State.fetchWithin State.fetchAt
  split
  · rename_i hle
    obtain ⟨l, hl, hlen⟩ := State.bytes_exists (hle.trans hlimit)
    simp only [hl]
    split
    · rename_i d hd; exact hrun l d hlen hd
    · exact State.reject_progress _ _ _
  · exact State.failCheck_progress _ _ _

/-- The four bytes of a word inside the stream can be read (R10). -/
theorem State.be32_exists {s : State} {a : Nat} (h : a + 4 ≤ s.length) : ∃ w, s.be32 a = some w := by
  obtain ⟨l, hl, hlen⟩ := State.bytes_exists h
  obtain ⟨b3, b2, b1, b0, rfl⟩ := List.length_eq_four.mp hlen
  exact ⟨joinU32 b3 b2 b1 b0, by simp only [State.be32, hl]⟩

/-- Inside a payload the next mask bit is taken, which uses it up, or the payload ends inside its mask word: the word is
never outside the stream (R155, R183). -/
theorem State.nextBit_progress {s : State} {cursor : Nat} {fr : FrameRegs} {st : StripRegs} {pl : Payload}
    (ho : StripOpen s.length cursor fr st) (hpl : pl.Good st) :
    s.nextBit pl = .endsInside ∨
    ∃ b pl', s.nextBit pl = .bit b pl' ∧ pl'.Good st ∧
      pl'.bitsLeft (fr.F + fr.flen) < pl.bitsLeft (fr.F + fr.flen) := by
  have hE := hpl.end_le
  have hfits := ho.fits
  have hend := ho.end_le
  by_cases hleft : pl.left = 0
  · by_cases hword : pl.p + 4 ≤ pl.E
    · obtain ⟨w, hw⟩ := State.be32_exists (s := s) (a := pl.p) (by omega)
      have hb : s.nextBit pl = .bit w.msb { pl with p := pl.p + 4, mask := w <<< 1, left := 31 } := by
        simp only [State.nextBit, if_pos hleft, if_pos hword, hw]
      refine .inr ⟨_, _, hb, State.nextBit_good hb hpl, ?_⟩
      simp only [Payload.bitsLeft]
      omega
    · exact .inl (by simp only [State.nextBit, if_pos hleft, if_neg hword])
  · have hb := State.nextBit_of_left (s := s) hleft
    refine .inr ⟨_, _, hb, State.nextBit_good hb hpl, ?_⟩
    simp only [Payload.bitsLeft]
    omega

theorem State.fetchGroup_progress {s : State} {fr : FrameRegs} {st : StripRegs} {cb : CodebookRegs}
    (hf : s.fsm = .decoding (.group fr st cb)) (hd : s.DueGood (.group fr st cb)) :
    FetchProgress ((Due.group fr st cb).bitsLeft s.cursor) (s.fetchGroup fr st cb) := by
  obtain ⟨hopen, hpl⟩ := hd.dueOpen
  have ho := hopen.toStripOpen
  obtain ⟨_, _, _, _, hp⟩ := hd
  unfold State.fetchGroup
  rw [if_neg (not_not.mpr hp)]
  split
  · exact State.failCheck_progress _ _ _
  split
  · rename_i hsel
    rcases State.nextBit_progress ho hpl with hb | ⟨b, pl, hb, hpl', hless⟩ <;> simp only [hb]
    · exact State.failCheck_progress _ _ _
    · refine State.fetchWithin_progress (hpl'.end_le.trans ho.end_le) fun _ d _ hdecode => ?_
      rcases decode_group_ok hdecode with ⟨hplain, _⟩ | ⟨_, _, hi⟩ | ⟨_, _, hi⟩
      · rw [hsel] at hplain; cases hplain
      · exact runRecord_group_progress (cb := { cb with pl := pl }) rfl ho hpl' hless.le (hi.withPayload pl)
      · rw [hi]
        exact execGskip_progress (s := { s with fsm := .decoding (.group fr st { cb with pl := pl }) }) rfl ho hpl' hless
  · rename_i hsel
    refine State.fetchWithin_progress (hpl.end_le.trans ho.end_le) fun _ d _ hdecode => ?_
    rcases decode_group_ok hdecode with ⟨_, hi⟩ | ⟨hmasked, _⟩ | ⟨hmasked, _⟩
    · exact runRecord_group_progress hf ho hpl le_rfl hi
    · exact absurd hmasked hsel
    · exact absurd hmasked hsel

/-- The index bytes of a block whose mask bits have been taken. -/
theorem State.fetchIndices_progress {s : State} {cursor m : Nat} {fr : FrameRegs} {st : StripRegs} {vp : VectorRegs}
    {bits : List Bool} {pl : Payload} (ho : StripOpen s.length cursor fr st) (hb : BlockOpen m fr st { vp with pl := pl })
    (hskip : vp.kind = .delta → pl.bitsLeft (fr.F + fr.flen) < m) :
    FetchProgress m (s.fetchIndices fr st vp bits pl) :=
  State.fetchWithin_progress (hb.payload.end_le.trans ho.end_le) fun _ _ _ hdecode =>
    runRecord_block_progress (vp := { vp with pl := pl }) rfl ho hb hskip rfl (decodeBlock_of hdecode)

theorem State.fetchBlock_progress {s : State} {fr : FrameRegs} {st : StripRegs} {vp : VectorRegs} (hs : s.Sound)
    (hd : s.DueGood (.block fr st vp)) :
    FetchProgress ((Due.block fr st vp).bitsLeft s.cursor) (s.fetchBlock fr st vp) := by
  obtain ⟨hopen, hpl, hx, hy⟩ := hd.dueOpen
  have ho := hopen.toStripOpen
  obtain ⟨_, _, _, _, _, _, hbx, hby⟩ := hd
  obtain ⟨_, ⟨hright, hbottom⟩, _⟩ := hs.slots fr.i
  have hblock : ∀ pl : Payload, pl.Good st → pl.bitsLeft (fr.F + fr.flen) ≤ vp.pl.bitsLeft (fr.F + fr.flen) →
      BlockOpen ((Due.block fr st vp).bitsLeft s.cursor) fr st { vp with pl := pl } :=
    fun pl hpl hm => ⟨hpl, by dsimp only; omega, by dsimp only; omega, hm⟩
  have htaken : ∀ bits (pl : Payload), pl.Good st → pl.bitsLeft (fr.F + fr.flen) < vp.pl.bitsLeft (fr.F + fr.flen) →
      FetchProgress ((Due.block fr st vp).bitsLeft s.cursor) (s.fetchIndices fr st vp bits pl) :=
    fun _ pl hpl hless => State.fetchIndices_progress ho (hblock pl hpl hless.le) fun _ => hless
  unfold State.fetchBlock
  split
  · rename_i hk
    exact State.fetchIndices_progress ho (hblock vp.pl hpl le_rfl) fun hdelta => by rw [hk] at hdelta; cases hdelta
  · rcases State.nextBit_progress ho hpl with hb | ⟨b, pl, hb, hpl', hless⟩ <;> simp only [hb]
    · exact State.failCheck_progress _ _ _
    · exact htaken [b] pl hpl' hless
  · rcases State.nextBit_progress ho hpl with hb | ⟨b, pl, hb, hpl', hless⟩ <;> simp only [hb]
    · exact State.failCheck_progress _ _ _
    · cases b with
      | false => exact htaken [false] pl hpl' hless
      | true =>
        rcases State.nextBit_progress ho hpl' with hb' | ⟨b', pl', hb', hpl'', hless'⟩ <;> simp only [hb']
        · exact State.failCheck_progress _ _ _
        · exact htaken [true, b'] pl' hpl'' (hless'.trans hless)

/-! ## Record steps, frames and commands -/

/-- A record step from a good state is no fault and uses up bits of its frame. -/
theorem recordStep_progress {due : Due} {s : State} (hf : s.fsm = .decoding due) (hs : s.Inv) :
    Progress (due.bitsLeft s.cursor) (recordStep due s) := by
  obtain ⟨hsound, hd⟩ := (State.inv_decoding hf).mp hs
  refine recordStep_progress_of_fetch ?_
  cases due with
  | frame =>
    refine State.fetchWithin_progress le_rfl fun l d hlen hdecode => ?_
    obtain ⟨_, _, _, _, _, _, _, hi⟩ := decode_frame_ok hlen hdecode
    obtain ⟨inter, hrun⟩ := hi.runRecord s
    rw [hrun]
    exact s.frameHeader_progress ..
  | strip fr =>
    obtain ⟨hfr, hafter, _⟩ := hd
    refine State.fetchWithin_progress hfr.end_le fun _ d _ hdecode => ?_
    obtain ⟨i, rest, hi, rfl⟩ := withBits_ok.mp hdecode
    obtain ⟨_, _, _, _, _, rfl | rfl⟩ := decodeStripHeader_ok hi <;> exact State.stripHeader_progress hf hfr hafter
  | chunk fr st =>
    have ho := (State.DueGood.dueOpen hd).toStripOpen
    refine State.fetchWithin_progress ho.end_le fun _ d _ hdecode => ?_
    obtain ⟨row, clen, hrow, hi⟩ := decode_chunk_ok hdecode
    rw [hi]
    exact runRecord_chunk_progress clen hrow hf ho
  | group => exact State.fetchGroup_progress hf hd
  | block => exact State.fetchBlock_progress hsound hd

/-- A frame of which fewer than n bits are left ends within n record steps. -/
theorem runFrame_ne_fault {n : Nat} {s : State} (hs : s.Inv)
    (hn : ∀ due, s.fsm = .decoding due → due.bitsLeft s.cursor < n) (r : Fault) : runFrame n s ≠ .fault r := by
  induction n generalizing s with
  | zero =>
    unfold runFrame
    split
    · rename_i due hf; exact absurd (hn due hf) (Nat.not_lt_zero _)
    · exact nofun
  | succ m ih =>
    unfold runFrame
    split
    · rename_i due hf
      have hstep := recordStep_progress hf hs
      dsimp only
      split
      · rename_i t ht
        rw [ht] at hstep
        exact ih (recordStep_inv hf hs ht) fun due' hf' =>
          Nat.lt_of_lt_of_le (hstep.lt hf') (Nat.le_of_lt_succ (hn due hf))
      · rename_i r' hr'; exact absurd hr' (hstep.ne_fault r')
      · exact nofun
    · exact nofun

/-- HAS_NEXT, DECODE_FRAME and FB_VIEW fault only where what they run does. -/
theorem State.whenIdle_ne_fault {s : State} {command : State → Outcome} {r : Fault}
    (h : s.fsm = .ready ∨ s.fsm = .exhausted → command s ≠ .fault r) : s.whenIdle command ≠ .fault r := by
  unfold State.whenIdle
  split
  · rename_i hf; exact h (.inl hf)
  · rename_i hf; exact h (.inr hf)
  all_goals exact nofun

/-- A frame has fewer bits than the model's bound on its record steps (R102, R304; log entry 11). -/
theorem bitsLeft_frame_lt_frameFuel (cursor : Nat) : Due.frame.bitsLeft cursor < Config.frameFuel :=
  Nat.pow_lt_pow_right (by decide) (by decide)

theorem execDecodeFrame_ne_fault {s : State} (hs : s.Inv) (r : Fault) : execDecodeFrame s ≠ .fault r := by
  refine State.whenIdle_ne_fault fun hidle => ?_
  split
  · exact nofun
  · rename_i hne
    obtain ⟨hsound, hle⟩ := hs.idle hidle
    refine runFrame_ne_fault ((State.inv_decoding s.beginFrame_fsm).mpr ⟨hsound, Nat.lt_of_le_of_ne hle hne⟩)
      (fun due hf => ?_) r
    cases s.beginFrame_fsm.symm.trans hf
    exact bitsLeft_frame_lt_frameFuel _

theorem execInit_ne_fault (stream : List Byte) (n : Nat) (s : State) (r : Fault) : execInit stream n s ≠ .fault r := by
  unfold execInit
  split_ifs <;> exact nofun

theorem execHasNext_ne_fault (s : State) (r : Fault) : execHasNext s ≠ .fault r :=
  State.whenIdle_ne_fault fun _ => nofun

theorem execFbView_ne_fault (s : State) (r : Fault) : execFbView s ≠ .fault r :=
  State.whenIdle_ne_fault fun _ => nofun

/-- No command of the host faults. -/
theorem hostCommand_ne_fault {s : State} (c : HostCmd) (hs : s.Inv) (r : Fault) : exec c.instr s ≠ .fault r := by
  cases c with
  | init stream n => exact execInit_ne_fault stream n s r
  | hasNext => exact execHasNext_ne_fault s r
  | decodeFrame => exact execDecodeFrame_ne_fault hs r
  | fbView => exact execFbView_ne_fault s r

/-- Settles O54: while a frame is decoded the step is a record step, which makes progress from a good state; else it is
idle or issues a command, and a DECODE_FRAME uses up its frame's bits before the model's bound. -/
theorem stepNeverFaults : Obligations.StepNeverFaults := by
  unfold Obligations.StepNeverFaults
  intro s r hs
  rcases s.fsm.decoding_or_idle with ⟨due, hf⟩ | hidle
  · rw [step_decoding hf]
    exact (recordStep_progress hf hs).ne_fault r
  · unfold step
    split
    · rename_i due hf; rw [hf] at hidle; cases hidle
    · split
      · exact nofun
      · rename_i c rest _
        exact hostCommand_ne_fault (s := { s with cmds := rest }) c hs r

end Sys2Proof.Machine

/-!
PROOFS. What the checked posture refuses while a frame is decoded and between frames (R8, R108, R226, R242, R271, R292).
-/

namespace Sys2Proof.Machine

/-! ## The two refusals of a frame -/

/-- The outcome is no refusal, or one of the two that the spec asks for inside a frame: a chunk id of the band without
meaning (R108), a zero-strip frame of another length than 10 (R226). -/
def RefusesAsSpecified (o : Outcome) : Prop :=
  match o with
  | .next _ => True
  | .fault _ => True
  | .refused r => (∃ cid, r = .unclearChunkId cid) ∨ r = .zeroStripFrame

/-- In the checked posture a failed check is an error, which is no refusal (R8, R268). -/
theorem State.failCheck_refusals {s : State} (k : ErrKind) (hp : s.posture = .checked) :
    RefusesAsSpecified (s.failCheck k) := by
  rw [State.failCheck_checked k hp]
  trivial

/-- A check in front of an operation. -/
theorem State.checked_refusals {s : State} {c : Prop} [Decidable c] {k : ErrKind} {o : Outcome}
    (hp : s.posture = .checked) (h : c → RefusesAsSpecified o) : RefusesAsSpecified (if ¬ c then s.failCheck k else o) := by
  by_cases hc : c
  · simpa [hc] using h hc
  · simpa [hc] using s.failCheck_refusals k hp

/-! ## What follows a record -/

theorem State.chunkLoop_refusals {s : State} (fr : FrameRegs) (st : StripRegs) (c : Nat) (hp : s.posture = .checked) :
    RefusesAsSpecified (s.chunkLoop fr st c) := by
  unfold State.chunkLoop State.endStrip State.endFrame
  dsimp only
  split
  · trivial
  split
  · split <;> trivial
  split
  · trivial
  · exact State.failCheck_refusals _ hp

theorem State.codebookLoop_refusals {s : State} (fr : FrameRegs) (st : StripRegs) (cb : CodebookRegs)
    (hp : s.posture = .checked) : RefusesAsSpecified (s.codebookLoop fr st cb) := by
  unfold State.codebookLoop
  split
  · trivial
  split
  · exact State.failCheck_refusals _ hp
  · exact State.chunkLoop_refusals _ _ _ hp

theorem State.blockLoop_refusals {s : State} (fr : FrameRegs) (st : StripRegs) (vp : VectorRegs)
    (hp : s.posture = .checked) : RefusesAsSpecified (s.blockLoop fr st vp) := by
  unfold State.blockLoop
  split
  · trivial
  split
  · exact State.chunkLoop_refusals _ _ _ hp
  · exact State.failCheck_refusals _ hp

/-! ## Headers -/

/-- A frame header that is due is refused for its strip count alone (R226). -/
theorem State.frameHeader_refusals {s : State} (inter : Bool) (flen : BitVec 24) (width height nstrips : U16)
    (hp : s.posture = .checked) (hf : s.fsm = .decoding .frame) :
    RefusesAsSpecified (s.frameHeader inter flen width height nstrips) := by
  simp only [State.frameHeader, hf]
  refine State.checked_refusals hp fun _ => State.checked_refusals hp fun _ => State.checked_refusals hp fun _ =>
    State.checked_refusals hp fun _ => ?_
  split
  · split
    · trivial
    · exact .inr rfl
  · trivial

theorem State.stripHeader_refusals {s : State} {fr : FrameRegs} (slen py0 px0 py1 px1 : U16) (hp : s.posture = .checked)
    (hf : s.fsm = .decoding (.strip fr)) : RefusesAsSpecified (s.stripHeader slen py0 px0 py1 px1) := by
  simp only [State.stripHeader, hf]
  exact State.checked_refusals hp fun _ => State.checked_refusals hp fun _ => State.checked_refusals hp fun _ =>
    State.checked_refusals hp fun _ => State.checked_refusals hp fun _ => State.chunkLoop_refusals _ _ _ hp

theorem State.openChunk_refusals {s : State} {fr : FrameRegs} {st : StripRegs} {clen : U16}
    {body : FrameRegs → StripRegs → Payload → Outcome} (hp : s.posture = .checked)
    (hf : s.fsm = .decoding (.chunk fr st)) (hbody : ∀ pl, RefusesAsSpecified (body fr st pl)) :
    RefusesAsSpecified (s.openChunk clen body) := by
  simp only [State.openChunk, hf]
  exact State.checked_refusals hp fun _ => State.checked_refusals hp fun _ => hbody _

/-- Every record of the chunk table opens a codebook or a vector payload where a chunk is due (R107). -/
theorem runRecord_chunk_refusals {s : State} {fr : FrameRegs} {st : StripRegs} {row : U16 × (U16 → Instr)} (clen : U16)
    (hrow : row ∈ chunkRecords) (hp : s.posture = .checked) (hf : s.fsm = .decoding (.chunk fr st)) :
    RefusesAsSpecified (runRecord (row.2 clen) s) := by
  have hcodebook : ∀ target bpp12 selective, RefusesAsSpecified (s.openCodebook target bpp12 selective clen) :=
    fun _ _ _ => State.openChunk_refusals hp hf fun _ => State.codebookLoop_refusals _ _ _ hp
  have hvector : ∀ kind, RefusesAsSpecified (s.openVector kind clen) :=
    fun _ => State.openChunk_refusals hp hf fun _ => State.blockLoop_refusals _ _ _ hp
  simp only [chunkRecords, List.mem_cons, List.not_mem_nil, or_false] at hrow
  rcases hrow with rfl | rfl | rfl | rfl | rfl | rfl | rfl | rfl | rfl | rfl | rfl
  iterate 8 exact hcodebook _ _ _
  iterate 3 exact hvector _

/-! ## Groups -/

theorem State.decodeGroup_refusals {s : State} (fr : FrameRegs) (st : StripRegs) (cb : CodebookRegs) (n : Nat) (e : Entry)
    (hp : s.posture = .checked) : RefusesAsSpecified (s.decodeGroup fr st cb n e) := by
  unfold State.decodeGroup
  split
  · rename_i hk
    exact State.checked_refusals hp fun _ =>
      State.codebookLoop_refusals (s := s.setSlot fr.i (s.slots[fr.i.val].writeEntry cb.target cb.k e hk)) _ _ _ hp
  · exact State.failCheck_refusals _ hp

/-- The group record of the chunk's mode runs where a group is due (R107). -/
theorem runRecord_group_refusals {s : State} {fr : FrameRegs} {st : StripRegs} {cb : CodebookRegs} {i : Instr}
    (hp : s.posture = .checked) (hf : s.fsm = .decoding (.group fr st cb)) (hi : GroupOf cb i) :
    RefusesAsSpecified (runRecord i s) := by
  cases hi with
  | g8 hmode =>
    simp only [runRecord, execG8, hf, hmode, Bool.false_eq_true, if_false]
    exact State.decodeGroup_refusals _ _ _ _ _ hp
  | g12 hmode =>
    simp only [runRecord, execG12, hf, hmode, Bool.true_eq_false, if_false]
    exact State.decodeGroup_refusals _ _ _ _ _ hp

/-- GSKIP runs in a selective chunk (R154). -/
theorem runRecord_gskip_refusals {s : State} {fr : FrameRegs} {st : StripRegs} {cb : CodebookRegs}
    (hp : s.posture = .checked) (hf : s.fsm = .decoding (.group fr st cb)) (hs : cb.selective = true) :
    RefusesAsSpecified (runRecord .gskip s) := by
  simp only [runRecord, execGskip, hf, hs, Bool.true_eq_false, if_false]
  exact State.checked_refusals hp fun _ => State.codebookLoop_refusals _ _ _ hp

/-! ## Block codes -/

theorem State.drawBlock_refusals {s : State} (fr : FrameRegs) (st : StripRegs) (vp : VectorRegs) (n : Nat)
    (colour : Nat → Nat → Colour) (hp : s.posture = .checked) : RefusesAsSpecified (s.drawBlock fr st vp n colour) := by
  unfold State.drawBlock
  split
  · rename_i u hu
    obtain ⟨hposture, _⟩ := State.writeBlock_sameContext hu
    exact State.blockLoop_refusals _ _ _ (hposture.trans hp)
  · trivial

theorem State.placeV1_refusals {s : State} (fr : FrameRegs) (st : StripRegs) (vp : VectorRegs) (i0 : Byte)
    (hp : s.posture = .checked) : RefusesAsSpecified (s.placeV1 fr st vp i0) := by
  refine State.checked_refusals hp fun _ => ?_
  split
  · rename_i u hu
    obtain ⟨hposture, _⟩ := State.lookup_sameContext hu
    exact State.drawBlock_refusals _ _ _ _ _ (hposture.trans hp)
  · exact State.failCheck_refusals _ hp

theorem State.placeV4_refusals {s : State} (fr : FrameRegs) (st : StripRegs) (vp : VectorRegs) (i0 i1 i2 i3 : Byte)
    (hp : s.posture = .checked) : RefusesAsSpecified (s.placeV4 fr st vp i0 i1 i2 i3) := by
  refine State.checked_refusals hp fun _ => ?_
  split
  · rename_i u hu
    obtain ⟨hposture, _⟩ := State.lookup4_sameContext hu
    exact State.drawBlock_refusals _ _ _ _ _ (hposture.trans hp)
  · exact State.failCheck_refusals _ hp

/-- A block code of the chunk's kind runs where a block is due (R114 to R116). -/
theorem runRecord_block_refusals {s : State} {fr : FrameRegs} {st : StripRegs} {vp : VectorRegs} {kind : VecKind}
    {i : Instr} (hp : s.posture = .checked) (hf : s.fsm = .decoding (.block fr st vp)) (hk : vp.kind = kind)
    (hi : BlockOf kind i) : RefusesAsSpecified (runRecord i s) := by
  cases hi <;>
    simp only [runRecord, execBuV1, execBmV1, execBmV4, execBcSkip, execBcV1, execBcV4, State.inBlock, hf, hk, if_true]
  case buV1 | bmV1 | bcV1 => exact State.placeV1_refusals _ _ _ _ hp
  case bmV4 | bcV4 => exact State.placeV4_refusals _ _ _ _ _ _ _ hp
  case bcSkip => exact State.blockLoop_refusals _ _ _ hp

/-! ## The fetch -/

/-- What has been fetched is what is due, so that it runs (R2, R13). -/
theorem Fetches.runRecord_refusals {s t : State} {due : Due} {i : Instr} (h : Fetches s due i t)
    (hp : s.posture = .checked) (hf : s.fsm = .decoding due) : RefusesAsSpecified (runRecord i t) := by
  cases h with
  | frameIntra | frameInter => exact State.frameHeader_refusals _ _ _ _ _ hp hf
  | stripIntra | stripInter => exact State.stripHeader_refusals _ _ _ _ _ hp hf
  | chunk _ hr clen => exact runRecord_chunk_refusals clen hr hp hf
  | group _ _ _ _ hi => exact runRecord_group_refusals hp hf hi
  | maskedGroup _ _ _ _ _ hi => exact runRecord_group_refusals hp rfl (hi.withPayload _)
  | @gskip _ _ cb _ _ hs pl => exact runRecord_gskip_refusals (cb := { cb with pl := pl }) hp rfl hs
  | block _ hi => exact runRecord_block_refusals hp rfl rfl hi

/-- A decoder's rejection is an error, or the refusal of a chunk id without meaning (R108). -/
theorem State.reject_refusals {s : State} (r : Reject) (hp : s.posture = .checked) : RefusesAsSpecified (s.reject r) := by
  unfold State.reject
  split
  · split
    · split
      · exact .inl ⟨_, rfl⟩
      · exact State.failCheck_refusals _ hp
    · exact .inl ⟨_, rfl⟩
  all_goals exact State.failCheck_refusals _ hp

/-- What a fetch answers without a record is refused as specified. -/
def HaltsAsSpecified (f : Fetched) : Prop :=
  match f with
  | .run _ _ => True
  | .halt o => RefusesAsSpecified o

theorem State.fetchWithin_halts {s : State} (level : Level) (bits : List Bool) (a n limit : Nat)
    (hp : s.posture = .checked) : HaltsAsSpecified (s.fetchWithin level bits a n limit) := by
  unfold State.fetchWithin State.fetchAt
  split
  · split
    · trivial
    · split
      · trivial
      · exact State.reject_refusals _ hp
  · exact State.failCheck_refusals _ hp

theorem State.noBit_halts {s : State} (offset : Option Nat) (hp : s.posture = .checked) :
    HaltsAsSpecified (s.noBit offset) := by
  unfold State.noBit
  split
  · trivial
  · exact State.failCheck_refusals _ hp

theorem State.fetchGroup_halts {s : State} (fr : FrameRegs) (st : StripRegs) (cb : CodebookRegs)
    (hp : s.posture = .checked) : HaltsAsSpecified (s.fetchGroup fr st cb) := by
  unfold State.fetchGroup
  split
  · exact State.codebookLoop_refusals _ _ _ hp
  split
  · exact State.failCheck_refusals _ hp
  split
  · split
    · exact State.fetchWithin_halts _ _ _ _ _ hp
    · exact State.noBit_halts _ hp
    · exact State.noBit_halts _ hp
  · exact State.fetchWithin_halts _ _ _ _ _ hp

theorem State.fetchIndices_halts {s : State} (fr : FrameRegs) (st : StripRegs) (vp : VectorRegs) (bits : List Bool)
    (pl : Payload) (hp : s.posture = .checked) : HaltsAsSpecified (s.fetchIndices fr st vp bits pl) :=
  State.fetchWithin_halts _ _ _ _ _ hp

theorem State.fetchBlock_halts {s : State} (fr : FrameRegs) (st : StripRegs) (vp : VectorRegs)
    (hp : s.posture = .checked) : HaltsAsSpecified (s.fetchBlock fr st vp) := by
  unfold State.fetchBlock
  split
  · exact State.fetchIndices_halts _ _ _ _ _ hp
  · split
    · exact State.fetchIndices_halts _ _ _ _ _ hp
    all_goals exact State.noBit_halts _ hp
  · split
    · exact State.fetchIndices_halts _ _ _ _ _ hp
    · split
      · exact State.fetchIndices_halts _ _ _ _ _ hp
      all_goals exact State.noBit_halts _ hp
    all_goals exact State.noBit_halts _ hp

theorem State.fetch_halts {s : State} (due : Due) (hp : s.posture = .checked) : HaltsAsSpecified (s.fetch due) := by
  cases due with
  | frame | strip | chunk => exact State.fetchWithin_halts _ _ _ _ _ hp
  | group => exact State.fetchGroup_halts _ _ _ hp
  | block => exact State.fetchBlock_halts _ _ _ hp

/-! ## Record steps, frames and commands -/

/-- A record step of the checked posture: the fetch refuses as specified, and what it yields is due. -/
theorem recordStep_refusals {s : State} {due : Due} (hp : s.posture = .checked) (hf : s.fsm = .decoding due) :
    RefusesAsSpecified (recordStep due s) := by
  unfold recordStep
  split
  · rename_i hfetch; exact (State.fetch_run hfetch).runRecord_refusals hp hf
  · rename_i hfetch
    have hhalt := State.fetch_halts due hp
    rwa [hfetch] at hhalt

/-- A frame is refused where one of its records is: the posture stays as it is from record to record (R8). -/
theorem runFrame_refusals {n : Nat} {s : State} (hp : s.posture = .checked) : RefusesAsSpecified (runFrame n s) := by
  induction n generalizing s with
  | zero => unfold runFrame; split <;> trivial
  | succ m ih =>
    unfold runFrame
    split
    · rename_i due hf
      have hstep := recordStep_refusals hp hf
      dsimp only
      split
      · rename_i t ht
        obtain ⟨hposture, _⟩ := recordStep_sameContext ht
        exact ih (hposture.trans hp)
      · trivial
      · rename_i r hr; rwa [hr] at hstep
    · trivial

/-- Outside a frame HAS_NEXT, DECODE_FRAME and FB_VIEW are refused in `Uninit` and `Failed`, and where what they run is
(R271, R292). -/
theorem State.whenIdle_refused {s : State} {command : State → Outcome} {r : Refusal} (hidle : s.fsm.isDecoding = false)
    (h : s.whenIdle command = .refused r) : r = .uninitialised ∨ r = .failedDecoder ∨ command s = .refused r := by
  unfold State.whenIdle at h
  split at h
  · exact .inr (.inr h)
  · exact .inr (.inr h)
  · cases h; exact .inl rfl
  · cases h; exact .inr (.inl rfl)
  · rename_i hf; rw [hf] at hidle; cases hidle

/-- A command that answers wherever it runs is refused in `Uninit` and `Failed` alone. -/
theorem answeredWhenIdle_refused {s : State} {command : State → Outcome} {r : Refusal}
    (hcommand : ∀ s, ∃ t, command s = .next t) (hidle : s.fsm.isDecoding = false)
    (h : s.whenIdle command = .refused r) : r = .uninitialised ∨ r = .failedDecoder := by
  rcases State.whenIdle_refused hidle h with hr | hr | h
  · exact .inl hr
  · exact .inr hr
  · obtain ⟨t, ht⟩ := hcommand s
    cases ht.symm.trans h

/-- Outside a frame INIT is refused for want of its bytes alone (R242). -/
theorem execInit_refused {stream : List Byte} {n : Nat} {s : State} {r : Refusal} (hidle : s.fsm.isDecoding = false)
    (h : execInit stream n s = .refused r) : r = .shortStream := by
  simp only [execInit, hidle, Bool.false_eq_true, if_false] at h
  split at h
  · cases h
  · cases h; rfl

/-- DECODE_FRAME's own run refuses as its records do. -/
theorem execDecodeFrame_refused {s : State} {r : Refusal} (hp : s.posture = .checked) (hidle : s.fsm.isDecoding = false)
    (h : execDecodeFrame s = .refused r) :
    r = .uninitialised ∨ r = .failedDecoder ∨ (∃ cid, r = .unclearChunkId cid) ∨ r = .zeroStripFrame := by
  refine (State.whenIdle_refused hidle h).imp_right (Or.imp_right fun h => ?_)
  split at h
  · cases h
  · have hrun : RefusesAsSpecified (runFrame Config.frameFuel s.beginFrame) := runFrame_refusals hp
    rwa [h] at hrun

/-- What a command of the host is refused for outside a frame. -/
theorem hostCommand_refused {c : HostCmd} {s : State} {r : Refusal} (hp : s.posture = .checked)
    (hidle : s.fsm.isDecoding = false) (h : exec c.instr s = .refused r) :
    (∃ cid, r = .unclearChunkId cid) ∨ r = .zeroStripFrame ∨ r = .uninitialised ∨ r = .failedDecoder ∨
      r = .shortStream := by
  cases c with
  | init => exact .inr (.inr (.inr (.inr (execInit_refused hidle h))))
  | hasNext | fbView =>
    obtain hr | hr := answeredWhenIdle_refused (fun _ => ⟨_, rfl⟩) hidle h
    · exact .inr (.inr (.inl hr))
    · exact .inr (.inr (.inr (.inl hr)))
  | decodeFrame =>
    rcases execDecodeFrame_refused hp hidle h with hr | hr | hr | hr
    · exact .inr (.inr (.inl hr))
    · exact .inr (.inr (.inr (.inl hr)))
    · exact .inl hr
    · exact .inr (.inl hr)

/-- While no frame is being decoded a step is idle or issues the host's next command (R281). -/
theorem step_of_idle {s : State} (hidle : s.fsm.isDecoding = false) :
    step s = .next s ∨ ∃ c rest, s.cmds = c :: rest ∧ step s = exec c.instr { s with cmds := rest } := by
  unfold step
  split
  · rename_i hf; rw [hf] at hidle; cases hidle
  · split
    · exact .inl rfl
    · rename_i c rest hcmds; exact .inr ⟨c, rest, hcmds, rfl⟩

/-- Settles O55: while a frame is decoded the step is a record step, whose record is the one that is due, so that it is
refused as specified; else it is idle or issues a command. -/
theorem checkedStepRefusals : Obligations.CheckedStepRefusals := by
  unfold Obligations.CheckedStepRefusals
  intro s r _ hp h
  rcases s.fsm.decoding_or_idle with ⟨due, hf⟩ | hidle
  · have hstep := recordStep_refusals hp hf
    rw [← step_decoding hf, h] at hstep
    exact hstep.imp_right .inl
  · rcases step_of_idle hidle with hnext | ⟨c, rest, _, hcommand⟩
    · cases hnext.symm.trans h
    · exact hostCommand_refused (s := { s with cmds := rest }) hp hidle (hcommand.symm.trans h)

end Sys2Proof.Machine

/-!
PROOFS. Decoding and encoding are inverse to each other (R102 to R117): each format once in either direction, then the levels.
-/

namespace Sys2Proof

/-! ## Encodings -/

/-- The encoding of a record that only one level has. -/
theorem oneCode_eq_some {p : Prop} [Decidable p] {a c : Code} :
    (if p then some a else none) = some c ↔ p ∧ a = c := by
  rw [Option.ite_none_right_eq_some, Option.some.injEq]

/-- The encoding of a record that two levels have. -/
theorem twoCodes_cases {p q : Prop} [Decidable p] [Decidable q] {a b c : Code}
    (h : (if p then some a else if q then some b else none) = some c) : (p ∧ a = c) ∨ (q ∧ b = c) := by
  split at h
  · rename_i hp; exact .inl ⟨hp, Option.some.inj h⟩
  · exact .inr (oneCode_eq_some.mp h)

/-! ## What the bytes of a header decode to -/

/-- The bytes of a frame header decode to the record its flags bit 0 names (R102, R222). -/
theorem decodeFrameHeader_encode (spare : BitVec 7) (intra : BitVec 1) (flen : BitVec 24) (w h n : U16) (rest : List Byte) :
    decodeFrameHeader ((encodeFrameHeader (flagsByte spare intra) flen w h n).bytes ++ rest) =
      .ok (if intra.getLsbD 0 then .frameIntra spare flen w h n else .frameInter spare flen w h n, rest) := by
  simp only [encodeFrameHeader, bytesU24, bytesU16, List.cons_append, List.nil_append, decodeFrameHeader, flagsByte_spare,
    flagsByte_intra, joinU24_extract, joinU16_highByte_lowByte]
  split <;> rfl

/-- The bytes of a strip header decode by their id (R103, R104). -/
theorem decodeStripHeader_encode (sid l a b c d : U16) (rest : List Byte) :
    decodeStripHeader ((encodeStripHeader sid l a b c d).bytes ++ rest) =
      if sid = Config.stripIdIntra then .ok (.stripIntra l a b c d, rest)
      else if sid = Config.stripIdInter then .ok (.stripInter l a b c d, rest)
      else .error (.unknownStripId sid) := by
  simp only [encodeStripHeader, bytesU16, List.cons_append, List.nil_append, decodeStripHeader, joinU16_highByte_lowByte]

/-- The id of a row of the chunk table names that row's record (R106). -/
theorem decodeChunkHeader_of_mem {cid : U16} {make : U16 → Instr} (h : (cid, make) ∈ chunkRecords) (clen : U16) :
    decodeChunkHeader cid clen = .ok (make clen) := by
  simp only [chunkRecords, List.mem_cons, List.not_mem_nil, or_false, Prod.mk.injEq] at h
  rcases h with ⟨rfl, rfl⟩ | ⟨rfl, rfl⟩ | ⟨rfl, rfl⟩ | ⟨rfl, rfl⟩ | ⟨rfl, rfl⟩ | ⟨rfl, rfl⟩ | ⟨rfl, rfl⟩ | ⟨rfl, rfl⟩ |
    ⟨rfl, rfl⟩ | ⟨rfl, rfl⟩ | ⟨rfl, rfl⟩ <;> rfl

/-- The bytes of a chunk header decode as its id does (R105). -/
theorem decodeChunk_encode {cid clen : U16} {i : Instr} (h : decodeChunkHeader cid clen = .ok i) (rest : List Byte) :
    decodeChunk (bytesU16 cid ++ bytesU16 clen ++ rest) = .ok (i, rest) := by
  simp only [bytesU16, List.cons_append, List.nil_append, decodeChunk, joinU16_highByte_lowByte, h]

/-! ## Decoding an encoding -/

/-- The code, whatever follows it, decodes at the level to the record and leaves exactly what follows. -/
def DecodesTo (level : Level) (i : Instr) (c : Code) : Prop :=
  ∀ bits bytes, decode level (c.bits ++ bits) (c.bytes ++ bytes) = .ok { instr := i, bits := bits, bytes := bytes }

/-- The encoding of a row of the chunk table decodes to that row's record. -/
theorem decodesTo_of_encodeChunkHeader {level : Level} {cid clen : U16} {make : U16 → Instr} {c : Code}
    (hrow : (cid, make) ∈ chunkRecords) (h : encodeChunkHeader level cid clen = some c) :
    DecodesTo level (make clen) c := by
  obtain ⟨rfl, rfl⟩ := oneCode_eq_some.mp h
  intro bits bytes
  simp only [decode, decodeChunk_encode (decodeChunkHeader_of_mem hrow clen), withBits, List.nil_append]

theorem decodesTo_of_encode {level : Level} {i : Instr} {c : Code} (h : encode level i = some c) :
    DecodesTo level i c := by
  cases i with
  | frameIntra spare flen w ht n | frameInter spare flen w ht n =>
    obtain ⟨rfl, rfl⟩ := oneCode_eq_some.mp h
    exact fun bits bytes => congrArg (withBits bits) (decodeFrameHeader_encode spare _ flen w ht n bytes)
  | stripIntra l a b c d =>
    obtain ⟨rfl, rfl⟩ := oneCode_eq_some.mp h
    exact fun bits bytes => congrArg (withBits bits) (decodeStripHeader_encode Config.stripIdIntra l a b c d bytes)
  | stripInter l a b c d =>
    obtain ⟨rfl, rfl⟩ := oneCode_eq_some.mp h
    exact fun bits bytes => congrArg (withBits bits) (decodeStripHeader_encode Config.stripIdInter l a b c d bytes)
  | cbV412Full | cbV412Sel | cbV112Full | cbV112Sel | cbV48Full | cbV48Sel | cbV18Full | cbV18Sel | vecMixed | vecDelta
  | vecUniform => exact decodesTo_of_encodeChunkHeader (by simp [chunkRecords]) h
  | g8 | g12 =>
    obtain ⟨rfl, rfl⟩ | ⟨rfl, rfl⟩ := twoCodes_cases h
    · exact fun _ _ => rfl
    · exact fun _ _ => rfl
  | gskip =>
    obtain ⟨rfl | rfl, rfl⟩ := oneCode_eq_some.mp h
    · exact fun _ _ => rfl
    · exact fun _ _ => rfl
  | buV1 | bmV1 | bmV4 | bcSkip | bcV1 | bcV4 =>
    obtain ⟨rfl, rfl⟩ := oneCode_eq_some.mp h
    exact fun _ _ => rfl
  | ct | bwV1 | bwV4 | init | hasNext | decodeFrame | fbView => cases h

/-- Settles O2: an instruction's encoding names its level, at which its format is read back field by field. -/
theorem decodeOfEncode : Obligations.DecodeOfEncode := by
  unfold Obligations.DecodeOfEncode
  intro level i c bits bytes h
  exact decodesTo_of_encode h bits bytes

/-! ## Encoding what decodes -/

/-- The record has an encoding at the level, which is what stands in front of the bits and bytes left. -/
def TakenFrom (level : Level) (bits : List Bool) (bytes : List Byte) (d : Decoded) : Prop :=
  ∃ c, encode level d.instr = some c ∧ bits = c.bits ++ d.bits ∧ bytes = c.bytes ++ d.bytes

/-- The record's encoding at the level takes these mask bits, and its bytes are those in front of the rest. -/
def EncodedInFront (level : Level) (bits : List Bool) (i : Instr) (bytes rest : List Byte) : Prop :=
  ∃ taken, encode level i = some { bits := bits, bytes := taken } ∧ bytes = taken ++ rest

/-- A record without mask bits leaves them all. -/
theorem takenFrom_of_withBits {level : Level} {bits : List Bool} {bytes : List Byte} {r : Except Reject (Instr × List Byte)}
    {d : Decoded} (h : withBits bits r = .ok d) (hr : ∀ i rest, r = .ok (i, rest) → EncodedInFront level [] i bytes rest) :
    TakenFrom level bits bytes d := by
  obtain ⟨i, rest, hi, rfl⟩ := withBits_ok.mp h
  obtain ⟨taken, hcode, hbytes⟩ := hr i rest hi
  exact ⟨_, hcode, rfl, hbytes⟩

/-- An element of a selective chunk takes one mask bit, and a skipped group no byte (R154). -/
theorem takenFrom_of_decodeSelective {level : Level} {group : List Byte → Except Reject (Instr × List Byte)}
    {bits : List Bool} {bytes : List Byte} {d : Decoded} (h : decodeSelective group bits bytes = .ok d)
    (hskip : encode level .gskip = some { bits := [false], bytes := [] })
    (hgroup : ∀ i rest, group bytes = .ok (i, rest) → EncodedInFront level [true] i bytes rest) :
    TakenFrom level bits bytes d := by
  obtain ⟨hbits, hi, hbytes⟩ | ⟨hbits, hi⟩ := decodeSelective_ok h
  · exact ⟨_, (congrArg (encode level) hi).trans hskip, hbits, hbytes.symm⟩
  · obtain ⟨taken, hcode, hbytes⟩ := hgroup _ _ hi
    exact ⟨_, hcode, hbits, hbytes⟩

/-- Two bytes joined and taken apart. -/
theorem bytesU16_joinU16 (hi lo : Byte) : bytesU16 (joinU16 hi lo) = [hi, lo] := by
  rw [bytesU16, highByte_joinU16, lowByte_joinU16]

theorem encodedInFront_of_decodeFrameHeader {bytes rest : List Byte} {i : Instr}
    (h : decodeFrameHeader bytes = .ok (i, rest)) : EncodedInFront .frame [] i bytes rest := by
  unfold decodeFrameHeader at h
  split at h
  · rename_i f l2 l1 l0 w1 w0 h1 h0 n1 n0 rest'
    have hflags := flagsByte_eta f
    dsimp only at h
    split_ifs at h with hintra
    all_goals
      cases h
      refine ⟨_, rfl, ?_⟩
      simp only [hintra, if_true, Bool.false_eq_true, if_false] at hflags
      simp only [hflags, bytesU24_joinU24, bytesU16_joinU16, List.cons_append, List.nil_append]
  · cases h

theorem encodedInFront_of_decodeStripHeader {bytes rest : List Byte} {i : Instr}
    (h : decodeStripHeader bytes = .ok (i, rest)) : EncodedInFront .strip [] i bytes rest := by
  unfold decodeStripHeader at h
  split at h
  · dsimp only at h
    split_ifs at h with hintra hinter
    · cases h
      exact ⟨_, rfl, by simp only [← hintra, bytesU16_joinU16, List.cons_append, List.nil_append]⟩
    · cases h
      exact ⟨_, rfl, by simp only [← hinter, bytesU16_joinU16, List.cons_append, List.nil_append]⟩
  · cases h

theorem encodedInFront_of_decodeChunk {bytes rest : List Byte} {i : Instr} (h : decodeChunk bytes = .ok (i, rest)) :
    EncodedInFront .chunk [] i bytes rest := by
  unfold decodeChunk at h
  split at h
  · split at h
    · rename_i hi
      cases h
      obtain ⟨row, hrow, hid, rfl⟩ := decodeChunkHeader_ok hi
      refine ⟨_, chunkRecords_encode hrow _, ?_⟩
      simp only [hid, bytesU16_joinU16, List.cons_append, List.nil_append]
    · cases h
  · cases h

theorem encodedInFront_of_decodeGroup8 (selective : Bool) {bytes rest : List Byte} {i : Instr}
    (h : decodeGroup8 bytes = .ok (i, rest)) :
    EncodedInFront (.group8 selective) (if selective then [true] else []) i bytes rest := by
  obtain ⟨y0, y1, y2, y3, rfl, rfl⟩ := decodeGroup8_ok h
  cases selective <;> exact ⟨_, rfl, rfl⟩

theorem encodedInFront_of_decodeGroup12 (selective : Bool) {bytes rest : List Byte} {i : Instr}
    (h : decodeGroup12 bytes = .ok (i, rest)) :
    EncodedInFront (.group12 selective) (if selective then [true] else []) i bytes rest := by
  obtain ⟨y0, y1, y2, y3, u, v, rfl, rfl⟩ := decodeGroup12_ok h
  cases selective <;> exact ⟨_, rfl, rfl⟩

theorem takenFrom_of_decodeBlock {kind : VecKind} {bits : List Bool} {bytes : List Byte} {d : Decoded}
    (h : decodeBlock kind bits bytes = .ok d) : TakenFrom (.block kind) bits bytes d := by
  obtain ⟨i, restBits, rest⟩ := d
  rcases decodeBlock_ok h with ⟨rfl, hbits, i0, hbytes, rfl⟩ | ⟨rfl, hbits, i0, hbytes, rfl⟩ |
    ⟨rfl, hbits, i0, i1, i2, i3, hbytes, rfl⟩ | ⟨rfl, hbits, hbytes, rfl⟩ | ⟨rfl, hbits, i0, hbytes, rfl⟩ |
    ⟨rfl, hbits, i0, i1, i2, i3, hbytes, rfl⟩
  all_goals exact ⟨_, rfl, hbits, hbytes⟩

/-- Settles O3: at each level the format's bytes are those of the record that was read from them. -/
theorem encodeOfDecode : Obligations.EncodeOfDecode := by
  unfold Obligations.EncodeOfDecode
  intro level bits bytes d h
  cases level with
  | frame => exact takenFrom_of_withBits h fun _ _ => encodedInFront_of_decodeFrameHeader
  | strip => exact takenFrom_of_withBits h fun _ _ => encodedInFront_of_decodeStripHeader
  | chunk => exact takenFrom_of_withBits h fun _ _ => encodedInFront_of_decodeChunk
  | group8 selective =>
    cases selective with
    | false => exact takenFrom_of_withBits h fun _ _ => encodedInFront_of_decodeGroup8 false
    | true => exact takenFrom_of_decodeSelective h rfl fun _ _ => encodedInFront_of_decodeGroup8 true
  | group12 selective =>
    cases selective with
    | false => exact takenFrom_of_withBits h fun _ _ => encodedInFront_of_decodeGroup12 false
    | true => exact takenFrom_of_decodeSelective h rfl fun _ _ => encodedInFront_of_decodeGroup12 true
  | block => exact takenFrom_of_decodeBlock h

/-! ## Chunk ids (R106, R108) -/

/-- The eleven listed ids, as numbers. -/
theorem chunkRecords_ids : chunkRecords.map (fun row => row.1.toNat) =
    [0x2000, 0x2100, 0x2200, 0x2300, 0x2400, 0x2500, 0x2600, 0x2700, 0x3000, 0x3100, 0x3200] := rfl

/-- Their high bytes. -/
theorem chunkRecords_highBytes : chunkRecords.map (fun row => (highByte row.1).toNat) =
    [0x20, 0x21, 0x22, 0x23, 0x24, 0x25, 0x26, 0x27, 0x30, 0x31, 0x32] := rfl

theorem highByte_toNat (w : U16) : (highByte w).toNat = w.toNat / 256 := by
  have := w.isLt
  simp only [highByte, BitVec.extractLsb'_toNat, Nat.shiftRight_eq_div_pow]
  omega

/-- An id that no row has is rejected, by whether a row has its high byte (R108). -/
theorem decodeChunkHeader_of_unlisted {cid : U16} (clen : U16) (h : ∀ row ∈ chunkRecords, row.1 ≠ cid) :
    decodeChunkHeader cid clen =
      if ∃ row ∈ chunkRecords, highByte row.1 = highByte cid then .error (.unclearChunkId cid clen)
      else .error (.unknownChunkId cid clen) := by
  have hfind : chunkRecords.find? (fun row => row.1 == cid) = none := by simpa using h
  simp only [decodeChunkHeader, hfind, List.any_eq_true, beq_iff_eq]

/-- Settles O4: an id is recognised exactly where a row of the chunk table has it in all 16 bits. -/
theorem chunkIdMatching : Obligations.ChunkIdMatching := by
  unfold Obligations.ChunkIdMatching
  intro cid clen
  have hlisted : (∃ row ∈ chunkRecords, row.1 = cid) ↔
      cid.toNat ∈ [0x2000, 0x2100, 0x2200, 0x2300, 0x2400, 0x2500, 0x2600, 0x2700, 0x3000, 0x3100, 0x3200] := by
    simp only [← chunkRecords_ids, List.mem_map, BitVec.toNat_inj]
  have hhigh : (∃ row ∈ chunkRecords, highByte row.1 = highByte cid) ↔
      cid.toNat / 256 ∈ [0x20, 0x21, 0x22, 0x23, 0x24, 0x25, 0x26, 0x27, 0x30, 0x31, 0x32] := by
    simp only [← chunkRecords_highBytes, ← highByte_toNat, List.mem_map, BitVec.toNat_inj]
  dsimp only
  split
  · rename_i hid
    obtain ⟨row, hrow, rfl⟩ := hlisted.mpr hid
    exact ⟨_, decodeChunkHeader_of_mem hrow clen⟩
  · rename_i hid
    have hunlisted : ∀ row ∈ chunkRecords, row.1 ≠ cid := fun row hrow he => hid (hlisted.mp ⟨row, hrow, he⟩)
    rw [decodeChunkHeader_of_unlisted clen hunlisted]
    split
    · rename_i hbyte; exact if_pos (hhigh.mpr hbyte)
    · rename_i hbyte; exact if_neg (fun he => hbyte (hhigh.mp he))

/-! ## Words written out -/

/-- Settles O1: each word evaluates to its record. -/
theorem specWordsDecode : Obligations.SpecWordsDecode := by
  unfold Obligations.SpecWordsDecode
  exact ⟨rfl, rfl, rfl, rfl, rfl, rfl, rfl, rfl, rfl⟩

end Sys2Proof

/-!
PROOFS. The eight codebook chunks open their payload (R107, R151, R157 to R164), and a two-bit code goes on in the next mask
word (R117, R183).
-/

namespace Sys2Proof.Machine

/-- A codebook chunk whose length holds a payload inside the strip makes its first group due, with no mask bit left
(R151, R208). -/
theorem State.openCodebook_eq {s : State} {fr : FrameRegs} {st : StripRegs} {clen : U16}
    (hf : s.fsm = .decoding (.chunk fr st)) (hmin : 5 ≤ clen.toNat) (hfit : st.c + clen.toNat ≤ st.S + st.slen)
    (target : Target) (bpp12 selective : Bool) :
    s.openCodebook target bpp12 selective clen =
      .next { s with
        fsm := .decoding (.group fr st
          { target := target, bpp12 := bpp12, selective := selective, k := 0
            pl := { p := st.c + 4, E := st.c + clen.toNat, mask := 0, left := 0 } }) } := by
  have hheader : st.c + 4 ≤ st.S + st.slen := by omega
  have hlength : 4 ≤ clen.toNat ∧ st.c + clen.toNat ≤ st.S + st.slen := ⟨by omega, hfit⟩
  have hpayload : st.c + 4 < st.c + clen.toNat := by omega
  simp only [State.openCodebook, State.openChunk, State.codebookLoop, hf, hheader, hlength, hpayload, not_true_eq_false,
    if_true, if_false, and_self]

/-- Settles O28: the eight records open one payload, each with its target, group size and mode. -/
theorem codebookChunkOpens : Obligations.CodebookChunkOpens := by
  unfold Obligations.CodebookChunkOpens
  intro s fr st clen hf hmin hfit
  have hopen := State.openCodebook_eq hf hmin hfit
  exact ⟨hopen .v4 true false, hopen .v4 true true, hopen .v1 true false, hopen .v1 true true, hopen .v4 false false,
    hopen .v4 false true, hopen .v1 false false, hopen .v1 false true⟩

/-- With no bit left the next one is bit 31 of the word at the payload pointer, which passes the word (R183). -/
theorem State.nextBit_of_be32 {s : State} {pl : Payload} {w : BitVec 32} (hleft : pl.left = 0)
    (hend : pl.p + 4 ≤ pl.E) (hw : s.be32 pl.p = some w) :
    s.nextBit pl = .bit w.msb { pl with p := pl.p + 4, mask := w <<< 1, left := 31 } :=
  (State.nextBit_eq_of_be32 hleft hend hw).trans (State.nextBit_of_left (Nat.succ_ne_zero 31))

/-- Settles O6: the first bit is the last of the word in use, and the second finds none left. -/
theorem maskRefreshInsideCode : Obligations.MaskRefreshInsideCode := by
  unfold Obligations.MaskRefreshInsideCode
  intro s pl w hleft hend hw
  have hfirst : s.nextBit pl = .bit pl.mask.msb { pl with mask := pl.mask <<< 1, left := 0 } := by
    rw [State.nextBit_of_left (by omega), hleft]
  have hsecond : s.nextBit { pl with mask := pl.mask <<< 1, left := 0 } =
      .bit w.msb { pl with p := pl.p + 4, mask := w <<< 1, left := 31 } := State.nextBit_of_be32 rfl hend hw
  exact State.takeBits_succ hfirst (State.takeBits_succ hsecond rfl)

end Sys2Proof.Machine

/-!
PROOFS. The Color Transform answers its three channels saturated, divided by 8 and packed, for either rounding of HALF (R141
to R146).
-/

namespace Sys2Proof.Machine

/-- Saturation as a bound from above and one from below (R143). -/
theorem clampByte_eq_max_min (t : Int) : clampByte t = (max 0 (min 255 t)).toNat := by
  unfold clampByte
  split
  · omega
  · split <;> omega

/-- A channel's value: the saturated integer divided by 8 (R143, R144). -/
theorem channel_toNat (t : Int) : (channel t).toNat = (max 0 (min 255 t)).toNat / 8 := by
  have hle := clampByte_le t
  rw [channel, BitVec.toNat_ofNat, Nat.shiftRight_eq_div_pow, Nat.mod_eq_of_lt (by omega), clampByte_eq_max_min]

/-- A byte is its own saturation. -/
theorem channel_byte_toNat (y : Byte) : (channel (y.toNat : Int)).toNat = y.toNat / 8 := by
  have hy := y.isLt
  rw [channel_toNat]
  omega

/-- Truncation halves the absolute value and keeps the sign (R145). -/
theorem half_trunc (u : Int) : half .trunc u = if u < 0 then -(-u / 2) else u / 2 := by
  change u.tdiv 2 = _
  split
  · next hneg =>
    have hnonneg : 0 ≤ -u := by omega
    rw [← Int.tdiv_eq_ediv_of_nonneg hnonneg, Int.neg_tdiv, Int.neg_neg]
  · next hnonneg => exact Int.tdiv_eq_ediv_of_nonneg (Int.not_lt.mp hnonneg)

/-- Rounding down is the Euclidean quotient, the divisor being positive (R145). -/
theorem half_floor (u : Int) : half .floor u = u / 2 := Int.fdiv_eq_ediv_of_nonneg u (by decide)

theorem half_zero (h : ChromaHalf) : half h 0 = 0 := by cases h <;> rfl

/-- Fields of five bits do not overlap, so the packed word is their sum at the weights 1024, 32 and 1 (R144). -/
theorem packColour_eq_ofNat {r g b : Colour} (hr : r.toNat < 32) (hg : g.toNat < 32) (hb : b.toNat < 32) :
    packColour r g b = BitVec.ofNat 16 (b.toNat * 1024 + g.toNat * 32 + r.toNat) := by
  apply BitVec.eq_of_toNat_eq
  have hblue : b.toNat <<< 10 % 2 ^ 16 = b.toNat <<< 10 := Nat.mod_eq_of_lt (by rw [Nat.shiftLeft_eq]; omega)
  have hgreen : g.toNat <<< 5 % 2 ^ 16 = g.toNat <<< 5 := Nat.mod_eq_of_lt (by rw [Nat.shiftLeft_eq]; omega)
  have hlow : g.toNat <<< 5 + r.toNat < 2 ^ 10 := by rw [Nat.shiftLeft_eq]; omega
  calc (packColour r g b).toNat
      = b.toNat <<< 10 ||| (g.toNat <<< 5 ||| r.toNat) := by
        simp only [packColour, BitVec.toNat_or, BitVec.toNat_shiftLeft, hblue, hgreen, Nat.or_assoc]
    _ = b.toNat <<< 10 + (g.toNat <<< 5 + r.toNat) := by
        rw [← Nat.shiftLeft_add_eq_or_of_lt (show r.toNat < 2 ^ 5 from hr), ← Nat.shiftLeft_add_eq_or_of_lt hlow]
    _ = (BitVec.ofNat 16 (b.toNat * 1024 + g.toNat * 32 + r.toNat)).toNat := by
        rw [BitVec.toNat_ofNat, Nat.shiftLeft_eq, Nat.shiftLeft_eq]
        omega

/-- CT answers the sum of its three channels, each at its weight (R142, R144). -/
theorem colourTransform_eq_ofNat (h : ChromaHalf) (y u v : Byte) :
    colourTransform h y u v =
      BitVec.ofNat 16 ((channel (y.toNat + 2 * u.toInt)).toNat * 1024 +
        (channel (y.toNat - half h u.toInt - v.toInt)).toNat * 32 + (channel (y.toNat + 2 * v.toInt)).toNat) :=
  packColour_eq_ofNat (channel_lt _) (channel_lt _) (channel_lt _)

/-- CT changes the result port alone (R140). -/
theorem exec_ct (y u v : Byte) (s : State) :
    exec (.ct y u v) s = .next { s with reply := .colour (colourTransform s.chromaHalf y u v) } := rfl

/-- Settles O7: each channel of the packed sum is its saturated integer divided by 8, for either rounding of HALF. -/
theorem colourTransformResult : Obligations.ColourTransformResult := by
  unfold Obligations.ColourTransformResult
  intro y u v s
  simp only [exec_ct, colourTransform_eq_ofNat, channel_toNat]
  cases s.chromaHalf with
  | trunc => simp only [half_trunc]
  | floor => simp only [half_floor]

/-- Settles O8: without chroma every channel is that of the luma itself, and 0x0421 is the sum of the weights. -/
theorem greyWithoutChroma : Obligations.GreyWithoutChroma := by
  unfold Obligations.GreyWithoutChroma
  intro y s
  have hzero : (0 : Byte).toInt = 0 := rfl
  have hweights : y.toNat / 8 * 1024 + y.toNat / 8 * 32 + y.toNat / 8 = y.toNat / 8 * 0x0421 := by omega
  simp only [exec_ct, colourTransform_eq_ofNat, hzero, half_zero, Int.mul_zero, Int.add_zero, Int.sub_zero,
    channel_byte_toNat, hweights]

end Sys2Proof.Machine

/-!
PROOFS. Codebook chunks and their groups: what a chunk header, a group and GSKIP answer where the chunk goes on or closes
well, and which checks fail (R151 to R156, R165).
-/

namespace Sys2Proof.Machine

/-! ## Errors -/

/-- An error taken in a state of the same context is one of this state. -/
theorem FailsWith.of_sameContext {s u : State} {o : Outcome} {k : ErrKind} (hu : s.SameContext u)
    (h : FailsWith u o k) : FailsWith s o k := by
  obtain ⟨hp, hc, hs, hl, hv, hq⟩ := hu
  simpa only [FailsWith, hp, hc, hs, hl, hv, hq] using h

/-- In the checked posture a check that does not hold answers its error (R8, R268). -/
theorem State.failsWith_failCheck {s : State} (hp : s.posture = .checked) (k : ErrKind) :
    FailsWith s (s.failCheck k) k :=
  ⟨_, State.failCheck_checked k hp, rfl, rfl, rfl, rfl, rfl, rfl, rfl, rfl, rfl⟩

/-! ## The group loop -/

/-- What the group loop leaves from registers cb where it goes on or closes well: no slot and no pixel written; the next
element due while payload bytes remain, else the chunk ended (R151, R156). -/
structure State.LoopClosed (s t : State) (fr : FrameRegs) (st : StripRegs) (cb : CodebookRegs) : Prop where
  slots : t.slots = s.slots
  fb : t.fb = s.fb
  free : t.free = s.free
  done : s.RecordDone t st
  onward : cb.pl.p < cb.pl.E → t.cursor = s.cursor ∧ t.fsm = .decoding (.group fr st cb)
  ended : cb.pl.E ≤ cb.pl.p → s.ChunkEnded t fr st cb.pl.E

theorem State.codebookLoop_closes {s : State} {fr : FrameRegs} {st : StripRegs} {cb : CodebookRegs}
    (h : GroupEndsWell fr st cb cb.pl.p) : ∃ t, s.codebookLoop fr st cb = .next t ∧ s.LoopClosed t fr st cb := by
  unfold State.codebookLoop
  split
  · rename_i hp
    exact ⟨_, rfl, rfl, rfl, rfl, ⟨⟨rfl, rfl, rfl, rfl, rfl, rfl⟩, .inl ⟨rfl, rfl, rfl⟩, .inl rfl⟩,
      fun _ => ⟨rfl, rfl⟩, fun he => absurd hp (Nat.not_lt.mpr he)⟩
  · rename_i hp
    obtain ⟨hmask, hclose⟩ := h.resolve_left hp
    have hserved : ¬ (cb.selective = true ∧ cb.pl.mask ≠ 0) := fun ⟨hs, hm⟩ => hm (hmask hs)
    rw [if_neg hserved]
    obtain ⟨t, ht, hslots, hfb, hfree, hcontext, hgoes, hcursor, hended⟩ := State.chunkLoop_closes (s := s) hclose
    exact ⟨t, ht, hslots, hfb, hfree, ⟨hcontext, hgoes, hcursor⟩, fun h => absurd h hp, fun _ => hended⟩

/-- Mask bits not served when the payload is used up are an error (R156). -/
theorem State.codebookLoop_fails {s : State} {fr : FrameRegs} {st : StripRegs} {cb : CodebookRegs}
    (hposture : s.posture = .checked) (hp : cb.pl.E ≤ cb.pl.p) (hs : cb.selective = true) (hm : cb.pl.mask ≠ 0) :
    FailsWith s (s.codebookLoop fr st cb) .invalidData := by
  have hleft : cb.selective = true ∧ cb.pl.mask ≠ 0 := ⟨hs, hm⟩
  simpa only [State.codebookLoop, if_neg (Nat.not_lt.mpr hp), if_pos hleft] using State.failsWith_failCheck hposture _

/-! ## Chunk headers -/

/-- The eight codebook records open a payload, each with its target, group size and mode (R157 to R164). -/
theorem exec_codebookChunk {i : Instr} {clen : U16}
    (h : i ∈ [.cbV412Full clen, .cbV412Sel clen, .cbV112Full clen, .cbV112Sel clen,
      .cbV48Full clen, .cbV48Sel clen, .cbV18Full clen, .cbV18Sel clen]) :
    ∃ target bpp12 selective, ∀ s, exec i s = s.openCodebook target bpp12 selective clen := by
  simp only [List.mem_cons, List.not_mem_nil, or_false] at h
  rcases h with rfl | rfl | rfl | rfl | rfl | rfl | rfl | rfl <;> exact ⟨_, _, _, fun _ => rfl⟩

/-- The registers of a codebook chunk at entry 0 of a payload from p to E, with no mask bit left (R150, R151). -/
def CodebookRegs.opened (target : Target) (bpp12 selective : Bool) (p E : Nat) : CodebookRegs :=
  { target := target, bpp12 := bpp12, selective := selective, k := 0, pl := { p := p, E := E, mask := 0, left := 0 } }

/-- A codebook chunk of 4 bytes inside its strip opens a payload that is used up (R165 a). -/
theorem State.openCodebook_empty {s : State} {fr : FrameRegs} {st : StripRegs} {clen : U16}
    (hf : s.fsm = .decoding (.chunk fr st)) (hlen : clen.toNat = 4) (hfit : st.c + 4 ≤ st.S + st.slen)
    (target : Target) (bpp12 selective : Bool) :
    s.openCodebook target bpp12 selective clen =
      s.codebookLoop fr st (.opened target bpp12 selective (st.c + 4) (st.c + 4)) := by
  simp only [CodebookRegs.opened, State.openCodebook, State.openChunk, hf, hlen, hfit, not_true_eq_false, if_false,
    Nat.le_refl, and_self]

/-- Settles O29: the group loop is at its end at once, with no mask bit left. -/
theorem emptyCodebookChunk : Obligations.EmptyCodebookChunk := by
  unfold Obligations.EmptyCodebookChunk
  intro s fr st clen i hf hlen hfit hclose hi
  obtain ⟨target, bpp12, selective, hexec⟩ := exec_codebookChunk hi
  rw [hexec, State.openCodebook_empty hf hlen hfit]
  obtain ⟨t, ht, hloop⟩ := State.codebookLoop_closes (s := s)
    (cb := .opened target bpp12 selective (st.c + 4) (st.c + 4)) (.inr ⟨fun _ => rfl, hclose⟩)
  exact ⟨t, ht, hloop.slots, hloop.fb, hloop.free, hloop.done, hloop.ended (Nat.le_refl _)⟩

/-! ## GSKIP -/

/-- GSKIP goes on with the next entry (R154). -/
theorem exec_gskip {s : State} {fr : FrameRegs} {st : StripRegs} {cb : CodebookRegs}
    (hf : s.fsm = .decoding (.group fr st cb)) (hs : cb.selective = true) (hk : cb.k < 256) :
    exec .gskip s = s.codebookLoop fr st { cb with k := cb.k + 1 } := by
  simp [exec, execGskip, hf, hs, hk]

/-- There is no 257th entry to skip (R151). -/
theorem exec_gskip_full {s : State} {fr : FrameRegs} {st : StripRegs} {cb : CodebookRegs}
    (hf : s.fsm = .decoding (.group fr st cb)) (hs : cb.selective = true) (hk : 256 ≤ cb.k) :
    exec .gskip s = s.failCheck .invalidData := by
  simp [exec, execGskip, hf, hs, hk]

/-- Settles O34: GSKIP is the group loop with the entry index advanced. -/
theorem groupSkipKeepsEntry : Obligations.GroupSkipKeepsEntry := by
  unfold Obligations.GroupSkipKeepsEntry
  intro s fr st cb hf hs hk hend
  rw [exec_gskip hf hs hk]
  obtain ⟨t, ht, hloop⟩ := State.codebookLoop_closes (s := s) (cb := { cb with k := cb.k + 1 }) hend
  exact ⟨t, ht, hloop.slots, hloop.fb, hloop.free, hloop.done, hloop.onward, hloop.ended⟩

/-! ## Groups -/

/-- G8 in a chunk of 8-bit groups (R152). -/
theorem exec_g8 {s : State} {fr : FrameRegs} {st : StripRegs} {cb : CodebookRegs}
    (hf : s.fsm = .decoding (.group fr st cb)) (hmode : cb.bpp12 = false) (y0 y1 y2 y3 : Byte) :
    exec (.g8 y0 y1 y2 y3) s = s.decodeGroup fr st cb 4 (groupEntry s.chromaHalf y0 y1 y2 y3 0 0) := by
  simp [exec, execG8, hf, hmode]

/-- G12 in a chunk of 12-bit groups (R152). -/
theorem exec_g12 {s : State} {fr : FrameRegs} {st : StripRegs} {cb : CodebookRegs}
    (hf : s.fsm = .decoding (.group fr st cb)) (hmode : cb.bpp12 = true) (y0 y1 y2 y3 u v : Byte) :
    exec (.g12 y0 y1 y2 y3 u v) s = s.decodeGroup fr st cb 6 (groupEntry s.chromaHalf y0 y1 y2 y3 u v) := by
  simp [exec, execG12, hf, hmode]

/-- The registers after a group of n bytes (R151). -/
def CodebookRegs.advance (cb : CodebookRegs) (n : Nat) : CodebookRegs :=
  { cb with k := cb.k + 1, pl := { cb.pl with p := cb.pl.p + n } }

/-- A group inside its payload is a write to the strip's slot and the group loop past it (R151, R153). -/
theorem State.decodeGroup_eq {s : State} {fr : FrameRegs} {st : StripRegs} {cb : CodebookRegs} {n : Nat} {e : Entry}
    (hk : cb.k < 256) (hfit : cb.pl.p + n ≤ cb.pl.E) :
    s.decodeGroup fr st cb n e =
      (s.setSlot fr.i (s.slots[fr.i.val].writeEntry cb.target cb.k e hk)).codebookLoop fr st (cb.advance n) := by
  simp only [State.decodeGroup, hk, hfit, dite_true, not_true_eq_false, if_false, CodebookRegs.advance]

theorem State.decodeGroup_closes {s : State} {fr : FrameRegs} {st : StripRegs} {cb : CodebookRegs} {n : Nat} (e : Entry)
    (hk : cb.k < 256) (hfit : cb.pl.p + n ≤ cb.pl.E) (hend : GroupEndsWell fr st cb (cb.pl.p + n)) :
    ∃ t, s.decodeGroup fr st cb n e = .next t ∧
      (s.setSlot fr.i (s.slots[fr.i.val].writeEntry cb.target cb.k e hk)).LoopClosed t fr st (cb.advance n) := by
  rw [State.decodeGroup_eq hk hfit]
  exact State.codebookLoop_closes hend

/-- A 257th entry, a payload that ends inside the group, and mask bits not served after it are errors (R151, R152,
R156). -/
theorem State.decodeGroup_fails {s : State} {fr : FrameRegs} {st : StripRegs} {cb : CodebookRegs} {n : Nat} (e : Entry)
    (hposture : s.posture = .checked)
    (h : 256 ≤ cb.k ∨ cb.pl.E < cb.pl.p + n ∨ (cb.pl.E ≤ cb.pl.p + n ∧ cb.selective = true ∧ cb.pl.mask ≠ 0)) :
    FailsWith s (s.decodeGroup fr st cb n e) .invalidData := by
  by_cases hk : cb.k < 256
  · by_cases hfit : cb.pl.p + n ≤ cb.pl.E
    · obtain ⟨hp, hs, hm⟩ := (h.resolve_left (Nat.not_le.mpr hk)).resolve_left (Nat.not_lt.mpr hfit)
      rw [State.decodeGroup_eq hk hfit]
      exact .of_sameContext (s.sameContext_setSlot fr.i _)
        (State.codebookLoop_fails (cb := cb.advance n) hposture hp hs hm)
    · simpa only [State.decodeGroup, dif_pos hk, if_pos hfit] using State.failsWith_failCheck hposture _
  · simpa only [State.decodeGroup, dif_neg hk] using State.failsWith_failCheck hposture _

/-- Settles O35: the group is checked in either mode alike, and so is what follows a group or a GSKIP. -/
theorem groupErrors : Obligations.GroupErrors := by
  unfold Obligations.GroupErrors
  intro s fr st cb y0 y1 y2 y3 u v hf hposture i n
  have hgroup : ∃ e, exec i s = s.decodeGroup fr st cb n e := by
    cases hmode : cb.bpp12 with
    | false => simp only [i, n, hmode]; exact ⟨_, exec_g8 hf hmode ..⟩
    | true => simp only [i, n, hmode]; exact ⟨_, exec_g12 hf hmode ..⟩
  obtain ⟨e, hexec⟩ := hgroup
  rw [hexec]
  have hfails := State.decodeGroup_fails (fr := fr) (st := st) (cb := cb) (n := n) e hposture
  have hskip_full : 256 ≤ cb.k → cb.selective = true → FailsWith s (exec .gskip s) .invalidData := fun hk hs =>
    exec_gskip_full hf hs hk ▸ State.failsWith_failCheck hposture _
  refine ⟨fun hk => hfails (.inl hk), hskip_full, fun hshort => hfails (.inr (.inl hshort)),
    fun hp hs hm => hfails (.inr (.inr ⟨hp.ge, hs, hm⟩)), fun hp hs hm => ?_⟩
  rcases Nat.lt_or_ge cb.k 256 with hk | hk
  · rw [exec_gskip hf hs hk]
    exact State.codebookLoop_fails (cb := { cb with k := cb.k + 1 }) hposture hp hs hm
  · exact hskip_full hk hs

/-! ## Writing an entry -/

/-- A codebook after a write: entry k of the target, every other entry as before (R153). -/
theorem Slot.writeEntry_codebook_getElem (sl : Slot) (t g : Target) {k : Nat} (e : Entry) (h : k < 256) (n : Fin 256) :
    ((sl.writeEntry t k e h).codebook g)[n.val] = if g = t ∧ n.val = k then e else (sl.codebook g)[n.val] := by
  by_cases hg : g = t
  · subst hg; simp [Vector.getElem_set, eq_comm]
  · simp [Slot.writeEntry_codebook_other sl t g k e h hg, hg]

/-- The flags after a write: flag k of the target, every other flag as before (R153). -/
theorem Slot.writeEntry_written_getElem (sl : Slot) (t g : Target) {k : Nat} (e : Entry) (h : k < 256) (n : Fin 256) :
    ((sl.writeEntry t k e h).written g)[n.val] = if g = t ∧ n.val = k then true else (sl.written g)[n.val] := by
  by_cases hg : g = t
  · subst hg; simp [Vector.getElem_set, eq_comm]
  · simp [Slot.writeEntry_written_other sl t g k e h hg, hg]

/-- Slot j after slot i has been replaced. -/
theorem State.setSlot_getElem (s : State) (i j : Fin 32) (sl : Slot) :
    (s.setSlot i sl).slots[j.val] = if j = i then sl else s.slots[j.val] := by
  simp [Vector.getElem_set, Fin.ext_iff, eq_comm]

/-- Writing entry k of a slot's target is the write of that entry and its flag alone (R153). -/
theorem State.wroteEntry_setSlot (s : State) (i : Fin 32) (target : Target) {k : Nat} (e : Entry) (hk : k < 256) :
    s.WroteEntry (s.setSlot i (s.slots[i.val].writeEntry target k e hk)) i target k e := by
  intro j
  rw [State.setSlot_getElem]
  by_cases hj : j = i
  · subst hj
    simp [Slot.writeEntry_codebook_getElem, Slot.writeEntry_written_getElem]
  · simp [hj]

theorem State.WroteEntry.congr {s t t' : State} {i : Fin 32} {target : Target} {k : Nat} {e : Entry}
    (h : s.WroteEntry t i target k e) (ht : t'.slots = t.slots) : s.WroteEntry t' i target k e := by
  unfold State.WroteEntry
  rw [ht]
  exact h

/-- Settles O33: either group writes its entry in the strip's slot, and the group loop goes on past it. -/
theorem groupWritesEntry : Obligations.GroupWritesEntry := by
  unfold Obligations.GroupWritesEntry
  intro s fr st cb y0 y1 y2 y3 u v hf hk done
  have hdone : ∀ {i n u v}, exec i s = s.decodeGroup fr st cb n (groupEntry s.chromaHalf y0 y1 y2 y3 u v) →
      done i n u v := by
    intro i n u v hexec hfit hend
    obtain ⟨t, ht, hloop⟩ := State.decodeGroup_closes (s := s) (groupEntry s.chromaHalf y0 y1 y2 y3 u v) hk hfit hend
    exact ⟨t, hexec.trans ht, (s.wroteEntry_setSlot fr.i cb.target _ hk).congr hloop.slots, hloop.fb, hloop.free,
      hloop.done, hloop.onward, hloop.ended⟩
  exact ⟨fun hmode => hdone (exec_g8 hf hmode ..), fun hmode => hdone (exec_g12 hf hmode ..)⟩

end Sys2Proof.Machine

/-!
PROOFS. A full codebook chunk, group by group (R151 to R153): what the m groups at the payload pointer leave, by induction on
m.
-/

namespace Sys2Proof.Machine

/-! ## The groups of a payload -/

/-- Bytes inside the stream are read at their offsets in order (R10). -/
theorem State.bytes_eq_reads {s : State} {n a : Nat} (h : a + n ≤ s.length) :
    s.bytes a n = some ((List.range n).map fun j => s.stream.read (a + j)) := by
  induction n generalizing a with
  | zero => rfl
  | succ m ih =>
    have ha : a < s.length := by omega
    have hrest := ih (a := a + 1) (by omega)
    simp only [State.bytes, State.byte, if_pos ha, hrest, List.range_succ_eq_map, List.map_cons, List.map_map, Nat.add_zero,
      Option.some.injEq, List.cons.injEq, true_and]
    exact List.map_congr_left fun j _ => congrArg s.stream.read (by simp only [Nat.succ_eq_add_one]; omega)

/-- The entry that the group at offset a makes (R110, R111, R152): chroma is zero in 8-bit mode. -/
def State.groupEntryAt (s : State) (bpp12 : Bool) (a : Nat) : Entry :=
  groupEntry s.chromaHalf (s.stream.read a) (s.stream.read (a + 1)) (s.stream.read (a + 2)) (s.stream.read (a + 3))
    (if bpp12 = true then s.stream.read (a + 4) else 0) (if bpp12 = true then s.stream.read (a + 5) else 0)

/-- The entry of a group whose bytes have been read. -/
theorem State.groupEntryAt_of_bytes {s : State} {bpp12 : Bool} {a : Nat} {y0 y1 y2 y3 u v : Byte}
    (h : if bpp12 = true then s.bytes a 6 = some [y0, y1, y2, y3, u, v]
      else s.bytes a 4 = some [y0, y1, y2, y3] ∧ u = 0 ∧ v = 0) :
    s.groupEntryAt bpp12 a = groupEntry s.chromaHalf y0 y1 y2 y3 u v := by
  cases bpp12 with
  | false =>
    obtain ⟨h, rfl, rfl⟩ := h
    cases (State.bytes_eq_reads (State.bytes_some_le h (by decide))).symm.trans h
    rfl
  | true =>
    have h : s.bytes a 6 = some [y0, y1, y2, y3, u, v] := h
    cases (State.bytes_eq_reads (State.bytes_some_le h (by decide))).symm.trans h
    rfl

/-- The bytes at the payload pointer of a full chunk decode to the group record of its mode, which decodes the group they
make (R151, R152). -/
theorem State.decode_fullGroup {s : State} {fr : FrameRegs} {st : StripRegs} {cb : CodebookRegs}
    (hf : s.fsm = .decoding (.group fr st cb)) (hs : cb.selective = false) :
    ∃ d, decode cb.level [] ((List.range cb.groupBytes).map fun j => s.stream.read (cb.pl.p + j)) = .ok d ∧
      exec d.instr s = s.decodeGroup fr st cb cb.groupBytes (s.groupEntryAt cb.bpp12 cb.pl.p) := by
  cases hmode : cb.bpp12 with
  | false =>
    have hlevel : cb.level = .group8 false := by simp [CodebookRegs.level, hmode, hs]
    have hn : cb.groupBytes = 4 := by simp [CodebookRegs.groupBytes, hmode]
    rw [hlevel, hn]
    exact ⟨_, rfl, exec_g8 hf hmode ..⟩
  | true =>
    have hlevel : cb.level = .group12 false := by simp [CodebookRegs.level, hmode, hs]
    have hn : cb.groupBytes = 6 := by simp [CodebookRegs.groupBytes, hmode]
    rw [hlevel, hn]
    exact ⟨_, rfl, exec_g12 hf hmode ..⟩

/-- The step at a group of a full chunk decodes the group at the payload pointer (R151). -/
theorem step_fullGroup {s : State} {fr : FrameRegs} {st : StripRegs} {cb : CodebookRegs}
    (hf : s.fsm = .decoding (.group fr st cb)) (hs : cb.selective = false) (hk : cb.k < 256)
    (hfit : cb.pl.p + cb.groupBytes ≤ cb.pl.E) (hin : cb.pl.E ≤ s.length) :
    step s = s.decodeGroup fr st cb cb.groupBytes (s.groupEntryAt cb.bpp12 cb.pl.p) := by
  obtain ⟨d, hd, hexec⟩ := State.decode_fullGroup hf hs
  rw [step_of_fetch hf (State.fetchGroup_plain hk hs hfit (State.bytes_eq_reads (hfit.trans hin)) hd), hexec]

theorem CodebookRegs.groupBytes_pos (cb : CodebookRegs) : 0 < cb.groupBytes := by
  unfold CodebookRegs.groupBytes
  split <;> decide

/-- The entry of the j-th group from the payload pointer on. -/
def State.dueEntry (s : State) (cb : CodebookRegs) (j : Nat) : Entry :=
  s.groupEntryAt cb.bpp12 (cb.pl.p + j * cb.groupBytes)

theorem State.dueEntry_zero (s : State) (cb : CodebookRegs) : s.dueEntry cb 0 = s.groupEntryAt cb.bpp12 cb.pl.p := by
  simp [State.dueEntry]

/-- Past a group the entries that are due are those after its own. -/
theorem State.SameContext.dueEntry_advance {s u : State} (h : s.SameContext u) (cb : CodebookRegs) (j : Nat) :
    u.dueEntry (cb.advance cb.groupBytes) j = s.dueEntry cb (j + 1) := by
  obtain ⟨_, hc, hs, _⟩ := h
  have ha : cb.pl.p + cb.groupBytes + j * cb.groupBytes = cb.pl.p + (j + 1) * cb.groupBytes := by
    rw [Nat.succ_mul]; omega
  rw [State.dueEntry, State.dueEntry, ← ha, State.groupEntryAt, State.groupEntryAt, hc, hs]
  rfl

/-! ## A slot after several writes -/

/-- Entries k to k + m - 1 of one target hold the given entries and are flagged written; every other entry, flag and the
other codebook are as before (R153). -/
structure Slot.Filled (sl sl' : Slot) (target : Target) (k m : Nat) (entry : Nat → Entry) : Prop where
  other : ∀ g, g ≠ target → sl'.codebook g = sl.codebook g ∧ sl'.written g = sl.written g
  inside : ∀ n : Fin 256, k ≤ n.val → n.val < k + m →
    (sl'.codebook target)[n.val] = entry (n.val - k) ∧ (sl'.written target)[n.val] = true
  outside : ∀ n : Fin 256, n.val < k ∨ k + m ≤ n.val →
    (sl'.codebook target)[n.val] = (sl.codebook target)[n.val] ∧
    (sl'.written target)[n.val] = (sl.written target)[n.val]

theorem Slot.Filled.zero (sl : Slot) (target : Target) (k : Nat) (entry : Nat → Entry) : sl.Filled sl target k 0 entry :=
  ⟨fun _ _ => ⟨rfl, rfl⟩, fun _ hk hn => absurd hn (Nat.not_lt.mpr hk), fun _ _ => ⟨rfl, rfl⟩⟩

/-- One entry written in front of the others. -/
theorem Slot.Filled.succ {sl sl' : Slot} {target : Target} {k m : Nat} {entry : Nat → Entry} (hk : k < 256)
    (h : (sl.writeEntry target k (entry 0) hk).Filled sl' target (k + 1) m fun j => entry (j + 1)) :
    sl.Filled sl' target k (m + 1) entry := by
  refine ⟨fun g hg => ?_, fun n hge hlt => ?_, fun n hn => ?_⟩
  · obtain ⟨hc, hw⟩ := h.other g hg
    exact ⟨hc.trans (sl.writeEntry_codebook_other target g k _ hk hg),
      hw.trans (sl.writeEntry_written_other target g k _ hk hg)⟩
  · rcases Nat.eq_or_lt_of_le hge with heq | hgt
    · obtain ⟨hc, hw⟩ := h.outside n (.inl (by omega))
      rw [hc, hw, Slot.writeEntry_codebook_getElem, Slot.writeEntry_written_getElem]
      simp [← heq]
    · obtain ⟨hc, hw⟩ := h.inside n hgt (by omega)
      have hindex : n.val - (k + 1) + 1 = n.val - k := by omega
      exact ⟨by rw [hc, hindex], hw⟩
  · obtain ⟨hc, hw⟩ := h.outside n (by omega)
    have hne : n.val ≠ k := by omega
    rw [hc, hw, Slot.writeEntry_codebook_getElem, Slot.writeEntry_written_getElem]
    simp [hne]

/-! ## The run of a chunk -/

/-- A record inside a chunk after which the frame goes on at the same cursor, and the records after it (R208). -/
theorem State.RecordDone.trans {s u t : State} {st : StripRegs} {due : Due} (h : s.RecordDone u st)
    (hf : u.fsm = .decoding due) (hc : u.cursor = s.cursor) (h' : u.RecordDone t st) : s.RecordDone t st := by
  obtain ⟨hcontext, hgoes, _⟩ := h
  obtain ⟨hcontext', hgoes', hcursor'⟩ := h'
  have hkept : u.err = s.err ∧ u.reply = s.reply :=
    hgoes.elim And.right fun ⟨hidle, _⟩ => absurd (hidle.symm.trans hf) (idleFsm_ne_decoding _ _ _)
  refine ⟨hcontext.trans hcontext', hgoes'.imp_left fun ⟨hd, he, hr⟩ => ⟨hd, he.trans hkept.1, hr.trans hkept.2⟩, ?_⟩
  exact hcursor'.imp_left (·.trans hc)

theorem State.ChunkEnded.of_cursor {s u t : State} {fr : FrameRegs} {st : StripRegs} {c : Nat} (hc : u.cursor = s.cursor)
    (h : u.ChunkEnded t fr st c) : s.ChunkEnded t fr st c := by
  unfold State.ChunkEnded
  rw [← hc]
  exact h

/-- Exactly m groups are left of a full chunk that then closes well, m of them at most to entry 255. -/
structure State.GroupsDue (s : State) (fr : FrameRegs) (st : StripRegs) (cb : CodebookRegs) (m : Nat) : Prop where
  fsm : s.fsm = .decoding (.group fr st cb)
  full : cb.selective = false
  room : cb.k + m ≤ 256
  payload : cb.pl.p + m * cb.groupBytes = cb.pl.E
  inStream : cb.pl.E ≤ s.length
  closes : ClosesWell fr st cb.pl.E

/-- What m groups at the payload pointer leave: their entries in the target from entry k on, no other slot and no pixel
written, and the chunk ended. -/
structure State.GroupsRun (s t : State) (fr : FrameRegs) (st : StripRegs) (cb : CodebookRegs) (m : Nat) : Prop where
  ended : s.ChunkEnded t fr st cb.pl.E
  fb : t.fb = s.fb
  free : t.free = s.free
  done : s.RecordDone t st
  otherSlots : ∀ j : Fin 32, j ≠ fr.i → t.slots[j.val] = s.slots[j.val]
  filled : s.slots[fr.i.val].Filled t.slots[fr.i.val] cb.target cb.k m (s.dueEntry cb)

/-- A record step that is due, and the record steps after it. -/
theorem recordRun_succ {s u : State} {due : Due} (hf : s.fsm = .decoding due) (h : step s = .next u) (m : Nat) :
    recordRun (m + 1) s = recordRun m u := by
  simp only [recordRun, hf, h]

/-- The first of the groups left writes its entry and goes on or ends the chunk. -/
theorem State.GroupsDue.step {s : State} {fr : FrameRegs} {st : StripRegs} {cb : CodebookRegs} {m : Nat}
    (h : s.GroupsDue fr st cb (m + 1)) :
    ∃ (hk : cb.k < 256) (u : State), step s = .next u ∧
      (s.setSlot fr.i (s.slots[fr.i.val].writeEntry cb.target cb.k (s.dueEntry cb 0) hk)).LoopClosed u fr st
        (cb.advance cb.groupBytes) := by
  have hk : cb.k < 256 := by have := h.room; omega
  have hpayload := h.payload
  rw [Nat.succ_mul] at hpayload
  have hfit : cb.pl.p + cb.groupBytes ≤ cb.pl.E := by omega
  have hend : GroupEndsWell fr st cb (cb.pl.p + cb.groupBytes) :=
    .inr ⟨fun hs => absurd (h.full.symm.trans hs) (by decide), h.closes⟩
  rw [step_fullGroup h.fsm h.full hk hfit h.inStream, ← State.dueEntry_zero]
  exact ⟨hk, State.decodeGroup_closes _ hk hfit hend⟩

/-- The groups left after the first one, where it is not the last. -/
theorem State.GroupsDue.tail {s u : State} {fr : FrameRegs} {st : StripRegs} {cb : CodebookRegs} {m : Nat}
    (h : s.GroupsDue fr st cb (m + 1)) (hf : u.fsm = .decoding (.group fr st (cb.advance cb.groupBytes)))
    (hl : u.length = s.length) : u.GroupsDue fr st (cb.advance cb.groupBytes) m := by
  obtain ⟨_, hfull, hroom, hpayload, hin, hclose⟩ := h
  refine ⟨hf, hfull, ?_, ?_, hl ▸ hin, hclose⟩
  · simp only [CodebookRegs.advance]; omega
  · rw [Nat.succ_mul] at hpayload
    change cb.pl.p + cb.groupBytes + m * cb.groupBytes = cb.pl.E
    omega

/-- The slots where the loop went on from a slot written. -/
theorem State.LoopClosed.slots_setSlot {s u : State} {i : Fin 32} {sl : Slot} {fr : FrameRegs} {st : StripRegs}
    {cb : CodebookRegs} (h : (s.setSlot i sl).LoopClosed u fr st cb) (j : Fin 32) :
    u.slots[j.val] = if j = i then sl else s.slots[j.val] := by
  simp only [h.slots, State.setSlot_getElem]

/-- The groups that are left run to the end of the chunk (R151 to R153). -/
theorem State.GroupsDue.run {fr : FrameRegs} {st : StripRegs} {m : Nat} :
    ∀ {s : State} {cb : CodebookRegs}, s.GroupsDue fr st cb (m + 1) →
      ∃ t, recordRun (m + 1) s = .next t ∧ s.GroupsRun t fr st cb (m + 1) := by
  induction m with
  | zero =>
    intro s cb h
    obtain ⟨hk, t, ht, hloop⟩ := h.step
    have hlast : cb.pl.E ≤ cb.pl.p + cb.groupBytes := by have := h.payload; omega
    refine ⟨t, recordRun_succ h.fsm ht 0, hloop.ended hlast, hloop.fb, hloop.free, hloop.done, fun j hj => ?_, ?_⟩
    · rw [hloop.slots_setSlot, if_neg hj]
    · rw [hloop.slots_setSlot, if_pos rfl]
      exact .succ hk (.zero ..)
  | succ m ih =>
    intro s cb h
    obtain ⟨hk, u, hu, hloop⟩ := h.step
    have hmore : cb.pl.p + cb.groupBytes < cb.pl.E := by
      have hpayload := h.payload
      have hpos := cb.groupBytes_pos
      rw [Nat.succ_mul, Nat.succ_mul] at hpayload
      omega
    obtain ⟨hcursor, hfsm⟩ := hloop.onward hmore
    have hdone : s.RecordDone u st := hloop.done
    have ⟨hcontext, _⟩ := hdone
    have ⟨_, _, _, hlength, _⟩ := hcontext
    obtain ⟨t, ht, hrun⟩ := ih (h.tail hfsm hlength)
    refine ⟨t, (recordRun_succ h.fsm hu (m + 1)).trans ht, hrun.ended.of_cursor hcursor, hrun.fb.trans hloop.fb,
      hrun.free.trans hloop.free, hdone.trans hfsm hcursor hrun.done, fun j hj => ?_, .succ hk ?_⟩
    · rw [hrun.otherSlots j hj, hloop.slots_setSlot, if_neg hj]
    · have hfilled := hrun.filled
      rw [hloop.slots_setSlot, if_pos rfl, funext (hcontext.dueEntry_advance cb)] at hfilled
      exact hfilled

/-- Settles O36, by induction on the number of groups left. -/
theorem fullCodebookChunk : Obligations.FullCodebookChunk := by
  unfold Obligations.FullCodebookChunk
  intro s fr st cb m hf hs hk hm hmax n hpayload hin hclose
  obtain ⟨m, rfl⟩ := Nat.exists_eq_add_of_le' hm
  have hdue : s.GroupsDue fr st cb (m + 1) := ⟨hf, hs, by omega, hpayload, hin, hclose⟩
  obtain ⟨t, ht, hrun⟩ := hdue.run
  have hfilled := hrun.filled
  rw [hk] at hfilled
  refine ⟨t, ht, hrun.ended, hrun.fb, hrun.free, hrun.done, hrun.otherSlots, hfilled.other,
    fun k y0 y1 y2 y3 u v hbytes hlt => ?_, fun k hge => hfilled.outside k (.inr (by omega))⟩
  obtain ⟨hentry, hwritten⟩ := hfilled.inside k (Nat.zero_le _) (by omega)
  have hgroup : s.groupEntryAt cb.bpp12 (cb.pl.p + k.val * n) = groupEntry s.chromaHalf y0 y1 y2 y3 u v := by
    refine State.groupEntryAt_of_bytes ?_
    cases hmode : cb.bpp12 <;> simpa [n, hmode] using hbytes
  exact ⟨hentry.trans hgroup, hwritten⟩

end Sys2Proof.Machine

/-!
PROOFS. What a step meets before a record runs: a fetch that answers InvalidData (R151, R152, R155, R183, R185, R186, R201,
R202, R208, R210, R221).
-/

namespace Sys2Proof.Machine

/-! ## Fetches that fail -/

/-- The fetch answers `InvalidData` without a record. -/
def State.FetchFails (s : State) (f : Fetched) : Prop :=
  ∃ o, f = .halt o ∧ FailsWith s o .invalidData

/-- A fetch that fails is the step's failure. -/
theorem step_fails_of_fetch {s : State} {due : Due} (hf : s.fsm = .decoding due) (h : s.FetchFails (s.fetch due)) :
    FailsWith s (step s) .invalidData := by
  obtain ⟨o, ho, hfails⟩ := h
  simpa only [step, hf, ho] using hfails

theorem State.sameContext_setFsm (s : State) (f : Fsm) : s.SameContext { s with fsm := f } :=
  ⟨rfl, rfl, rfl, rfl, rfl, rfl⟩

theorem State.FetchFails.of_sameContext {s u : State} {f : Fetched} (hu : s.SameContext u) (h : u.FetchFails f) :
    s.FetchFails f := by
  obtain ⟨o, ho, hfails⟩ := h
  exact ⟨o, ho, hfails.of_sameContext hu⟩

theorem State.fetchFails_failCheck {s : State} (hp : s.posture = .checked) :
    s.FetchFails (.halt (s.failCheck .invalidData)) :=
  ⟨_, rfl, State.failsWith_failCheck hp _⟩

/-- Bytes that do not end by the limit are an error, whatever they are. -/
theorem State.fetchWithin_short {s : State} {level : Level} {bits : List Bool} {a n limit : Nat}
    (hp : s.posture = .checked) (h : limit < a + n) : s.FetchFails (s.fetchWithin level bits a n limit) := by
  rw [State.fetchWithin, if_neg (Nat.not_le.mpr h)]
  exact State.fetchFails_failCheck hp

/-- Bytes that the decoder rejects, but for an id of R108's band, are an error. -/
theorem State.fetchWithin_rejected {s : State} {level : Level} {bits : List Bool} {a n limit : Nat} {l : List Byte}
    {r : Reject} (hp : s.posture = .checked) (hle : a + n ≤ limit) (hl : s.bytes a n = some l)
    (hr : decode level bits l = .error r) (hclear : ∀ cid clen, r ≠ .unclearChunkId cid clen) :
    s.FetchFails (s.fetchWithin level bits a n limit) := by
  have hreject : s.reject r = s.failCheck .invalidData := by
    cases r with
    | unclearChunkId cid clen => exact absurd rfl (hclear cid clen)
    | truncated | unknownStripId | unknownChunkId => rfl
  simp only [State.fetchWithin, State.fetchAt, if_pos hle, hl, hr, hreject]
  exact State.fetchFails_failCheck hp

/-! ## Ids -/

/-- Bytes that begin with neither strip id are rejected (R104, R202). -/
theorem decode_strip_unknown {l1 l0 : Byte} {rest : List Byte} (hintra : ¬ (l1 = 0x10 ∧ l0 = 0))
    (hinter : ¬ (l1 = 0x11 ∧ l0 = 0)) :
    ∃ r, decode .strip [] (l1 :: l0 :: rest) = .error r ∧ ∀ cid clen, r ≠ .unclearChunkId cid clen := by
  simp only [decode]
  cases hd : decodeStripHeader (l1 :: l0 :: rest) with
  | error r =>
    refine ⟨r, rfl, ?_⟩
    rcases decodeStripHeader_error hd with rfl | ⟨sid, rfl⟩ <;> exact fun _ _ => nofun
  | ok d =>
    exfalso
    obtain ⟨i, rest'⟩ := d
    obtain ⟨taken, hcode, hbytes⟩ := encodedInFront_of_decodeStripHeader hd
    obtain ⟨_, _, _, _, _, rfl | rfl⟩ := decodeStripHeader_ok hd
    · cases hcode
      cases hbytes
      exact hintra ⟨rfl, rfl⟩
    · cases hcode
      cases hbytes
      exact hinter ⟨rfl, rfl⟩

/-- A chunk id whose high byte no listed id has is unrecognised (R108, R210). -/
theorem decode_chunk_unknown {i1 i0 l1 l0 : Byte}
    (h : i1.toNat ∉ [0x20, 0x21, 0x22, 0x23, 0x24, 0x25, 0x26, 0x27, 0x30, 0x31, 0x32]) :
    decode .chunk [] [i1, i0, l1, l0] = .error (.unknownChunkId (joinU16 i1 i0) (joinU16 l1 l0)) := by
  have hbyte : ∀ row ∈ chunkRecords, highByte row.1 ≠ i1 := by
    intro row hrow he
    rw [← chunkRecords_highBytes, ← he] at h
    exact h (List.mem_map_of_mem (f := fun row : U16 × (U16 → Instr) => (highByte row.1).toNat) hrow)
  have hunlisted : ∀ row ∈ chunkRecords, row.1 ≠ joinU16 i1 i0 := fun row hrow he =>
    hbyte row hrow (by rw [he, highByte_joinU16])
  have hband : ¬ ∃ row ∈ chunkRecords, highByte row.1 = highByte (joinU16 i1 i0) := fun ⟨row, hrow, he⟩ =>
    hbyte row hrow (by rw [he, highByte_joinU16])
  simp only [decode, decodeChunk, decodeChunkHeader_of_unlisted _ hunlisted, if_neg hband, withBits]

/-! ## Mask bits -/

/-- A word that does not fit the payload gives no bit (R155, R183). -/
theorem State.nextBit_endsInside {s : State} {pl : Payload} (hleft : pl.left = 0) (h : pl.E < pl.p + 4) :
    s.nextBit pl = .endsInside := by
  simp only [State.nextBit, if_pos hleft, if_neg (Nat.not_le.mpr h)]

/-- n bits taken are n bits. -/
theorem State.takeBits_length {s : State} {n : Nat} {pl pl' : Payload} {bits : List Bool}
    (h : s.takeBits n pl = some (bits, pl')) : bits.length = n := by
  induction n generalizing pl bits with
  | zero => cases h; rfl
  | succ m ih =>
    simp only [State.takeBits] at h
    split at h
    · split at h
      · rename_i hm; cases h; exact congrArg (· + 1) (ih hm)
      · cases h
    · cases h

/-! ## Groups -/

/-- The ways the fetch of a group fails while payload bytes are left (R151, R152, R155). -/
theorem State.fetchGroup_fails {s : State} {fr : FrameRegs} {st : StripRegs} {cb : CodebookRegs}
    (hposture : s.posture = .checked) (hp : cb.pl.p < cb.pl.E)
    (h : 256 ≤ cb.k ∨
      (cb.selective = true ∧ s.nextBit cb.pl = .endsInside) ∨
      (cb.selective = false ∧ cb.pl.E < cb.pl.p + cb.groupBytes) ∨
      (cb.selective = true ∧ ∃ pl, s.nextBit cb.pl = .bit true pl ∧ pl.E < pl.p + cb.groupBytes)) :
    s.FetchFails (s.fetchGroup fr st cb) := by
  unfold State.fetchGroup
  rw [if_neg (not_not_intro hp)]
  by_cases hk : cb.k < 256
  · rw [if_neg (not_not_intro hk)]
    rcases h.resolve_left (Nat.not_le.mpr hk) with ⟨hs, hb⟩ | ⟨hs, hshort⟩ | ⟨hs, pl, hb, hshort⟩
    · simp only [hs, hb, if_true]
      exact State.fetchFails_failCheck hposture
    · simp only [hs, Bool.false_eq_true, if_false]
      exact State.fetchWithin_short hposture hshort
    · simp only [hs, hb, if_true]
      exact .of_sameContext (s.sameContext_setFsm _) (State.fetchWithin_short hposture hshort)
  · rw [if_pos hk]
    exact State.fetchFails_failCheck hposture

/-! ## Block codes -/

/-- Mask bits that are exactly a code of the kind of chunk (R114 to R116). -/
inductive BlockBits : VecKind → List Bool → Prop where
  | uniform : BlockBits .uniform []
  | mixed (b : Bool) : BlockBits .mixed [b]
  | deltaSkip : BlockBits .delta [false]
  | deltaDraw (b : Bool) : BlockBits .delta [true, b]

/-- With enough index bytes they decode, and no bit is left. -/
theorem BlockBits.decodes {kind : VecKind} {bits : List Bool} (h : BlockBits kind bits) :
    ∃ d, decodeBlock kind bits [0, 0, 0, 0] = .ok d ∧ d.bits = [] := by
  cases h with
  | uniform | deltaSkip => exact ⟨_, rfl, rfl⟩
  | mixed b | deltaDraw b => cases b <;> exact ⟨_, rfl, rfl⟩

/-- A code whose index bytes do not fit the payload fails (R185, R186). -/
theorem State.fetchBlock_short {s : State} {fr : FrameRegs} {st : StripRegs} {vp : VectorRegs} {n : Nat}
    {bits : List Bool} {pl : Payload} (hposture : s.posture = .checked) (ht : s.takeBits n vp.pl = some (bits, pl))
    (hbits : BlockBits vp.kind bits) (hshort : pl.E < pl.p + indexBytes vp.kind bits) :
    s.FetchFails (s.fetchBlock fr st vp) := by
  obtain ⟨d, hd, hend⟩ := hbits.decodes
  rw [State.fetchBlock_eq_fetchIndices ht hd hend]
  exact .of_sameContext (s.sameContext_setFsm _) (State.fetchWithin_short hposture hshort)

/-- A code whose first bit cannot be taken fails (R183). -/
theorem State.fetchBlock_noBit {s : State} {fr : FrameRegs} {st : StripRegs} {vp : VectorRegs}
    (hposture : s.posture = .checked) (hk : vp.kind ≠ .uniform) (hb : s.nextBit vp.pl = .endsInside) :
    s.FetchFails (s.fetchBlock fr st vp) := by
  cases hkind : vp.kind with
  | uniform => exact absurd hkind hk
  | mixed | delta =>
    simp only [State.fetchBlock, hkind, hb]
    exact State.fetchFails_failCheck hposture

/-- A delta code whose second bit cannot be taken fails (R117, R183). -/
theorem State.fetchBlock_noSecondBit {s : State} {fr : FrameRegs} {st : StripRegs} {vp : VectorRegs} {pl : Payload}
    (hposture : s.posture = .checked) (hk : vp.kind = .delta) (hfirst : s.nextBit vp.pl = .bit true pl)
    (hsecond : s.nextBit pl = .endsInside) : s.FetchFails (s.fetchBlock fr st vp) := by
  simp only [State.fetchBlock, hk, hfirst, hsecond]
  exact State.fetchFails_failCheck hposture

/-- Settles O45: at each kind of due record the fetch fails. -/
theorem fetchErrors : Obligations.FetchErrors := by
  unfold Obligations.FetchErrors
  intro s hposture
  refine ⟨?frame, ?strip, ?chunk, ?group, ?block⟩
  case frame =>
    intro hf hshort
    exact step_fails_of_fetch hf (State.fetchWithin_short hposture hshort)
  case strip =>
    refine fun fr hf => ⟨fun hshort => ?_, fun l1 l0 rest hle hl hintra hinter => ?_⟩
    · exact step_fails_of_fetch hf (State.fetchWithin_short hposture hshort)
    · obtain ⟨r, hr, hclear⟩ := decode_strip_unknown hintra hinter
      exact step_fails_of_fetch hf (State.fetchWithin_rejected hposture hle hl hr hclear)
  case chunk =>
    refine fun fr st hf => ⟨fun hshort => ?_, fun i1 i0 l1 l0 hle hl hid => ?_⟩
    · exact step_fails_of_fetch hf (State.fetchWithin_short hposture hshort)
    · exact step_fails_of_fetch hf
        (State.fetchWithin_rejected hposture hle hl (decode_chunk_unknown hid) fun _ _ => nofun)
  case group =>
    intro fr st cb hf hp
    have hfails := fun h => step_fails_of_fetch hf (State.fetchGroup_fails (fr := fr) (st := st) hposture hp h)
    exact ⟨fun hk => hfails (.inl hk),
      fun hs hleft hshort => hfails (.inr (.inl ⟨hs, State.nextBit_endsInside hleft hshort⟩)),
      fun hs hshort => hfails (.inr (.inr (.inl ⟨hs, hshort⟩))),
      fun pl hs hb hshort => hfails (.inr (.inr (.inr ⟨hs, pl, hb, hshort⟩)))⟩
  case block =>
    refine fun fr st vp hf => ⟨fun hk hleft hshort => ?_, fun hk hleft hmsb hshort => ?_,
      fun n bits pl ht hcode hshort => ?_⟩
    · exact step_fails_of_fetch hf (State.fetchBlock_noBit hposture hk (State.nextBit_endsInside hleft hshort))
    · have hfirst := State.nextBit_of_left (s := s) (pl := vp.pl) (by omega)
      rw [hmsb] at hfirst
      have hnone : vp.pl.left - 1 = 0 := by omega
      exact step_fails_of_fetch hf
        (State.fetchBlock_noSecondBit hposture hk hfirst (State.nextBit_endsInside hnone hshort))
    · refine step_fails_of_fetch hf (State.fetchBlock_short hposture ht ?_ hshort)
      rcases hcode with ⟨hk, rfl⟩ | ⟨hk, rfl⟩ | ⟨hk, rfl⟩ | ⟨hk, b, rfl⟩ <;> rw [hk]
      · cases ht
        exact .uniform
      · obtain ⟨b, rfl⟩ := List.length_eq_one_iff.mp (State.takeBits_length ht)
        exact .mixed b
      · exact .deltaSkip
      · exact .deltaDraw b

end Sys2Proof.Machine

/-!
PROOFS. BW.V1 as a special case of BW.V4 (R176).
-/

namespace Sys2Proof.Machine

theorem exec_bwV1 (x y : Nat) (e : Entry) (s : State) :
    exec (.bwV1 x y e) s = s.blockWrite x y (lanesV1 e) := rfl

theorem exec_bwV4 (x y : Nat) (e0 e1 e2 e3 : Entry) (s : State) :
    exec (.bwV4 x y e0 e1 e2 e3) s = s.blockWrite x y (lanesV4 e0 e1 e2 e3) := rfl

/-- An entry of one colour shows it at every pixel of its sub-quadrant. -/
@[simp] theorem Entry.colour_const (c : Colour) (j : Nat) : Entry.colour ⟨c, c, c, c⟩ j = c := by
  unfold Entry.colour
  split <;> rfl

/-- The selectors agree in each sub-quadrant: BW.V4 ignores the pixel number there, BW.V1 never asks for it (R176). -/
theorem lanesV4_const (e : Entry) :
    lanesV4 ⟨e.c0, e.c0, e.c0, e.c0⟩ ⟨e.c1, e.c1, e.c1, e.c1⟩ ⟨e.c2, e.c2, e.c2, e.c2⟩ ⟨e.c3, e.c3, e.c3, e.c3⟩ =
      lanesV1 e := by
  funext dx dy
  simp only [lanesV4, lanesV1, Entry.colour_const]
  match subQuadrant dx dy with
  | 0 | 1 | 2 | _ + 3 => rfl

/-- Settles O11: both are the same block write, whose colour selectors agree. -/
theorem blockWriteV1IsConstantV4 : Obligations.BlockWriteV1IsConstantV4 := by
  unfold Obligations.BlockWriteV1IsConstantV4
  intro s x y e
  rw [exec_bwV1, exec_bwV4, lanesV4_const]

end Sys2Proof.Machine

/-!
PROOFS. The vector placer: where a chunk's walk starts, what a block code draws and which block is due after it, and the
checks that fail (R181 to R192).
-/

namespace Sys2Proof.Machine

/-! ## Chunk headers -/

/-- A vector chunk inside the strip, whose box is not empty, makes the box's top-left block due, with no mask bit left
(R181, R208). -/
theorem State.openVector_eq {s : State} {fr : FrameRegs} {st : StripRegs} {clen : U16}
    (hf : s.fsm = .decoding (.chunk fr st)) (hmin : 4 ≤ clen.toNat) (hfit : st.c + clen.toNat ≤ st.S + st.slen)
    (hx : s.slots[fr.i.val].x0 < s.slots[fr.i.val].x1) (hy : s.slots[fr.i.val].y0 < s.slots[fr.i.val].y1)
    (kind : VecKind) :
    s.openVector kind clen =
      .next { s with
        fsm := .decoding (.block fr st
          { kind := kind, bx := s.slots[fr.i.val].x0, by_ := s.slots[fr.i.val].y0
            pl := { p := st.c + 4, E := st.c + clen.toNat, mask := 0, left := 0 } }) } := by
  have hheader : st.c + 4 ≤ st.S + st.slen := by omega
  simp only [State.openVector, State.openChunk, State.blockLoop, hf, hheader, hmin, hfit, hx, hy, not_true_eq_false,
    if_true, if_false, and_self]

/-- Settles O30: the three records open one payload, each with its kind. -/
theorem vectorChunkOpens : Obligations.VectorChunkOpens := by
  unfold Obligations.VectorChunkOpens
  intro s fr st clen hf hmin hfit hx hy
  have hopen := State.openVector_eq hf hmin hfit hx hy
  exact ⟨hopen .mixed, hopen .delta, hopen .uniform⟩

/-! ## The walk -/

/-- After a block that took n index bytes the walk is at the next block in raster order (R181). -/
theorem State.blockDone_eq (s : State) (fr : FrameRegs) (st : StripRegs) (vp : VectorRegs) (n : Nat) :
    s.blockDone fr st vp n =
      s.blockLoop fr st
        { vp with
          bx := if vp.bx + 4 < s.slots[fr.i.val].x1 then vp.bx + 4 else s.slots[fr.i.val].x0
          by_ := if vp.bx + 4 < s.slots[fr.i.val].x1 then vp.by_ else vp.by_ + 4
          pl := { vp.pl with p := vp.pl.p + n } } := by
  unfold State.blockDone State.nextBlock
  split <;> rfl

/-- Before the last block of a box that is not empty the next block is due. -/
theorem State.blockDone_of_not_lastBlock {s : State} {fr : FrameRegs} {vp : VectorRegs}
    (hbox : s.slots[fr.i.val].x0 < s.slots[fr.i.val].x1) (hrow : vp.by_ < s.slots[fr.i.val].y1)
    (hlast : ¬ s.slots[fr.i.val].lastBlock vp.bx vp.by_) (st : StripRegs) (n : Nat) :
    s.blockDone fr st vp n =
      .next { s with
        fsm := .decoding (.block fr st
          { vp with
            bx := if vp.bx + 4 < s.slots[fr.i.val].x1 then vp.bx + 4 else s.slots[fr.i.val].x0
            by_ := if vp.bx + 4 < s.slots[fr.i.val].x1 then vp.by_ else vp.by_ + 4
            pl := { vp.pl with p := vp.pl.p + n } }) } := by
  rw [State.blockDone_eq]
  unfold Slot.lastBlock at hlast
  refine if_pos ⟨?_, ?_⟩ <;> dsimp only <;> split <;> omega

/-- After the last block every payload byte must have been used, and then the chunk has ended (R189). -/
theorem State.blockDone_of_lastBlock {s : State} {fr : FrameRegs} {vp : VectorRegs}
    (hlast : s.slots[fr.i.val].lastBlock vp.bx vp.by_) (st : StripRegs) (n : Nat) :
    s.blockDone fr st vp n =
      if vp.pl.p + n = vp.pl.E then s.chunkLoop fr st vp.pl.E else s.failCheck .invalidData := by
  obtain ⟨hcolumn, hrow⟩ := hlast
  rw [State.blockDone_eq]
  simp only [if_neg (Nat.not_lt.mpr hcolumn)]
  exact if_neg fun ⟨hdue, _⟩ => Nat.not_lt.mpr hrow hdue

/-- What the walk leaves after a block, with the payload pointer at p: no slot and no pixel written; the next block due, or
the chunk ended (R181, R189). -/
structure State.WalkClosed (s t : State) (fr : FrameRegs) (st : StripRegs) (vp : VectorRegs) (p : Nat) : Prop where
  slots : t.slots = s.slots
  fb : t.fb = s.fb
  free : t.free = s.free
  done : s.RecordDone t st
  walk : s.WalkGoesOn t fr st vp p

theorem State.blockDone_closes {s : State} {fr : FrameRegs} {st : StripRegs} {vp : VectorRegs} {n : Nat}
    (h : s.BlockEndsWell fr st vp (vp.pl.p + n)) :
    ∃ t, s.blockDone fr st vp n = .next t ∧ s.WalkClosed t fr st vp (vp.pl.p + n) := by
  rcases h with ⟨hbox, hrow, hmore⟩ | ⟨hlast, hused, hclose⟩
  · exact ⟨_, State.blockDone_of_not_lastBlock hbox hrow hmore st n, rfl, rfl, rfl,
      ⟨⟨rfl, rfl, rfl, rfl, rfl, rfl⟩, .inl ⟨rfl, rfl, rfl⟩, .inl rfl⟩,
      fun _ => ⟨rfl, rfl⟩, fun hlast => absurd hlast hmore⟩
  · rw [State.blockDone_of_lastBlock hlast, if_pos hused]
    obtain ⟨t, ht, hslots, hfb, hfree, hcontext, hgoes, hcursor, hended⟩ := State.chunkLoop_closes (s := s) hclose
    exact ⟨t, ht, hslots, hfb, hfree, ⟨hcontext, hgoes, hcursor⟩, fun hmore => absurd hlast hmore, fun _ => hended⟩

/-- Payload bytes left over after the last block are an error (R189). -/
theorem State.blockDone_fails {s : State} {fr : FrameRegs} {st : StripRegs} {vp : VectorRegs} {n : Nat}
    (hposture : s.posture = .checked) (hlast : s.slots[fr.i.val].lastBlock vp.bx vp.by_)
    (hleft : vp.pl.p + n ≠ vp.pl.E) : FailsWith s (s.blockDone fr st vp n) .invalidData := by
  rw [State.blockDone_of_lastBlock hlast, if_neg hleft]
  exact State.failsWith_failCheck hposture _

/-! ## Colours by position (R170 to R172) -/

/-- The sub-quadrants are numbered top-left, top-right, bottom-left, bottom-right. -/
theorem subQuadrant_eq {dx dy : Nat} (hx : dx < 4) (hy : dy < 4) :
    subQuadrant dx dy = if dy < 2 then (if dx < 2 then 0 else 1) else (if dx < 2 then 2 else 3) := by
  unfold subQuadrant
  split_ifs <;> omega

/-- So are the pixels of a sub-quadrant. -/
theorem subPixel_eq (dx dy : Nat) :
    subPixel dx dy = if dy % 2 = 0 then (if dx % 2 = 0 then 0 else 1) else (if dx % 2 = 0 then 2 else 3) := by
  unfold subPixel
  split_ifs <;> omega

theorem lanesV1_eq (e : Entry) {dx dy : Nat} (hx : dx < 4) (hy : dy < 4) :
    lanesV1 e dx dy = if dy < 2 then (if dx < 2 then e.c0 else e.c1) else (if dx < 2 then e.c2 else e.c3) := by
  rw [lanesV1, subQuadrant_eq hx hy]
  split_ifs <;> rfl

theorem Entry.colour_subPixel (e : Entry) (dx dy : Nat) :
    Entry.colour e (subPixel dx dy) =
      if dy % 2 = 0 then (if dx % 2 = 0 then e.c0 else e.c1) else (if dx % 2 = 0 then e.c2 else e.c3) := by
  rw [subPixel_eq]
  split_ifs <;> rfl

theorem lanesV4_eq (e0 e1 e2 e3 : Entry) {dx dy : Nat} (hx : dx < 4) (hy : dy < 4) :
    lanesV4 e0 e1 e2 e3 dx dy =
      Entry.colour (if dy < 2 then (if dx < 2 then e0 else e1) else (if dx < 2 then e2 else e3)) (subPixel dx dy) := by
  rw [lanesV4, subQuadrant_eq hx hy]
  split_ifs <;> rfl

/-- A drawn block shows its colour selector at the sixteen positions of the block alone. -/
theorem State.Drew.congr {s t : State} {x y : Nat} {colour colour' : Nat → Nat → Colour} (h : s.Drew t x y colour)
    (hcolour : ∀ dx dy, dx < 4 → dy < 4 → colour dx dy = colour' dx dy) : s.Drew t x y colour' := by
  intro px py hpx hpy
  rw [h px py hpx hpy]
  split
  · rename_i hin
    exact hcolour _ _ (by omega) (by omega)
  · rfl

/-! ## Drawing -/

/-- The outcome o of a block code of n index bytes draws the due block and walks on: no slot is written, `free` counts the
values drawn so far (R173, R181). -/
def State.DrawsDueBlock (s : State) (o : Outcome) (fr : FrameRegs) (st : StripRegs) (vp : VectorRegs) (n free : Nat)
    (colour : Nat → Nat → Colour) : Prop :=
  ∃ t, o = .next t ∧ t.slots = s.slots ∧ t.free = free ∧ s.RecordDone t st ∧ s.Drew t vp.bx vp.by_ colour ∧
    s.WalkGoesOn t fr st vp (vp.pl.p + n)

theorem State.DrawsDueBlock.congr {s : State} {o : Outcome} {fr : FrameRegs} {st : StripRegs} {vp : VectorRegs}
    {n free : Nat} {colour colour' : Nat → Nat → Colour} (h : s.DrawsDueBlock o fr st vp n free colour)
    (hcolour : ∀ dx dy, dx < 4 → dy < 4 → colour dx dy = colour' dx dy) :
    s.DrawsDueBlock o fr st vp n free colour' := by
  obtain ⟨t, ht, hslots, hfree, hdone, hdrew, hwalk⟩ := h
  exact ⟨t, ht, hslots, hfree, hdone, hdrew.congr hcolour, hwalk⟩

/-- Inside the framebuffer drawing is sixteen pixel writes, which the walk goes on from (R173). -/
theorem State.drawBlock_eq {s : State} {vp : VectorRegs} (hx : vp.bx + 4 ≤ 320) (hy : vp.by_ + 4 ≤ 240) (fr : FrameRegs)
    (st : StripRegs) (n : Nat) (colour : Nat → Nat → Colour) :
    s.drawBlock fr st vp n colour =
      State.blockDone { s with fb := Framebuffer.setBlock s.fb vp.bx vp.by_ colour } fr st vp n := by
  simp only [State.drawBlock, State.writeBlock, hx, hy, and_self, if_true]

theorem State.drawBlock_draws {s : State} {fr : FrameRegs} {st : StripRegs} {vp : VectorRegs} {n : Nat}
    (hx : vp.bx + 4 ≤ 320) (hy : vp.by_ + 4 ≤ 240) (hend : s.BlockEndsWell fr st vp (vp.pl.p + n))
    (colour : Nat → Nat → Colour) :
    s.DrawsDueBlock (s.drawBlock fr st vp n colour) fr st vp n s.free colour := by
  rw [State.drawBlock_eq hx hy]
  obtain ⟨t, ht, hclosed⟩ :=
    State.blockDone_closes (s := { s with fb := Framebuffer.setBlock s.fb vp.bx vp.by_ colour }) hend
  refine ⟨t, ht, hclosed.slots, hclosed.free, hclosed.done, fun px py _ _ => ?_, hclosed.walk⟩
  rw [hclosed.fb]
  exact Framebuffer.pixel_setBlock s.fb vp.bx vp.by_ px py colour hy

theorem State.drawBlock_fails {s : State} {fr : FrameRegs} {st : StripRegs} {vp : VectorRegs} {n : Nat}
    (hposture : s.posture = .checked) (hlast : s.slots[fr.i.val].lastBlock vp.bx vp.by_)
    (hleft : vp.pl.p + n ≠ vp.pl.E) (hx : vp.bx + 4 ≤ 320) (hy : vp.by_ + 4 ≤ 240) (colour : Nat → Nat → Colour) :
    FailsWith s (s.drawBlock fr st vp n colour) .invalidData := by
  rw [State.drawBlock_eq hx hy]
  exact State.blockDone_fails (s := { s with fb := Framebuffer.setBlock s.fb vp.bx vp.by_ colour }) hposture hlast hleft

/-! ## Reading entries -/

/-- Reading an entry changes the count of free values drawn at most (U3). -/
theorem State.lookup_state {s u : State} {i : Fin 32} {g : Target} {idx : Byte} {e : Entry}
    (h : s.lookup i g idx = some (e, u)) : ∃ free, u = { s with free := free } := by
  rcases State.lookup_some h with ⟨_, _, rfl⟩ | ⟨_, _, _, rfl⟩ <;> exact ⟨_, rfl⟩

theorem State.lookup4_state {s u : State} {i : Fin 32} {i0 i1 i2 i3 : Byte} {e0 e1 e2 e3 : Entry}
    (h : s.lookup4 i i0 i1 i2 i3 = some (e0, e1, e2, e3, u)) : ∃ free, u = { s with free := free } := by
  obtain ⟨s0, s1, s2, h0, h1, h2, h3⟩ := State.lookup4_some h
  obtain ⟨_, hs0⟩ := State.lookup_state h0
  obtain ⟨_, hs1⟩ := State.lookup_state h1
  obtain ⟨_, hs2⟩ := State.lookup_state h2
  obtain ⟨free, hu⟩ := State.lookup_state h3
  exact ⟨free, by rw [hu, hs2, hs1, hs0]⟩

/-- Four entries written before are read as they stand, in both postures (R186). -/
theorem State.lookup4_written {s : State} {i : Fin 32} {i0 i1 i2 i3 : Byte} (h0 : s.slots[i.val].w4[i0.toNat] = true)
    (h1 : s.slots[i.val].w4[i1.toNat] = true) (h2 : s.slots[i.val].w4[i2.toNat] = true)
    (h3 : s.slots[i.val].w4[i3.toNat] = true) :
    s.lookup4 i i0 i1 i2 i3 =
      some (s.slots[i.val].v4[i0.toNat], s.slots[i.val].v4[i1.toNat], s.slots[i.val].v4[i2.toNat],
        s.slots[i.val].v4[i3.toNat], s) := by
  have hread : ∀ {idx : Byte}, s.slots[i.val].w4[idx.toNat] = true →
      s.lookup i .v4 idx = some (s.slots[i.val].v4[idx.toNat], s) := State.lookup_written (g := .v4)
  simp only [State.lookup4, hread h0, hread h1, hread h2, hread h3]

/-- In the checked posture an entry that is read has been written, and reading it changes nothing (R188). -/
theorem State.lookup_some_checked {s u : State} {i : Fin 32} {g : Target} {idx : Byte} {e : Entry}
    (hposture : s.posture = .checked) (h : s.lookup i g idx = some (e, u)) :
    (s.slots[i.val].written g)[idx.toNat] = true ∧ u = s := by
  rcases State.lookup_some h with ⟨hw, _, rfl⟩ | ⟨_, hp, _⟩
  · exact ⟨hw, rfl⟩
  · cases hposture.symm.trans hp

/-- So have four. -/
theorem State.lookup4_some_checked {s u : State} {i : Fin 32} {i0 i1 i2 i3 : Byte} {e0 e1 e2 e3 : Entry}
    (hposture : s.posture = .checked) (h : s.lookup4 i i0 i1 i2 i3 = some (e0, e1, e2, e3, u)) :
    (s.slots[i.val].w4[i0.toNat] = true ∧ s.slots[i.val].w4[i1.toNat] = true ∧ s.slots[i.val].w4[i2.toNat] = true ∧
      s.slots[i.val].w4[i3.toNat] = true) ∧ u = s := by
  obtain ⟨s0, s1, s2, h0, h1, h2, h3⟩ := State.lookup4_some h
  obtain ⟨hw0, rfl⟩ := State.lookup_some_checked hposture h0
  obtain ⟨hw1, rfl⟩ := State.lookup_some_checked hposture h1
  obtain ⟨hw2, rfl⟩ := State.lookup_some_checked hposture h2
  obtain ⟨hw3, rfl⟩ := State.lookup_some_checked hposture h3
  exact ⟨⟨hw0, hw1, hw2, hw3⟩, rfl⟩

/-! ## Block codes -/

/-- A V1 block whose index byte fits the payload draws the entry that is read for it (R185). -/
theorem State.placeV1_draws {s u : State} {fr : FrameRegs} {st : StripRegs} {vp : VectorRegs} {i0 : Byte} {e : Entry}
    (hfit : vp.pl.p + 1 ≤ vp.pl.E) (hread : s.lookup fr.i .v1 i0 = some (e, u)) (hx : vp.bx + 4 ≤ 320)
    (hy : vp.by_ + 4 ≤ 240) (hend : s.BlockEndsWell fr st vp (vp.pl.p + 1)) :
    s.DrawsDueBlock (s.placeV1 fr st vp i0) fr st vp 1 u.free (fun dx dy =>
      if dy < 2 then (if dx < 2 then e.c0 else e.c1) else (if dx < 2 then e.c2 else e.c3)) := by
  have hplace : s.placeV1 fr st vp i0 = u.drawBlock fr st vp 1 (lanesV1 e) := by
    simp only [State.placeV1, hfit, hread, not_true_eq_false, if_false]
  obtain ⟨free, rfl⟩ := State.lookup_state hread
  rw [hplace]
  exact (State.drawBlock_draws (s := { s with free := free }) hx hy hend (lanesV1 e)).congr fun _ _ => lanesV1_eq e

/-- A V4 block whose index bytes fit the payload draws the four entries that are read for it (R186). -/
theorem State.placeV4_draws {s u : State} {fr : FrameRegs} {st : StripRegs} {vp : VectorRegs} {i0 i1 i2 i3 : Byte}
    {e0 e1 e2 e3 : Entry} (hfit : vp.pl.p + 4 ≤ vp.pl.E)
    (hread : s.lookup4 fr.i i0 i1 i2 i3 = some (e0, e1, e2, e3, u)) (hx : vp.bx + 4 ≤ 320) (hy : vp.by_ + 4 ≤ 240)
    (hend : s.BlockEndsWell fr st vp (vp.pl.p + 4)) :
    s.DrawsDueBlock (s.placeV4 fr st vp i0 i1 i2 i3) fr st vp 4 u.free (fun dx dy =>
      let e := if dy < 2 then (if dx < 2 then e0 else e1) else (if dx < 2 then e2 else e3)
      if dy % 2 = 0 then (if dx % 2 = 0 then e.c0 else e.c1) else (if dx % 2 = 0 then e.c2 else e.c3)) := by
  have hplace : s.placeV4 fr st vp i0 i1 i2 i3 = u.drawBlock fr st vp 4 (lanesV4 e0 e1 e2 e3) := by
    simp only [State.placeV4, hfit, hread, not_true_eq_false, if_false]
  obtain ⟨free, rfl⟩ := State.lookup4_state hread
  rw [hplace]
  exact (State.drawBlock_draws (s := { s with free := free }) hx hy hend (lanesV4 e0 e1 e2 e3)).congr
    fun dx dy hdx hdy => (lanesV4_eq e0 e1 e2 e3 hdx hdy).trans (Entry.colour_subPixel _ dx dy)

/-- The errors of a V1 block: no index byte, an entry never written, and bytes left over after the last block (R185, R188,
R189). -/
theorem State.placeV1_fails {s : State} {fr : FrameRegs} {st : StripRegs} {vp : VectorRegs} {i0 : Byte}
    (hposture : s.posture = .checked)
    (h : vp.pl.E < vp.pl.p + 1 ∨ s.slots[fr.i.val].w1[i0.toNat] = false ∨
      (s.slots[fr.i.val].lastBlock vp.bx vp.by_ ∧ vp.pl.p + 1 ≠ vp.pl.E ∧ vp.bx + 4 ≤ 320 ∧ vp.by_ + 4 ≤ 240)) :
    FailsWith s (s.placeV1 fr st vp i0) .invalidData := by
  unfold State.placeV1
  split
  · exact State.failsWith_failCheck hposture _
  rename_i hfit
  split
  · rename_i e u hread
    obtain ⟨hw, rfl⟩ := State.lookup_some_checked hposture hread
    rcases h with hshort | hunwritten | ⟨hlast, hleft, hx, hy⟩
    · exact absurd (Nat.not_le.mpr hshort) hfit
    · cases hw.symm.trans hunwritten
    · exact State.drawBlock_fails hposture hlast hleft hx hy _
  · exact State.failsWith_failCheck hposture _

/-- The errors of a V4 block: index bytes missing, an entry never written, and bytes left over after the last block (R186,
R188, R189). -/
theorem State.placeV4_fails {s : State} {fr : FrameRegs} {st : StripRegs} {vp : VectorRegs} {i0 i1 i2 i3 : Byte}
    (hposture : s.posture = .checked)
    (h : vp.pl.E < vp.pl.p + 4 ∨
      (s.slots[fr.i.val].w4[i0.toNat] = false ∨ s.slots[fr.i.val].w4[i1.toNat] = false ∨
        s.slots[fr.i.val].w4[i2.toNat] = false ∨ s.slots[fr.i.val].w4[i3.toNat] = false) ∨
      (s.slots[fr.i.val].lastBlock vp.bx vp.by_ ∧ vp.pl.p + 4 ≠ vp.pl.E ∧ vp.bx + 4 ≤ 320 ∧ vp.by_ + 4 ≤ 240)) :
    FailsWith s (s.placeV4 fr st vp i0 i1 i2 i3) .invalidData := by
  unfold State.placeV4
  split
  · exact State.failsWith_failCheck hposture _
  rename_i hfit
  split
  · rename_i e0 e1 e2 e3 u hread
    obtain ⟨⟨hw0, hw1, hw2, hw3⟩, rfl⟩ := State.lookup4_some_checked hposture hread
    rcases h with hshort | hunwritten | ⟨hlast, hleft, hx, hy⟩
    · exact absurd (Nat.not_le.mpr hshort) hfit
    · simp [hw0, hw1, hw2, hw3] at hunwritten
    · exact State.drawBlock_fails hposture hlast hleft hx hy _
  · exact State.failsWith_failCheck hposture _

/-- A block code runs where a block of its kind of chunk is due. -/
theorem State.inBlock_due {s : State} {fr : FrameRegs} {st : StripRegs} {vp : VectorRegs} {kind : VecKind}
    (hf : s.fsm = .decoding (.block fr st vp)) (hk : vp.kind = kind)
    (body : FrameRegs → StripRegs → VectorRegs → Outcome) : s.inBlock kind body = body fr st vp := by
  simp only [State.inBlock, hf, hk, if_true]

/-- What a V1 block answers, BU.V1, BM.V1 and BC.V1 answer, each in its kind of chunk (R185). -/
theorem exec_v1Codes {s : State} {fr : FrameRegs} {st : StripRegs} {vp : VectorRegs} {i0 : Byte}
    (hf : s.fsm = .decoding (.block fr st vp)) {answer : Outcome → Prop} (h : answer (s.placeV1 fr st vp i0)) :
    (vp.kind = .uniform → answer (exec (.buV1 i0) s)) ∧ (vp.kind = .mixed → answer (exec (.bmV1 i0) s)) ∧
    (vp.kind = .delta → answer (exec (.bcV1 i0) s)) := by
  have hrun : ∀ {kind}, vp.kind = kind → answer (s.inBlock kind fun fr st vp => s.placeV1 fr st vp i0) :=
    fun hk => (State.inBlock_due hf hk _).symm ▸ h
  exact ⟨hrun, hrun, hrun⟩

/-- What a V4 block answers, BM.V4 and BC.V4 answer, each in its kind of chunk (R186). -/
theorem exec_v4Codes {s : State} {fr : FrameRegs} {st : StripRegs} {vp : VectorRegs} {i0 i1 i2 i3 : Byte}
    (hf : s.fsm = .decoding (.block fr st vp)) {answer : Outcome → Prop} (h : answer (s.placeV4 fr st vp i0 i1 i2 i3)) :
    (vp.kind = .mixed → answer (exec (.bmV4 i0 i1 i2 i3) s)) ∧
    (vp.kind = .delta → answer (exec (.bcV4 i0 i1 i2 i3) s)) := by
  have hrun : ∀ {kind}, vp.kind = kind → answer (s.inBlock kind fun fr st vp => s.placeV4 fr st vp i0 i1 i2 i3) :=
    fun hk => (State.inBlock_due hf hk _).symm ▸ h
  exact ⟨hrun, hrun⟩

/-- BC.SKIP is the walk past the block without an index byte (R184). -/
theorem exec_bcSkip {s : State} {fr : FrameRegs} {st : StripRegs} {vp : VectorRegs}
    (hf : s.fsm = .decoding (.block fr st vp)) (hk : vp.kind = .delta) : exec .bcSkip s = s.blockDone fr st vp 0 :=
  State.inBlock_due hf hk _

/-- Settles O37: a written entry is read as it stands, and its block is drawn. -/
theorem v1BlockDraws : Obligations.V1BlockDraws := by
  unfold Obligations.V1BlockDraws
  intro s fr st vp i0 hf hfit hw hx hy hend
  exact exec_v1Codes hf (answer := fun o => s.DrawsDueBlock o fr st vp 1 s.free _)
    (State.placeV1_draws hfit (State.lookup_written (g := .v1) hw) hx hy hend)

/-- Settles O38: four written entries are read as they stand, and their block is drawn. -/
theorem v4BlockDraws : Obligations.V4BlockDraws := by
  unfold Obligations.V4BlockDraws
  intro s fr st vp i0 i1 i2 i3 hf hfit hw0 hw1 hw2 hw3 hx hy hend
  exact exec_v4Codes hf (answer := fun o => s.DrawsDueBlock o fr st vp 4 s.free _)
    (State.placeV4_draws hfit (State.lookup4_written hw0 hw1 hw2 hw3) hx hy hend)

/-- Settles O39: BC.SKIP is the walk alone, with the payload pointer where it was. -/
theorem skipBlockKeepsPixels : Obligations.SkipBlockKeepsPixels := by
  unfold Obligations.SkipBlockKeepsPixels
  intro s fr st vp hf hk hend
  obtain ⟨t, ht, hclosed⟩ := State.blockDone_closes (n := 0) hend
  exact ⟨t, (exec_bcSkip hf hk).trans ht, hclosed.fb, hclosed.slots, hclosed.free, hclosed.done, hclosed.walk⟩

/-- Settles O40: in the checked posture an entry that is read has been written. -/
theorem unwrittenEntryFails : Obligations.UnwrittenEntryFails := by
  unfold Obligations.UnwrittenEntryFails
  intro s fr st vp i0 i1 i2 i3 hf hposture
  have hv1 := fun h => exec_v1Codes hf (answer := (FailsWith s · .invalidData)) (State.placeV1_fails (i0 := i0) hposture h)
  have hv4 := fun h => exec_v4Codes hf (answer := (FailsWith s · .invalidData))
    (State.placeV4_fails (i0 := i0) (i1 := i1) (i2 := i2) (i3 := i3) hposture h)
  exact ⟨fun hw => hv1 (.inr (.inl hw)), fun hw => hv4 (.inr (.inl hw))⟩

/-- Settles O43: the index bytes are checked before the entries, the bytes left over after the block is drawn or skipped. -/
theorem blockPayloadErrors : Obligations.BlockPayloadErrors := by
  unfold Obligations.BlockPayloadErrors
  intro s fr st vp i0 i1 i2 i3 hf hposture
  have hv1 := fun h => exec_v1Codes hf (answer := (FailsWith s · .invalidData)) (State.placeV1_fails (i0 := i0) hposture h)
  have hv4 := fun h => exec_v4Codes hf (answer := (FailsWith s · .invalidData))
    (State.placeV4_fails (i0 := i0) (i1 := i1) (i2 := i2) (i3 := i3) hposture h)
  refine ⟨fun hshort => hv1 (.inl hshort), fun hshort => hv4 (.inl hshort), fun hlast hleft hk => ?_,
    fun hlast hleft hx hy => hv1 (.inr (.inr ⟨hlast, hleft, hx, hy⟩)),
    fun hlast hleft hx hy => hv4 (.inr (.inr ⟨hlast, hleft, hx, hy⟩))⟩
  rw [exec_bcSkip hf hk]
  exact State.blockDone_fails (n := 0) hposture hlast hleft

end Sys2Proof.Machine

/-!
PROOFS. The strip decoder: a strip header stores its box and seeds its slot or fails a check, a chunk header is checked
before its payload is opened, and what the chunk loop answers at a chunk, a strip and the frame's end (R201 to R214, R227 to R230).
-/

namespace Sys2Proof.Machine

/-! ## Checks -/

/-- A check that holds lets the operation behind it answer. -/
theorem State.checked_of_holds {s : State} {c : Prop} [Decidable c] {k : ErrKind} {o : Outcome} (hc : c) :
    (if ¬ c then s.failCheck k else o) = o := if_neg (not_not_intro hc)

/-- In the checked posture a check answers an error where it does not hold, and where it holds if the operation behind it
answers that error (R8, R268). -/
theorem State.checked_fails {s : State} {c : Prop} [Decidable c] {k : ErrKind} {o : Outcome} (hp : s.posture = .checked)
    (ho : c → FailsWith s o k) : FailsWith s (if ¬ c then s.failCheck k else o) k := by
  by_cases hc : c
  · rw [State.checked_of_holds hc]
    exact ho hc
  · rw [if_pos hc]
    exact State.failsWith_failCheck hp k

/-! ## Strip headers -/

/-- Either strip record runs the one strip header (R213, R214). -/
theorem exec_stripHeader {i : Instr} {slen py0 px0 py1 px1 : U16}
    (hi : i = .stripIntra slen py0 px0 py1 px1 ∨ i = .stripInter slen py0 px0 py1 px1) (s : State) :
    exec i s = s.stripHeader slen py0 px0 py1 px1 := by
  rcases hi with rfl | rfl <;> rfl

/-- Settles O26: both records are the strip header. -/
theorem stripIdHasNoEffect : Obligations.StripIdHasNoEffect := by
  unfold Obligations.StripIdHasNoEffect
  intro s slen py0 px0 py1 px1
  exact (exec_stripHeader (.inl rfl) s).trans (exec_stripHeader (.inr rfl) s).symm

/-- The resolved box, edge by edge (R203). -/
theorem State.resolveBox_eq (s : State) (i : Fin 32) (py0 px0 py1 px1 : U16) :
    s.resolveBox i py0 px0 py1 px1 =
      { x0 := px0.toNat, x1 := px1.toNat
        y0 := if py0.toNat = 0 ∧ 0 < i.val then s.slots[i.val - 1].y1 else py0.toNat
        y1 := if py0.toNat = 0 ∧ 0 < i.val then s.slots[i.val - 1].y1 + py1.toNat else py1.toNat } := by
  unfold State.resolveBox
  split <;> rfl

/-- The checks of a strip header whose box resolves to b: its length holds the header and stays inside the frame, and the box
is aligned, ordered and inside the picture (R201, R204). -/
def State.StripChecks (s : State) (fr : FrameRegs) (slen : U16) (b : Box) : Prop :=
  12 ≤ slen.toNat ∧ s.cursor + slen.toNat ≤ fr.F + fr.flen ∧ b.aligned ∧ b.ordered ∧ b.inFrame

/-- A strip header whose checks hold stores its slot and goes on to the chunk loop behind its 12 bytes (R205 to R208). -/
theorem State.stripHeader_eq {s : State} {fr : FrameRegs} {slen py0 px0 py1 px1 : U16} (hf : s.fsm = .decoding (.strip fr))
    (h : s.StripChecks fr slen (s.resolveBox fr.i py0 px0 py1 px1)) :
    s.stripHeader slen py0 px0 py1 px1 =
      (s.setSlot fr.i (s.headedSlot fr (s.resolveBox fr.i py0 px0 py1 px1))).chunkLoop fr
        { S := s.cursor, slen := slen.toNat, c := s.cursor + 12 } (s.cursor + 12) := by
  obtain ⟨hmin, hfit, haligned, hordered, hinside⟩ := h
  have hheader : s.cursor + 12 ≤ fr.F + fr.flen := by omega
  simp only [State.stripHeader, hf]
  rw [State.checked_of_holds hheader, State.checked_of_holds ⟨hmin, hfit⟩, State.checked_of_holds haligned,
    State.checked_of_holds hordered, State.checked_of_holds hinside]

/-- In the checked posture a strip header one of whose checks does not hold is an error (R204). -/
theorem State.stripHeader_fails {s : State} {fr : FrameRegs} {slen py0 px0 py1 px1 : U16}
    (hf : s.fsm = .decoding (.strip fr)) (hp : s.posture = .checked)
    (h : ¬ s.StripChecks fr slen (s.resolveBox fr.i py0 px0 py1 px1)) :
    FailsWith s (s.stripHeader slen py0 px0 py1 px1) .invalidData := by
  unfold State.stripHeader
  simp only [hf]
  exact State.checked_fails hp fun _ => State.checked_fails hp fun ⟨hmin, hfit⟩ => State.checked_fails hp fun haligned =>
    State.checked_fails hp fun hordered => State.checked_fails hp fun hinside =>
      absurd ⟨hmin, hfit, haligned, hordered, hinside⟩ h

/-- Settles O27: each of the disjuncts contradicts one of the checks on the resolved box. -/
theorem stripHeaderErrors : Obligations.StripHeaderErrors := by
  unfold Obligations.StripHeaderErrors
  intro s fr slen py0 px0 py1 px1 i hf hp hi relative y0 y1 hwrong
  have hbox : s.resolveBox fr.i py0 px0 py1 px1 = { x0 := px0.toNat, x1 := px1.toNat, y0 := y0, y1 := y1 } :=
    s.resolveBox_eq ..
  rw [exec_stripHeader hi]
  refine State.stripHeader_fails hf hp ?_
  rw [hbox]
  simp only [State.StripChecks, Box.aligned, Box.ordered, Box.inFrame]
  omega

/-- The slot a strip header seeds its codebooks from: in an inter frame the slot before, if there is one, else its own
(R206, R212). -/
def State.seedSlot (s : State) (fr : FrameRegs) : Slot :=
  if fr.inter = true ∧ 0 < fr.i.val then s.slots[fr.i.val - 1] else s.slots[fr.i.val]

/-- The slot after a strip header has its box, and the codebooks and flags of the slot it is seeded from (R205, R206). -/
theorem State.headedSlot_eq (s : State) (fr : FrameRegs) (b : Box) :
    s.headedSlot fr b = (s.slots[fr.i.val].withBox b).seedFrom (s.seedSlot fr) := by
  unfold State.headedSlot State.seedSlot
  split <;> rfl

/-- Settles O25: the header sets its slot, and the chunk loop behind its 12 bytes closes well. -/
theorem stripHeaderStoresBox : Obligations.StripHeaderStoresBox := by
  unfold Obligations.StripHeaderStoresBox
  intro s fr slen py0 px0 py1 px1 i hf hi prev relative y0 y1 st hmin hfit hx0 hx1 hy0 hy1 hx hy hright hbottom hcloses
  have hbox : s.resolveBox fr.i py0 px0 py1 px1 = { x0 := px0.toNat, x1 := px1.toNat, y0 := y0, y1 := y1 } :=
    s.resolveBox_eq ..
  have hchecks : s.StripChecks fr slen (s.resolveBox fr.i py0 px0 py1 px1) := by
    rw [hbox]
    exact ⟨hmin, hfit, ⟨hx0, hx1, hy0, hy1⟩, ⟨hx, hy⟩, hright, hbottom⟩
  rw [exec_stripHeader hi, State.stripHeader_eq hf hchecks]
  obtain ⟨t, ht, hslots, hfb, hfree, hcontext, hgoes, hcursor, hended⟩ := State.chunkLoop_closes
    (s := s.setSlot fr.i (s.headedSlot fr (s.resolveBox fr.i py0 px0 py1 px1))) hcloses
  have hstored : t.slots[fr.i.val] =
      (s.slots[fr.i.val].withBox { x0 := px0.toNat, x1 := px1.toNat, y0 := y0, y1 := y1 }).seedFrom (s.seedSlot fr) := by
    rw [hslots, s.setSlot_getElem, if_pos rfl, hbox, State.headedSlot_eq]
  refine ⟨t, ht, ?box, ?codebooks, ?others, hfb, hfree, ⟨hcontext, hgoes, hcursor⟩, ?more, ?last, hended⟩
  case box => rw [hstored]; exact ⟨rfl, rfl, rfl, rfl⟩
  case codebooks => rw [hstored]; exact ⟨rfl, rfl, rfl, rfl⟩
  case others =>
    intro j hj
    rw [hslots, s.setSlot_getElem, if_neg hj]
  case more => exact fun hlong => hended.1 (Nat.add_lt_add_left hlong _)
  case last =>
    intro hlen
    have hend : st.S + st.slen = s.cursor + 12 := congrArg (s.cursor + ·) hlen
    exact (hended.2 hend.le).1.trans hend

/-! ## Chunk headers -/

/-- In the checked posture a chunk header whose length does not hold it or reaches past its strip is an error, whatever its
payload would open (R208). -/
theorem State.openChunk_fails {s : State} {fr : FrameRegs} {st : StripRegs} {clen : U16}
    {body : FrameRegs → StripRegs → Payload → Outcome} (hf : s.fsm = .decoding (.chunk fr st))
    (hp : s.posture = .checked) (h : clen.toNat < 4 ∨ st.S + st.slen < st.c + clen.toNat) :
    FailsWith s (s.openChunk clen body) .invalidData := by
  unfold State.openChunk
  simp only [hf]
  refine State.checked_fails hp fun _ => State.checked_fails hp fun ⟨hmin, hfit⟩ => ?_
  omega

/-- Every record of the chunk table opens a codebook or a vector payload (R107). -/
theorem exec_chunkRecord {row : U16 × (U16 → Instr)} (hrow : row ∈ chunkRecords) (clen : U16) (s : State) :
    (∃ target bpp12 selective, exec (row.2 clen) s = s.openCodebook target bpp12 selective clen) ∨
    ∃ kind, exec (row.2 clen) s = s.openVector kind clen := by
  simp only [chunkRecords, List.mem_cons, List.not_mem_nil, or_false] at hrow
  rcases hrow with rfl | rfl | rfl | rfl | rfl | rfl | rfl | rfl | rfl | rfl | rfl
  iterate 8 exact .inl ⟨_, _, _, rfl⟩
  iterate 3 exact .inr ⟨_, rfl⟩

/-- Settles O31: the eleven records share the check of their length. -/
theorem chunkLengthErrors : Obligations.ChunkLengthErrors := by
  unfold Obligations.ChunkLengthErrors
  intro s fr st clen row hf hp hrow hwrong
  rcases exec_chunkRecord hrow clen s with ⟨target, bpp12, selective, hexec⟩ | ⟨kind, hexec⟩
  · rw [hexec]
    exact State.openChunk_fails hf hp hwrong
  · rw [hexec]
    exact State.openChunk_fails hf hp hwrong

/-! ## The chunk loop -/

section
variable {fr : FrameRegs} {st : StripRegs} {c : Nat}

/-- Before the strip's end a chunk is due (R208). -/
theorem State.chunkLoop_of_lt (s : State) (hc : c < st.S + st.slen) :
    s.chunkLoop fr st c = .next { s with fsm := .decoding (.chunk fr { st with c := c }) } := if_pos hc

/-- At the strip's end the strip ends (R228). -/
theorem State.chunkLoop_of_le (s : State) (hc : st.S + st.slen ≤ c) :
    s.chunkLoop fr st c = s.endStrip fr { st with c := c } := if_neg (Nat.not_lt.mpr hc)

/-- While strips remain the next strip is due behind the strip that ends (R227, R228). -/
theorem State.endStrip_of_lt (s : State) (hn : fr.i.val + 1 < fr.nstrips) (hi : fr.i.val + 1 < 32) :
    s.endStrip fr st =
      .next { s with cursor := st.S + st.slen, fsm := .decoding (.strip { fr with i := ⟨fr.i.val + 1, hi⟩ }) } :=
  (if_pos hn).trans (dif_pos hi)

/-- The last strip ends the frame (R229). -/
theorem State.endStrip_of_le (s : State) (hn : fr.nstrips ≤ fr.i.val + 1) :
    s.endStrip fr st = State.endFrame { s with cursor := st.S + st.slen } fr := if_neg (Nat.not_lt.mpr hn)

/-- A frame that ends at its declared end succeeds (R230). -/
theorem State.endFrame_of_eq {s : State} (he : s.cursor = fr.F + fr.flen) : s.endFrame fr = .next s.finishFrame := if_pos he

/-- In the checked posture a frame that ends elsewhere is an error (R229). -/
theorem State.endFrame_fails {s : State} (hp : s.posture = .checked) (he : s.cursor ≠ fr.F + fr.flen) :
    FailsWith s (s.endFrame fr) .invalidData := by
  simpa only [State.endFrame, if_neg he] using State.failsWith_failCheck hp _

end

/-- Settles O32: one clause per way in which a chunk, a strip and the frame end. -/
theorem chunkLoopEnds : Obligations.ChunkLoopEnds := by
  unfold Obligations.ChunkLoopEnds
  intro s fr st c SE
  refine ⟨s.chunkLoop_of_lt, ?strip, ?done, ?fail⟩
  case strip =>
    intro hc hi hn
    exact (s.chunkLoop_of_le hc).trans (s.endStrip_of_lt hn hi)
  case done =>
    intro hc hn he
    exact (s.chunkLoop_of_le hc).trans ((s.endStrip_of_le hn).trans (State.endFrame_of_eq he))
  case fail =>
    intro hc hn he hp
    rw [s.chunkLoop_of_le hc, s.endStrip_of_le hn]
    exact .of_sameContext ⟨rfl, rfl, rfl, rfl, rfl, rfl⟩ (State.endFrame_fails hp he)

end Sys2Proof.Machine

/-!
PROOFS. The frame decoder: a frame header opens its strips, ends an empty frame or fails the first check that does not hold,
and DECODE_FRAME at the end of the stream and of an empty frame (R220 to R233, R261).
-/

namespace Sys2Proof.Machine

/-! ## Frame headers -/

/-- Either frame record runs the one frame header, with its coding flag (R231, R232). -/
theorem Instr.IsFrameHeader.exec_eq {i : Instr} {spare : BitVec 7} {flen : BitVec 24} {w h n : U16}
    (hi : Instr.IsFrameHeader i spare flen w h n) (s : State) : ∃ inter, exec i s = s.frameHeader inter flen w h n := by
  rcases hi with rfl | rfl
  · exact ⟨false, rfl⟩
  · exact ⟨true, rfl⟩

/-- The checks of a frame header at the cursor: its declared length holds the header and stays inside the stream, and its
dimensions and its strip count are those of a frame (R221, R223 to R225). -/
structure State.HeaderChecks (s : State) (flen : BitVec 24) (w h n : U16) : Prop where
  header : 10 ≤ flen.toNat
  fits : s.cursor + flen.toNat ≤ s.length
  width : w.toNat = 320
  height : h.toNat = 240
  strips : n.toNat ≤ 32

section
variable {s : State} {inter : Bool} {flen : BitVec 24} {w h n : U16}

/-- A frame header whose checks hold answers by its strip count: without strips the frame ends or is refused, else its
first strip is due (R226, R227). -/
theorem State.frameHeader_of_checks (hf : s.fsm = .decoding .frame) (hc : s.HeaderChecks flen w h n) :
    s.frameHeader inter flen w h n =
      if n.toNat = 0 then
        if flen.toNat = 10 then .next (State.finishFrame { s with cursor := s.cursor + 10 }) else .refused .zeroStripFrame
      else .next { s with cursor := s.cursor + 10, fsm := .decoding (.strip (s.headerRegs inter flen n)) } := by
  obtain ⟨hmin, hfit, hw, hh, hn⟩ := hc
  have hheader : s.cursor + 10 ≤ s.length := by omega
  simp only [State.frameHeader, hf]
  rw [State.checked_of_holds hheader, State.checked_of_holds ⟨hmin, hfit⟩, State.checked_of_holds ⟨hw, hh⟩,
    State.checked_of_holds hn]
  rfl

/-- A frame header whose checks hold does not fail (R224 to R227). -/
theorem State.frameHeader_ne_failed {t : State} (hf : s.fsm = .decoding .frame) (hc : s.HeaderChecks flen w h n)
    (ht : s.frameHeader inter flen w h n = .next t) : t.fsm ≠ .failed := by
  rw [State.frameHeader_of_checks hf hc] at ht
  split_ifs at ht with hn hten
  · cases ht
    rw [State.finishFrame_fsm, idleFsm]
    split <;> exact nofun
  · cases ht
    exact nofun

/-- In the checked posture a frame header cut short, or one whose declared length does not hold it or reaches past the
stream, is an error (R221, R223). -/
theorem State.frameHeader_fails_length (hf : s.fsm = .decoding .frame) (hp : s.posture = .checked)
    (hwrong : s.length < s.cursor + 10 ∨ flen.toNat < 10 ∨ s.length < s.cursor + flen.toNat) :
    FailsWith s (s.frameHeader inter flen w h n) .invalidData := by
  simp only [State.frameHeader, hf]
  refine State.checked_fails hp fun _ => State.checked_fails hp fun ⟨hmin, hfit⟩ => ?_
  omega

/-- In the checked posture dimensions other than 320x240 are an error where the declared length is good (R224). -/
theorem State.frameHeader_fails_dimensions (hf : s.fsm = .decoding .frame) (hp : s.posture = .checked)
    (hmin : 10 ≤ flen.toNat) (hfit : s.cursor + flen.toNat ≤ s.length) (hwrong : w.toNat ≠ 320 ∨ h.toNat ≠ 240) :
    FailsWith s (s.frameHeader inter flen w h n) .badDimensions := by
  have hheader : s.cursor + 10 ≤ s.length := by omega
  simp only [State.frameHeader, hf]
  rw [State.checked_of_holds hheader, State.checked_of_holds ⟨hmin, hfit⟩]
  refine State.checked_fails hp fun ⟨hw, hh⟩ => ?_
  exact absurd hw (hwrong.resolve_right (not_not_intro hh))

/-- In the checked posture more than 32 strips are an error where length and dimensions are good (R225). -/
theorem State.frameHeader_fails_strips (hf : s.fsm = .decoding .frame) (hp : s.posture = .checked)
    (hmin : 10 ≤ flen.toNat) (hfit : s.cursor + flen.toNat ≤ s.length) (hw : w.toNat = 320) (hh : h.toNat = 240)
    (hwrong : 32 < n.toNat) : FailsWith s (s.frameHeader inter flen w h n) .invalidData := by
  have hheader : s.cursor + 10 ≤ s.length := by omega
  simp only [State.frameHeader, hf]
  rw [State.checked_of_holds hheader, State.checked_of_holds ⟨hmin, hfit⟩, State.checked_of_holds ⟨hw, hh⟩]
  exact State.checked_fails hp fun hn => absurd hn (Nat.not_le.mpr hwrong)

end

/-- Settles O22: the checks hold and there are strips, so that either record opens its first one. -/
theorem frameHeaderOpensStrips : Obligations.FrameHeaderOpensStrips := by
  unfold Obligations.FrameHeaderOpensStrips
  intro s spare flen w h n hf _ hmin hfit hw hh hpos hmax opened
  have hheader (inter : Bool) : s.frameHeader inter flen w h n = opened inter :=
    (State.frameHeader_of_checks hf ⟨hmin, hfit, hw, hh, hmax⟩).trans (if_neg (Nat.ne_of_gt hpos))
  exact ⟨hheader false, hheader true⟩

/-- Settles O23: the checks hold, and with no strips the declared length decides. -/
theorem emptyFrameHeader : Obligations.EmptyFrameHeader := by
  unfold Obligations.EmptyFrameHeader
  intro s spare flen w h n i hf _ hmin hfit hw hh hn hi
  obtain ⟨inter, hexec⟩ := Instr.IsFrameHeader.exec_eq hi s
  rw [hexec, State.frameHeader_of_checks hf ⟨hmin, hfit, hw, hh, by omega⟩, if_pos hn]
  rfl

/-- Settles O24: one failing check per branch, with the checks before it known to hold, and all of them in the last. -/
theorem frameHeaderErrors : Obligations.FrameHeaderErrors := by
  unfold Obligations.FrameHeaderErrors
  intro s spare flen w h n i hf hp hi
  obtain ⟨inter, hexec⟩ := Instr.IsFrameHeader.exec_eq hi s
  rw [hexec]
  split_ifs with hshort hlength hdims hstrips
  · exact State.frameHeader_fails_length hf hp (.inl hshort)
  · exact State.frameHeader_fails_length hf hp (.inr hlength)
  · exact State.frameHeader_fails_dimensions hf hp (by omega) (by omega) hdims
  · exact State.frameHeader_fails_strips hf hp (by omega) (by omega) (by omega) (by omega) hstrips
  · intro t ht
    exact State.frameHeader_ne_failed hf ⟨by omega, by omega, by omega, by omega, by omega⟩ ht

/-! ## DECODE_FRAME -/

/-- At the end of the stream DECODE_FRAME answers `Eof` (R233). -/
theorem execDecodeFrame_eq_eof {s : State} (hf : s.fsm = .ready ∨ s.fsm = .exhausted) (he : s.cursor = s.length) :
    execDecodeFrame s = .next s.eof := by
  rcases hf with hf | hf <;> simp only [execDecodeFrame, State.whenIdle, hf, if_pos he]

/-- Settles O19: the answer is the `Eof` of R261. -/
theorem decodeFrameEof : Obligations.DecodeFrameEof := by
  unfold Obligations.DecodeFrameEof
  intro s hf he
  exact execDecodeFrame_eq_eof hf he

/-- A frame whose one record ends it takes one record step (R220). -/
theorem recordRun_one {s t : State} {due : Due} (hf : s.fsm = .decoding due) (h : step s = .next t) :
    recordRun 1 s = .next t := by
  simp only [recordRun, hf, h]

/-- Settles O20: the run of record steps is one step, which runs the decoded frame header, and that ends the frame. -/
theorem decodeFrameEmptyFrame : Obligations.DecodeFrameEmptyFrame := by
  unfold Obligations.DecodeFrameEmptyFrame
  intro s l d spare hf hne hl hd hi
  have hfit : s.cursor + 10 ≤ s.length := State.bytes_some_le hl (by decide)
  obtain ⟨hframe, _⟩ := stepRunsDecodedRecord s.beginFrame l d
  have hstep : step s.beginFrame = exec d.instr s.beginFrame :=
    hframe s.beginFrame_fsm (by simpa using hl) hd
  have hheader := emptyFrameHeader s.beginFrame spare 10 320 240 0 d.instr s.beginFrame_fsm hfit (by decide) hfit rfl rfl
    rfl hi
  have hlength : (10 : BitVec 24).toNat = 10 := rfl
  rw [if_pos hlength] at hheader
  refine (decodeFrameIsRecordRun s _ hf hne).mpr
    ⟨1, by decide, recordRun_one s.beginFrame_fsm (hstep.trans hheader), ?_⟩
  dsimp only
  split <;> rfl

end Sys2Proof.Machine

/-!
PROOFS. The host's commands: the values INIT gives and the stream it binds, the answers of HAS_NEXT and FB_VIEW, and where a
view ends (R241, R244, R249, R250).
-/

namespace Sys2Proof.Machine

/-! ## INIT -/

/-- The bytes INIT binds are the first n of its stream, and no other address reads (R10, R241). -/
theorem State.byte_bind (s : State) {stream : List Byte} {n : Nat} (hn : n ≤ stream.length) (a : Nat) :
    (s.bind stream n).byte a = (stream.take n)[a]? := by
  have hread : (s.bind stream n).stream.read a = ((stream.take n)[a]?).getD 0 := by
    simpa only [State.bind_stream, Nat.zero_add] using streamCells_read (stream.take n) 0 a
  simp only [State.byte, State.bind_length, hread]
  by_cases ha : a < n
  · have hlt : a < (stream.take n).length := by rw [List.length_take]; omega
    rw [if_pos ha, List.getElem?_eq_getElem hlt, Option.getD_some]
  · have hle : (stream.take n).length ≤ a := by rw [List.length_take]; omega
    rw [if_neg ha, List.getElem?_eq_none hle]

/-- Every slot INIT leaves is the zero slot (R47). -/
theorem State.bind_slots_getElem (s : State) (stream : List Byte) (n : Nat) (i : Fin 32) :
    (s.bind stream n).slots[i.val] = Slot.zero := by
  simp only [State.bind_slots, Vector.getElem_replicate]

/-- Every entry of the zero slot is zero, and none is written (R36, R38, R47). -/
theorem Slot.zero_entries (k : Fin 256) :
    Slot.zero.v1[k.val] = Entry.zero ∧ Slot.zero.v4[k.val] = Entry.zero ∧
    Slot.zero.w1[k.val] = false ∧ Slot.zero.w4[k.val] = false := by
  simp only [Slot.zero, Vector.getElem_replicate, and_self]

/-- An empty framebuffer reads 0 at every position (R47). -/
theorem Framebuffer.pixel_empty (x y : Nat) : Framebuffer.pixel (Vector.replicate 240 []) x y = 0 := by
  unfold Framebuffer.pixel
  split
  · rw [Vector.getElem_replicate]; rfl
  · rfl

/-- Settles O15: INIT is the reset of R47, which binds the first n bytes and leaves zero slots and an empty framebuffer. -/
theorem initGivesResetValues : Obligations.InitGivesResetValues := by
  unfold Obligations.InitGivesResetValues
  intro s stream n hidle hn
  refine ⟨s.bind stream n, execInit_next.mpr ⟨hidle, hn, rfl⟩, rfl, fun a ha => ?below, fun a ha => ?beyond, rfl,
    fun i => ?slot, Framebuffer.pixel_empty, rfl, rfl, rfl, rfl, rfl⟩
  case below => rw [s.byte_bind hn, List.getElem?_take_of_lt ha]
  case beyond => rw [s.byte_bind hn, List.getElem?_take_eq_none ha]
  case slot =>
    rw [s.bind_slots_getElem]
    exact ⟨rfl, rfl, rfl, rfl, Slot.zero_entries⟩

/-! ## HAS_NEXT -/

/-- In `Ready` and `Exhausted` a command runs (R244, R249). -/
theorem State.whenIdle_of_idle {s : State} (command : State → Outcome) (hf : s.fsm = .ready ∨ s.fsm = .exhausted) :
    s.whenIdle command = command s := by
  rcases hf with hf | hf <;> simp only [State.whenIdle, hf]

/-- After a failure a command is refused (R271). -/
theorem State.whenIdle_of_failed {s : State} (command : State → Outcome) (hf : s.fsm = .failed) :
    s.whenIdle command = .refused .failedDecoder := by
  simp only [State.whenIdle, hf]

/-- At power-on a command is refused (R292). -/
theorem State.whenIdle_of_uninit {s : State} (command : State → Outcome) (hf : s.fsm = .uninit) :
    s.whenIdle command = .refused .uninitialised := by
  simp only [State.whenIdle, hf]

/-- In `Ready` and `Exhausted` HAS_NEXT answers whether the cursor is before the end of the stream (R244). -/
theorem execHasNext_of_idle {s : State} (hf : s.fsm = .ready ∨ s.fsm = .exhausted) :
    execHasNext s = .next { s with reply := .bool (decide (s.cursor < s.length)) } :=
  State.whenIdle_of_idle _ hf

/-- After a failure HAS_NEXT is refused (R271). -/
theorem execHasNext_of_failed {s : State} (hf : s.fsm = .failed) : execHasNext s = .refused .failedDecoder :=
  State.whenIdle_of_failed _ hf

/-- At power-on HAS_NEXT is refused (R292). -/
theorem execHasNext_of_uninit {s : State} (hf : s.fsm = .uninit) : execHasNext s = .refused .uninitialised :=
  State.whenIdle_of_uninit _ hf

/-- Settles O16: the answer is the comparison, which the invariant decides in `Ready` and `Exhausted` (R40). -/
theorem hasNextAnswers : Obligations.HasNextAnswers := by
  unfold Obligations.HasNextAnswers
  intro s
  refine ⟨execHasNext_of_idle, fun hinv => ⟨fun hf => ?ready, fun hf => ?exhausted⟩, execHasNext_of_failed,
    execHasNext_of_uninit⟩
  case ready =>
    obtain ⟨_, hlt⟩ := (State.inv_ready hf).mp hinv
    exact decide_eq_true hlt ▸ execHasNext_of_idle (.inl hf)
  case exhausted =>
    obtain ⟨_, heq⟩ := (State.inv_exhausted hf).mp hinv
    have hge : ¬ s.cursor < s.length := heq ▸ Nat.lt_irrefl _
    exact decide_eq_false hge ▸ execHasNext_of_idle (.inr hf)

/-! ## The view -/

/-- A valid view shows every pixel of the grid as the framebuffer holds it (R249). -/
theorem State.viewPixel_of_valid {s : State} {x y : Nat} (hv : s.viewValid = true) (hx : x < 320) (hy : y < 240) :
    s.viewPixel x y = some (Framebuffer.pixel s.fb x y) :=
  if_pos ⟨hv, hx, hy⟩

/-- Without a valid view no pixel is shown (R250). -/
theorem State.viewPixel_of_invalid {s : State} (hv : s.viewValid = false) (x y : Nat) : s.viewPixel x y = none :=
  if_neg fun ⟨hvalid, _⟩ => Bool.false_ne_true (hv.symm.trans hvalid)

/-- In `Ready` and `Exhausted` FB_VIEW gives the host a valid view and leaves everything else (R249). -/
theorem execFbView_of_idle {s : State} (hf : s.fsm = .ready ∨ s.fsm = .exhausted) :
    execFbView s = .next { s with reply := .view, viewValid := true } :=
  State.whenIdle_of_idle _ hf

/-- DECODE_FRAME ends the view where it answers `Eof` and where it starts a frame, whose records leave it (R250). -/
theorem execDecodeFrame_viewValid {s t : State} (h : execDecodeFrame s = .next t) : t.viewValid = false := by
  obtain ⟨_, ⟨_, rfl⟩ | ⟨_, hrun⟩⟩ := execDecodeFrame_next h
  · exact s.eof_viewValid
  · obtain ⟨_, _, _, _, hview, _⟩ := runFrame_sameContext hrun
    exact hview.trans s.beginFrame_viewValid

/-- Settles O17: FB_VIEW makes the view valid and leaves the framebuffer. -/
theorem fbViewShowsPixels : Obligations.FbViewShowsPixels := by
  unfold Obligations.FbViewShowsPixels
  intro s hf
  exact ⟨_, execFbView_of_idle hf, rfl, fun x y => State.viewPixel_of_valid rfl⟩

/-- Settles O18: whatever either command answers, the view is no longer valid. -/
theorem viewEndsAtDecodeAndInit : Obligations.ViewEndsAtDecodeAndInit := by
  unfold Obligations.ViewEndsAtDecodeAndInit
  rintro s t i (rfl | ⟨stream, n, rfl⟩) h
  · exact State.viewPixel_of_invalid (execDecodeFrame_viewValid h)
  · obtain ⟨_, _, rfl⟩ := execInit_next.mp h
    exact State.viewPixel_of_invalid (s.bind_viewValid stream n)

end Sys2Proof.Machine

/-!
PROOFS. The two postures side by side: what a record answers is the error of a failed check, in the checked posture alone,
or it goes on, and then the unchecked posture answers the same state (R8, R265, R266, R302).
-/

namespace Sys2Proof.Machine

/-! ## The relation -/

/-- The same state in the unchecked posture. -/
def State.toUnchecked (s : State) : State := { s with posture := .unchecked }

@[simp] theorem State.toUnchecked_fsm (s : State) : s.toUnchecked.fsm = s.fsm := rfl

/-- In state s a check has failed, and t is its error: that happens in the checked posture only, and a check raises one of
two kinds of error (R8, R260, R268). -/
def State.CheckFailed (s t : State) : Prop :=
  s.posture = .checked ∧ t.fsm = .failed ∧ (t.err = .invalidData ∨ t.err = .badDimensions) ∧ t.reply = .status t.err

theorem State.CheckFailed.isDecoding {s t : State} (h : s.CheckFailed t) : t.fsm.isDecoding = false := by
  obtain ⟨_, hfsm, _⟩ := h
  rw [hfsm]
  rfl

/-- What an operation answers in state s, and what it answers there in the unchecked posture: a next state is the error of a
failed check, or the frame goes on or has ended well and the other posture answers the same. -/
def State.AnswersInBoth (s : State) (o unchecked : Outcome) : Prop :=
  ∀ t, o = .next t → s.CheckFailed t ∨ (s.GoesOn t ∧ unchecked = .next t.toUnchecked)

variable {s : State}

theorem State.answersInBoth_next {t : State} (h : s.GoesOn t) : s.AnswersInBoth (.next t) (.next t.toUnchecked) := by
  rintro _ ⟨⟩
  exact .inr ⟨h, rfl⟩

theorem State.answersInBoth_fault (r : Fault) (o : Outcome) : s.AnswersInBoth (.fault r) o :=
  fun _ h => by cases h

theorem State.answersInBoth_refused (r : Refusal) (o : Outcome) : s.AnswersInBoth (.refused r) o :=
  fun _ h => by cases h

/-- It is enough to look at operations that answer a next state. -/
theorem State.answersInBoth_of_next {o o' : Outcome} (h : ∀ t, o = .next t → s.AnswersInBoth o o') :
    s.AnswersInBoth o o' :=
  fun t ht => h t ht t ht

theorem State.answersInBoth_ite {c : Prop} [Decidable c] {a b a' b' : Outcome} (ha : c → s.AnswersInBoth a a')
    (hb : ¬ c → s.AnswersInBoth b b') : s.AnswersInBoth (if c then a else b) (if c then a' else b') := by
  by_cases hc : c
  · simpa only [if_pos hc] using ha hc
  · simpa only [if_neg hc] using hb hc

theorem State.answersInBoth_dite {c : Prop} [Decidable c] {a a' : c → Outcome} {b b' : ¬ c → Outcome}
    (ha : ∀ hc, s.AnswersInBoth (a hc) (a' hc)) (hb : ∀ hc, s.AnswersInBoth (b hc) (b' hc)) :
    s.AnswersInBoth (if hc : c then a hc else b hc) (if hc : c then a' hc else b' hc) := by
  by_cases hc : c
  · simpa only [dif_pos hc] using ha hc
  · simpa only [dif_neg hc] using hb hc

/-- A failed check is an error of the checked posture, whatever the other posture answers. -/
theorem State.failCheck_answersInBoth (s : State) {k : ErrKind} (hk : k = .invalidData ∨ k = .badDimensions) (o : Outcome) :
    s.AnswersInBoth (s.failCheck k) o := by
  intro t h
  obtain ⟨hp, rfl⟩ := State.failCheck_next.mp h
  exact .inl ⟨hp, rfl, hk, rfl⟩

/-- A check in front of an operation. -/
theorem State.checked_answersInBoth {c : Prop} [Decidable c] {k : ErrKind} {o o' : Outcome}
    (hk : k = .invalidData ∨ k = .badDimensions) (h : c → s.AnswersInBoth o o') :
    s.AnswersInBoth (if ¬ c then s.failCheck k else o) (if ¬ c then s.toUnchecked.failCheck k else o') :=
  State.answersInBoth_ite (fun _ => s.failCheck_answersInBoth hk _) fun hc => h (Decidable.not_not.mp hc)

/-! ## What follows a record -/

theorem State.chunkLoop_answersInBoth (s : State) (fr : FrameRegs) (st : StripRegs) (c : Nat) :
    s.AnswersInBoth (s.chunkLoop fr st c) (s.toUnchecked.chunkLoop fr st c) := by
  unfold State.chunkLoop State.endStrip State.endFrame
  refine State.answersInBoth_ite (fun _ => ?chunk) fun _ => State.answersInBoth_ite (fun _ => ?strip) fun _ =>
    State.answersInBoth_ite (fun _ => ?done) fun _ => ?fail
  case chunk => exact State.answersInBoth_next (.inl ⟨rfl, rfl, rfl⟩)
  case strip =>
    exact State.answersInBoth_dite (fun _ => State.answersInBoth_next (.inl ⟨rfl, rfl, rfl⟩))
      fun _ => State.answersInBoth_fault _ _
  case done => exact State.answersInBoth_next (.inr ⟨rfl, rfl, rfl⟩)
  case fail => exact State.failCheck_answersInBoth { s with cursor := st.S + st.slen } (.inl rfl) _

theorem State.codebookLoop_answersInBoth (s : State) (fr : FrameRegs) (st : StripRegs) (cb : CodebookRegs) :
    s.AnswersInBoth (s.codebookLoop fr st cb) (s.toUnchecked.codebookLoop fr st cb) := by
  unfold State.codebookLoop
  exact State.answersInBoth_ite (fun _ => State.answersInBoth_next (.inl ⟨rfl, rfl, rfl⟩)) fun _ =>
    State.answersInBoth_ite (fun _ => s.failCheck_answersInBoth (.inl rfl) _) fun _ => s.chunkLoop_answersInBoth fr st _

theorem State.blockLoop_answersInBoth (s : State) (fr : FrameRegs) (st : StripRegs) (vp : VectorRegs) :
    s.AnswersInBoth (s.blockLoop fr st vp) (s.toUnchecked.blockLoop fr st vp) := by
  unfold State.blockLoop
  exact State.answersInBoth_ite (fun _ => State.answersInBoth_next (.inl ⟨rfl, rfl, rfl⟩)) fun _ =>
    State.answersInBoth_ite (fun _ => s.chunkLoop_answersInBoth fr st _) fun _ => s.failCheck_answersInBoth (.inl rfl) _

/-! ## Headers -/

theorem State.frameHeader_answersInBoth (s : State) (inter : Bool) (flen : BitVec 24) (width height nstrips : U16) :
    s.AnswersInBoth (s.frameHeader inter flen width height nstrips)
      (s.toUnchecked.frameHeader inter flen width height nstrips) := by
  refine State.answersInBoth_of_next fun t h => ?_
  obtain ⟨hf, _⟩ := State.frameHeader_next h
  simp only [State.frameHeader, State.toUnchecked_fsm, hf]
  refine State.checked_answersInBoth (.inl rfl) fun _ => State.checked_answersInBoth (.inl rfl) fun _ =>
    State.checked_answersInBoth (.inr rfl) fun _ => State.checked_answersInBoth (.inl rfl) fun _ =>
    State.answersInBoth_ite (fun _ => State.answersInBoth_ite (fun _ => ?empty) fun _ => ?zero) fun _ => ?strips
  case empty => exact State.answersInBoth_next (.inr ⟨rfl, rfl, rfl⟩)
  case zero => exact State.answersInBoth_refused _ _
  case strips => exact State.answersInBoth_next (.inl ⟨rfl, rfl, rfl⟩)

theorem State.stripHeader_answersInBoth (s : State) (slen py0 px0 py1 px1 : U16) :
    s.AnswersInBoth (s.stripHeader slen py0 px0 py1 px1) (s.toUnchecked.stripHeader slen py0 px0 py1 px1) := by
  refine State.answersInBoth_of_next fun t h => ?_
  obtain ⟨fr, hf, _⟩ := State.stripHeader_next h
  simp only [State.stripHeader, State.toUnchecked_fsm, hf]
  exact State.checked_answersInBoth (.inl rfl) fun _ => State.checked_answersInBoth (.inl rfl) fun _ =>
    State.checked_answersInBoth (.inl rfl) fun _ => State.checked_answersInBoth (.inl rfl) fun _ =>
    State.checked_answersInBoth (.inl rfl) fun _ => (s.setSlot fr.i _).chunkLoop_answersInBoth fr _ _

theorem State.openChunk_answersInBoth {clen : U16} {body body' : FrameRegs → StripRegs → Payload → Outcome}
    (hbody : ∀ fr st pl, s.AnswersInBoth (body fr st pl) (body' fr st pl)) :
    s.AnswersInBoth (s.openChunk clen body) (s.toUnchecked.openChunk clen body') := by
  refine State.answersInBoth_of_next fun t h => ?_
  obtain ⟨fr, st, hf, _⟩ := State.openChunk_next h
  simp only [State.openChunk, State.toUnchecked_fsm, hf]
  exact State.checked_answersInBoth (.inl rfl) fun _ => State.checked_answersInBoth (.inl rfl) fun _ => hbody fr st _

theorem State.openCodebook_answersInBoth (s : State) (target : Target) (bpp12 selective : Bool) (clen : U16) :
    s.AnswersInBoth (s.openCodebook target bpp12 selective clen)
      (s.toUnchecked.openCodebook target bpp12 selective clen) :=
  State.openChunk_answersInBoth fun fr st _ => s.codebookLoop_answersInBoth fr st _

theorem State.openVector_answersInBoth (s : State) (kind : VecKind) (clen : U16) :
    s.AnswersInBoth (s.openVector kind clen) (s.toUnchecked.openVector kind clen) :=
  State.openChunk_answersInBoth fun fr st _ => s.blockLoop_answersInBoth fr st _

/-! ## Groups -/

theorem State.decodeGroup_answersInBoth (s : State) (fr : FrameRegs) (st : StripRegs) (cb : CodebookRegs) (n : Nat)
    (e : Entry) : s.AnswersInBoth (s.decodeGroup fr st cb n e) (s.toUnchecked.decodeGroup fr st cb n e) := by
  unfold State.decodeGroup
  exact State.answersInBoth_dite
    (fun _ => State.checked_answersInBoth (.inl rfl) fun _ => (s.setSlot fr.i _).codebookLoop_answersInBoth fr st _)
    fun _ => s.failCheck_answersInBoth (.inl rfl) _

theorem execG8_answersInBoth (y0 y1 y2 y3 : Byte) (s : State) :
    s.AnswersInBoth (execG8 y0 y1 y2 y3 s) (execG8 y0 y1 y2 y3 s.toUnchecked) := by
  refine State.answersInBoth_of_next fun t h => ?_
  obtain ⟨fr, st, cb, _, _, hf, _⟩ := execG8_next h
  simp only [execG8, State.toUnchecked_fsm, hf]
  exact State.answersInBoth_ite (fun _ => State.answersInBoth_refused _ _)
    fun _ => s.decodeGroup_answersInBoth fr st cb _ _

theorem execG12_answersInBoth (y0 y1 y2 y3 u v : Byte) (s : State) :
    s.AnswersInBoth (execG12 y0 y1 y2 y3 u v s) (execG12 y0 y1 y2 y3 u v s.toUnchecked) := by
  refine State.answersInBoth_of_next fun t h => ?_
  obtain ⟨fr, st, cb, _, _, hf, _⟩ := execG12_next h
  simp only [execG12, State.toUnchecked_fsm, hf]
  exact State.answersInBoth_ite (fun _ => State.answersInBoth_refused _ _)
    fun _ => s.decodeGroup_answersInBoth fr st cb _ _

theorem execGskip_answersInBoth (s : State) : s.AnswersInBoth (execGskip s) (execGskip s.toUnchecked) := by
  refine State.answersInBoth_of_next fun t h => ?_
  obtain ⟨fr, st, cb, hf, _⟩ := execGskip_next h
  simp only [execGskip, State.toUnchecked_fsm, hf]
  exact State.answersInBoth_ite (fun _ => State.answersInBoth_refused _ _) fun _ =>
    State.checked_answersInBoth (.inl rfl) fun _ => s.codebookLoop_answersInBoth fr st _

/-! ## Block codes -/

/-- In the unchecked posture an entry never written is read in free colours (R188, U3). -/
theorem State.lookup_unwritten {i : Fin 32} {g : Target} {idx : Byte} (hp : s.posture = .unchecked)
    (hw : (s.slots[i.val].written g)[idx.toNat] = false) :
    s.lookup i g idx = some (undefinedEntry s.free, { s with free := s.free + 1 }) := by
  simp only [State.lookup, hw, hp, Bool.false_eq_true, if_false]

/-- An entry that is read is read in the unchecked posture too, and alike. -/
theorem State.lookup_toUnchecked {u : State} {i : Fin 32} {g : Target} {idx : Byte} {e : Entry}
    (h : s.lookup i g idx = some (e, u)) : s.toUnchecked.lookup i g idx = some (e, u.toUnchecked) := by
  rcases State.lookup_some h with ⟨hw, rfl, rfl⟩ | ⟨hw, _, rfl, rfl⟩
  · exact State.lookup_written (s := u.toUnchecked) hw
  · exact State.lookup_unwritten (s := s.toUnchecked) rfl hw

theorem State.lookup4_toUnchecked {u : State} {i : Fin 32} {i0 i1 i2 i3 : Byte} {e0 e1 e2 e3 : Entry}
    (h : s.lookup4 i i0 i1 i2 i3 = some (e0, e1, e2, e3, u)) :
    s.toUnchecked.lookup4 i i0 i1 i2 i3 = some (e0, e1, e2, e3, u.toUnchecked) := by
  obtain ⟨s0, s1, s2, h0, h1, h2, h3⟩ := State.lookup4_some h
  simp only [State.lookup4, State.lookup_toUnchecked h0, State.lookup_toUnchecked h1, State.lookup_toUnchecked h2,
    State.lookup_toUnchecked h3]

theorem State.drawBlock_answersInBoth (s : State) (fr : FrameRegs) (st : StripRegs) (vp : VectorRegs) (n : Nat)
    (colour : Nat → Nat → Colour) :
    s.AnswersInBoth (s.drawBlock fr st vp n colour) (s.toUnchecked.drawBlock fr st vp n colour) := by
  refine State.answersInBoth_of_next fun t h => ?_
  obtain ⟨u, hu, _⟩ := State.drawBlock_next h
  obtain ⟨hx, hy, _⟩ := State.writeBlock_some hu
  rw [State.drawBlock_eq hx hy, State.drawBlock_eq hx hy]
  exact State.blockLoop_answersInBoth { s with fb := Framebuffer.setBlock s.fb vp.bx vp.by_ colour } fr st _

theorem State.placeV1_answersInBoth (s : State) (fr : FrameRegs) (st : StripRegs) (vp : VectorRegs) (i0 : Byte) :
    s.AnswersInBoth (s.placeV1 fr st vp i0) (s.toUnchecked.placeV1 fr st vp i0) := by
  refine State.checked_answersInBoth (.inl rfl) fun _ => ?_
  cases hread : s.lookup fr.i .v1 i0 with
  | none => exact s.failCheck_answersInBoth (.inl rfl) _
  | some read =>
    obtain ⟨e, u⟩ := read
    rw [State.lookup_toUnchecked hread]
    obtain ⟨free, rfl⟩ := State.lookup_state hread
    exact State.drawBlock_answersInBoth { s with free := free } fr st vp 1 (lanesV1 e)

theorem State.placeV4_answersInBoth (s : State) (fr : FrameRegs) (st : StripRegs) (vp : VectorRegs)
    (i0 i1 i2 i3 : Byte) :
    s.AnswersInBoth (s.placeV4 fr st vp i0 i1 i2 i3) (s.toUnchecked.placeV4 fr st vp i0 i1 i2 i3) := by
  refine State.checked_answersInBoth (.inl rfl) fun _ => ?_
  cases hread : s.lookup4 fr.i i0 i1 i2 i3 with
  | none => exact s.failCheck_answersInBoth (.inl rfl) _
  | some read =>
    obtain ⟨e0, e1, e2, e3, u⟩ := read
    rw [State.lookup4_toUnchecked hread]
    obtain ⟨free, rfl⟩ := State.lookup4_state hread
    exact State.drawBlock_answersInBoth { s with free := free } fr st vp 4 (lanesV4 e0 e1 e2 e3)

theorem State.inBlock_answersInBoth {kind : VecKind} {body body' : FrameRegs → StripRegs → VectorRegs → Outcome}
    (hbody : ∀ fr st vp, s.AnswersInBoth (body fr st vp) (body' fr st vp)) :
    s.AnswersInBoth (s.inBlock kind body) (s.toUnchecked.inBlock kind body') := by
  refine State.answersInBoth_of_next fun t h => ?_
  obtain ⟨fr, st, vp, hf, _⟩ := State.inBlock_next h
  simp only [State.inBlock, State.toUnchecked_fsm, hf]
  exact State.answersInBoth_ite (fun _ => hbody fr st vp) fun _ => State.answersInBoth_refused _ _

/-! ## Records and frames -/

/-- Every record. -/
theorem runRecord_answersInBoth (i : Instr) (s : State) : s.AnswersInBoth (runRecord i s) (runRecord i s.toUnchecked) := by
  cases i with
  | frameIntra | frameInter => exact s.frameHeader_answersInBoth _ _ _ _ _
  | stripIntra | stripInter => exact s.stripHeader_answersInBoth _ _ _ _ _
  | cbV412Full | cbV412Sel | cbV112Full | cbV112Sel | cbV48Full | cbV48Sel | cbV18Full | cbV18Sel =>
    exact s.openCodebook_answersInBoth _ _ _ _
  | vecMixed | vecDelta | vecUniform => exact s.openVector_answersInBoth _ _
  | g8 => exact execG8_answersInBoth _ _ _ _ s
  | g12 => exact execG12_answersInBoth _ _ _ _ _ _ s
  | gskip => exact execGskip_answersInBoth s
  | buV1 | bmV1 | bcV1 => exact State.inBlock_answersInBoth fun fr st vp => s.placeV1_answersInBoth fr st vp _
  | bmV4 | bcV4 => exact State.inBlock_answersInBoth fun fr st vp => s.placeV4_answersInBoth fr st vp _ _ _ _
  | bcSkip => exact State.inBlock_answersInBoth fun fr st vp => s.blockLoop_answersInBoth fr st _
  | ct | bwV1 | bwV4 | init | hasNext | decodeFrame | fbView => exact State.answersInBoth_refused _ _

/-- Reading the stream does not look at the posture. -/
@[simp] theorem State.bytes_toUnchecked (s : State) (a n : Nat) : s.toUnchecked.bytes a n = s.bytes a n := by
  induction n generalizing a with
  | zero => rfl
  | succ m ih => simp only [State.bytes, ih]; rfl

@[simp] theorem State.nextBit_toUnchecked (s : State) (pl : Payload) : s.toUnchecked.nextBit pl = s.nextBit pl := by
  simp only [State.nextBit, State.be32, State.bytes_toUnchecked]

/-- What is fetched in one posture is fetched in the unchecked one too. -/
def Fetched.RunsInBoth (f unchecked : Fetched) : Prop := ∀ i t, f = .run i t → unchecked = .run i t.toUnchecked

theorem Fetched.runsInBoth_halt (o : Outcome) (f : Fetched) : Fetched.RunsInBoth (.halt o) f :=
  fun _ _ h => by cases h

theorem State.fetchWithin_runsInBoth (s : State) (level : Level) (bits : List Bool) (a n limit : Nat) :
    (s.fetchWithin level bits a n limit).RunsInBoth (s.toUnchecked.fetchWithin level bits a n limit) := by
  intro i t h
  obtain ⟨hle, rfl, l, d, hl, hd, rfl⟩ := State.fetchWithin_run h
  exact State.fetchWithin_of_decode hle (by rwa [State.bytes_toUnchecked]) hd

theorem State.fetchGroup_runsInBoth (s : State) (fr : FrameRegs) (st : StripRegs) (cb : CodebookRegs) :
    (s.fetchGroup fr st cb).RunsInBoth (s.toUnchecked.fetchGroup fr st cb) := by
  unfold State.fetchGroup
  rw [State.nextBit_toUnchecked]
  split
  · exact Fetched.runsInBoth_halt _ _
  split
  · exact Fetched.runsInBoth_halt _ _
  split
  · split
    · exact State.fetchWithin_runsInBoth _ _ _ _ _ _
    · exact Fetched.runsInBoth_halt _ _
    · exact Fetched.runsInBoth_halt _ _
  · exact s.fetchWithin_runsInBoth _ _ _ _ _

theorem State.fetchIndices_runsInBoth (s : State) (fr : FrameRegs) (st : StripRegs) (vp : VectorRegs) (bits : List Bool)
    (pl : Payload) : (s.fetchIndices fr st vp bits pl).RunsInBoth (s.toUnchecked.fetchIndices fr st vp bits pl) :=
  State.fetchWithin_runsInBoth _ _ _ _ _ _

theorem State.fetchBlock_runsInBoth (s : State) (fr : FrameRegs) (st : StripRegs) (vp : VectorRegs) :
    (s.fetchBlock fr st vp).RunsInBoth (s.toUnchecked.fetchBlock fr st vp) := by
  unfold State.fetchBlock
  simp only [State.nextBit_toUnchecked]
  split
  · exact s.fetchIndices_runsInBoth _ _ _ _ _
  · split
    · exact s.fetchIndices_runsInBoth _ _ _ _ _
    all_goals exact Fetched.runsInBoth_halt _ _
  · split
    · exact s.fetchIndices_runsInBoth _ _ _ _ _
    · split
      · exact s.fetchIndices_runsInBoth _ _ _ _ _
      all_goals exact Fetched.runsInBoth_halt _ _
    all_goals exact Fetched.runsInBoth_halt _ _

theorem State.fetch_runsInBoth (s : State) (due : Due) : (s.fetch due).RunsInBoth (s.toUnchecked.fetch due) := by
  cases due with
  | frame | strip | chunk => exact s.fetchWithin_runsInBoth _ _ _ _ _
  | group => exact s.fetchGroup_runsInBoth _ _ _
  | block => exact s.fetchBlock_runsInBoth _ _ _

/-- A record that runs in the state it was fetched in answers as from the state it was due in: the fetch moves the payload
registers alone. -/
theorem Fetches.answersInBoth {t : State} {due : Due} {i : Instr} {o o' : Outcome} (h : Fetches s due i t)
    (ho : t.AnswersInBoth o o') : s.AnswersInBoth o o' := by
  cases h <;> exact ho

/-- A record step. -/
theorem recordStep_answersInBoth (due : Due) (s : State) :
    s.AnswersInBoth (recordStep due s) (recordStep due s.toUnchecked) := by
  unfold recordStep
  cases hfetch : s.fetch due with
  | run i t =>
    rw [s.fetch_runsInBoth due i t hfetch]
    exact (State.fetch_run hfetch).answersInBoth (runRecord_answersInBoth i t)
  | halt o =>
    intro t ht
    cases ht
    rcases State.fetch_halt_next hfetch with ⟨hp, rfl⟩ | ⟨fr, st, cb, rfl, hend, hloop⟩
    · exact .inl ⟨hp, rfl, .inl rfl, rfl⟩
    · have hhalt : s.toUnchecked.fetch (.group fr st cb) = .halt (s.toUnchecked.codebookLoop fr st cb) :=
        if_pos (Nat.not_lt.mpr hend)
      rw [hhalt]
      exact s.codebookLoop_answersInBoth fr st cb t hloop

/-- What is said of a state that a record has led to holds of the state before it: the frame goes on with the posture, `err`
and reply it had. -/
theorem State.AnswersInBoth.of_goesOn {u : State} {due : Due} {o o' : Outcome} (h : u.AnswersInBoth o o')
    (hf : u.fsm = .decoding due) (hcontext : s.SameContext u) (hgoes : s.GoesOn u) : s.AnswersInBoth o o' := by
  intro t ht
  obtain ⟨hposture, _⟩ := hcontext
  rcases hgoes with ⟨_, herr, hreply⟩ | ⟨hidle, _⟩
  · simpa only [State.CheckFailed, State.GoesOn, hposture, herr, hreply] using h t ht
  · exact absurd (hidle.symm.trans hf) (idleFsm_ne_decoding _ _ _)

/-- The run of a frame goes on from its next record step. -/
theorem runFrame_succ_of_next {m : Nat} {u : State} {due : Due} (hf : s.fsm = .decoding due)
    (hstep : recordStep due s = .next u) : runFrame (m + 1) s = runFrame m u := by
  rw [runFrame]
  simp only [hf, hstep]

/-- A run of record steps, by induction on its bound: an error ends it, and while it goes on the postures agree. -/
theorem runFrame_answersInBoth {n : Nat} {s : State} {due : Due} (hf : s.fsm = .decoding due) :
    s.AnswersInBoth (runFrame n s) (runFrame n s.toUnchecked) := by
  induction n generalizing s due with
  | zero =>
    rw [runFrame]
    simp only [hf]
    exact State.answersInBoth_fault _ _
  | succ m ih =>
    refine State.answersInBoth_of_next fun t h => ?_
    obtain ⟨_, u, hstep, _⟩ := runFrame_decoding hf h
    rw [runFrame_succ_of_next hf hstep]
    rcases recordStep_answersInBoth due s u hstep with hfailed | ⟨hgoes, hstep'⟩
    · rw [runFrame_of_idle m hfailed.isDecoding]
      rintro _ ⟨⟩
      exact .inl hfailed
    · rw [runFrame_succ_of_next (s := s.toUnchecked) hf hstep']
      rcases u.fsm.decoding_or_idle with ⟨due', hf'⟩ | hidle
      · exact (ih hf').of_goesOn hf' (recordStep_sameContext hstep) hgoes
      · rw [runFrame_of_idle m hidle, runFrame_of_idle (s := u.toUnchecked) m hidle]
        exact State.answersInBoth_next hgoes

/-! ## DECODE_FRAME -/

/-- A frame has ended well with `Ok` delivered (R230). -/
def State.FrameOk (t : State) : Prop := t.fsm = idleFsm t.cursor t.length ∧ t.err = .ok ∧ t.reply = .status .ok

/-- What DECODE_FRAME answers: `Eof`, the error of a failed check, or `Ok`, and then the unchecked posture answers the same
(R233, R245, R266, R302). -/
theorem execDecodeFrame_answers {t : State} (h : execDecodeFrame s = .next t) :
    t = s.eof ∨ s.CheckFailed t ∨ (t.FrameOk ∧ execDecodeFrame s.toUnchecked = .next t.toUnchecked) := by
  obtain ⟨hidle, ⟨_, rfl⟩ | ⟨hne, hrun⟩⟩ := execDecodeFrame_next h
  · exact .inl rfl
  · refine .inr ((runFrame_answersInBoth s.beginFrame_fsm t hrun).imp_right ?_)
    rintro ⟨⟨hdecoding, _⟩ | hok, hrun'⟩
    · obtain ⟨due, hf⟩ | hf := t.fsm.decoding_or_idle
      · exact absurd hf (runFrame_ends hrun due)
      · cases hdecoding.symm.trans hf
    · exact ⟨hok, (execDecodeFrame_eq_runFrame (s := s.toUnchecked) hidle hne).trans hrun'⟩

/-- Settles O56: neither `Eof` nor the error of a failed check is `Ok`; else the postures agree record by record. -/
theorem posturesAgreeOnValidFrames : Obligations.PosturesAgreeOnValidFrames := by
  unfold Obligations.PosturesAgreeOnValidFrames
  intro s t _ h hok
  rcases execDecodeFrame_answers h with rfl | ⟨_, _, herr, _⟩ | ⟨_, h'⟩
  · cases hok
  · rw [hok] at herr
    rcases herr with herr | herr <;> cases herr
  · exact h'

/-- Settles O57: a failed check is an error of the checked posture alone. -/
theorem uncheckedReturnsOkOrEof : Obligations.UncheckedReturnsOkOrEof := by
  unfold Obligations.UncheckedReturnsOkOrEof
  intro s t hp h
  obtain ⟨hidle, _⟩ := execDecodeFrame_next h
  rcases execDecodeFrame_answers h with rfl | ⟨hchecked, _⟩ | ⟨⟨hfsm, herr, hreply⟩, _⟩
  · refine ⟨.inr rfl, rfl, fun hfailed => ?_⟩
    rcases hidle with hf | hf <;> cases hf.symm.trans hfailed
  · cases hp.symm.trans hchecked
  · refine ⟨.inl herr, by rw [hreply, herr], fun hfailed => ?_⟩
    rw [hfsm, idleFsm] at hfailed
    split at hfailed <;> cases hfailed

/-! ## Internal -/

/-- `err` and the value returned to the host are `Internal` only where they were before. -/
def State.NoNewInternal (s t : State) : Prop :=
  (t.err = .internal → s.err = .internal) ∧ (t.reply = .status .internal → s.reply = .status .internal)

theorem State.noNewInternal_of_kept {t : State} (herr : t.err = s.err) (hreply : t.reply = s.reply) :
    s.NoNewInternal t :=
  ⟨herr.symm.trans, hreply.symm.trans⟩

/-- Where another value has been delivered there is no `Internal`. -/
theorem State.noNewInternal_of_delivered {t : State} {k : ErrKind} (hk : k ≠ .internal) (herr : t.err = k)
    (hreply : t.reply = .status k) : s.NoNewInternal t :=
  ⟨fun h => absurd (herr.symm.trans h) hk, fun h => absurd (Reply.status.inj (hreply.symm.trans h)) hk⟩

theorem State.CheckFailed.noNewInternal {t : State} (h : s.CheckFailed t) : s.NoNewInternal t := by
  obtain ⟨_, _, herr, hreply⟩ := h
  rcases herr with herr | herr <;>
    exact State.noNewInternal_of_delivered (by decide) herr (by rw [hreply, herr])

theorem State.GoesOn.noNewInternal {t : State} (h : s.GoesOn t) : s.NoNewInternal t := by
  rcases h with ⟨_, herr, hreply⟩ | ⟨_, herr, hreply⟩
  · exact State.noNewInternal_of_kept herr hreply
  · exact State.noNewInternal_of_delivered (by decide) herr hreply

/-- Every record's answer. -/
theorem runRecord_noNewInternal {i : Instr} {t : State} (h : runRecord i s = .next t) : s.NoNewInternal t := by
  rcases runRecord_answersInBoth i s t h with hfailed | ⟨hgoes, _⟩
  · exact hfailed.noNewInternal
  · exact hgoes.noNewInternal

theorem execDecodeFrame_noNewInternal {t : State} (h : execDecodeFrame s = .next t) : s.NoNewInternal t := by
  rcases execDecodeFrame_answers h with rfl | hfailed | ⟨⟨_, herr, hreply⟩, _⟩
  · exact State.noNewInternal_of_delivered (by decide) s.eof_err s.eof_reply
  · exact hfailed.noNewInternal
  · exact State.noNewInternal_of_delivered (by decide) herr hreply

/-- A block write by itself delivers nothing. -/
theorem State.blockWrite_noNewInternal {t : State} {x y : Nat} {colour : Nat → Nat → Colour}
    (h : s.blockWrite x y colour = .next t) : s.NoNewInternal t := by
  unfold State.blockWrite at h
  split at h
  · rename_i u hu
    cases h
    obtain ⟨_, _, rfl⟩ := State.writeBlock_some hu
    exact State.noNewInternal_of_kept rfl rfl
  · cases h

/-- Settles O51: a failed check delivers one of two other kinds, and nothing else delivers an error but `Eof`. -/
theorem internalNeverRaised : Obligations.InternalNeverRaised := by
  unfold Obligations.InternalNeverRaised
  intro i s t h
  change s.NoNewInternal t
  cases i with
  | init => obtain ⟨_, _, rfl⟩ := execInit_next.mp h; exact ⟨by simp, by simp⟩
  | hasNext => obtain ⟨_, rfl⟩ := execHasNext_next h; exact ⟨id, by simp⟩
  | fbView => obtain ⟨_, rfl⟩ := execFbView_next h; exact ⟨id, by simp⟩
  | ct => cases h; exact ⟨id, by simp⟩
  | bwV1 | bwV4 => exact State.blockWrite_noNewInternal h
  | decodeFrame => exact execDecodeFrame_noNewInternal h
  | _ => exact runRecord_noNewInternal ((runRecord_eq_exec rfl s).trans h)

end Sys2Proof.Machine

/-!
PROOFS. The datapath's block writes: a block inside the framebuffer is drawn and nothing else changes, another one is a
fault (R77, R171 to R173).
-/

namespace Sys2Proof.Machine

/-- The outcome o draws a block and changes nothing but the framebuffer. -/
def State.OnlyDraws (s : State) (o : Outcome) (x y : Nat) (colour : Nat → Nat → Colour) : Prop :=
  ∃ t, o = .next t ∧ t = { s with fb := t.fb } ∧ s.Drew t x y colour

/-- A block write inside the framebuffer shows its colour selector at the sixteen positions of the block (R173). -/
theorem State.blockWrite_onlyDraws (s : State) {x y : Nat} {colour colour' : Nat → Nat → Colour} (hx : x + 4 ≤ 320)
    (hy : y + 4 ≤ 240) (hcolour : ∀ dx dy, dx < 4 → dy < 4 → colour dx dy = colour' dx dy) :
    s.OnlyDraws (s.blockWrite x y colour) x y colour' := by
  have hdrew : s.Drew { s with fb := Framebuffer.setBlock s.fb x y colour } x y colour :=
    fun px py _ _ => Framebuffer.pixel_setBlock s.fb x y px py colour hy
  refine ⟨_, ?_, rfl, hdrew.congr hcolour⟩
  simp only [State.blockWrite, State.writeBlock, hx, hy, and_self, if_true]

/-- A block write that is not inside the framebuffer is a fault (R77). -/
theorem State.blockWrite_offGrid (s : State) {x y : Nat} (h : ¬ (x + 4 ≤ 320 ∧ y + 4 ≤ 240))
    (colour : Nat → Nat → Colour) : s.blockWrite x y colour = .fault (.noSuchPixel x y) := by
  simp only [State.blockWrite, State.writeBlock, if_neg h]

/-- Settles O9: the selector of BW.V1 gives sub-quadrant q colour q. -/
theorem blockWriteV1 : Obligations.BlockWriteV1 := by
  unfold Obligations.BlockWriteV1
  intro s x y e hx hy
  exact s.blockWrite_onlyDraws hx hy fun _ _ => lanesV1_eq e

/-- Settles O10: the selector of BW.V4 gives sub-quadrant q entry q, whose colours are numbered by the pixel in it. -/
theorem blockWriteV4 : Obligations.BlockWriteV4 := by
  unfold Obligations.BlockWriteV4
  intro s x y e0 e1 e2 e3 hx hy
  exact s.blockWrite_onlyDraws hx hy fun dx dy hdx hdy =>
    (lanesV4_eq e0 e1 e2 e3 hdx hdy).trans (Entry.colour_subPixel _ dx dy)

/-- Settles O12: both are the same block write, with another colour selector. -/
theorem blockWriteOffGridFaults : Obligations.BlockWriteOffGridFaults := by
  unfold Obligations.BlockWriteOffGridFaults
  intro s x y e e0 e1 e2 e3 h
  exact ⟨s.blockWrite_offGrid h _, s.blockWrite_offGrid h _⟩

end Sys2Proof.Machine

/-!
PROOFS. Block codes of the unchecked posture: every entry is read, one never written in free colours (R188, U3).
-/

namespace Sys2Proof.Machine

/-- What an entry of a codebook reads in the unchecked posture when n free values have been drawn: one never written stands
for free colours (R188, U3). -/
def Slot.entryUnchecked (sl : Slot) (g : Target) (n : Nat) (idx : Byte) : Entry :=
  if (sl.written g)[idx.toNat] = true then (sl.codebook g)[idx.toNat] else undefinedEntry n

/-- How many free values have been drawn after that read. -/
def Slot.freeAfter (sl : Slot) (g : Target) (n : Nat) (idx : Byte) : Nat :=
  if (sl.written g)[idx.toNat] = true then n else n + 1

/-- In the unchecked posture every entry is read (R188, U3). -/
theorem State.lookup_of_unchecked {s : State} (hp : s.posture = .unchecked) (i : Fin 32) (g : Target) (idx : Byte) :
    s.lookup i g idx =
      some (s.slots[i.val].entryUnchecked g s.free idx, { s with free := s.slots[i.val].freeAfter g s.free idx }) := by
  unfold Slot.entryUnchecked Slot.freeAfter
  split
  · rename_i hw; exact State.lookup_written hw
  · rename_i hw; exact State.lookup_unwritten hp (Bool.eq_false_iff.mpr hw)

/-- In the unchecked posture four entries are read in the order of their index bytes, each with the count of free values
that the one before it leaves (R186, U3). -/
theorem State.lookup4_of_unchecked {s : State} (hp : s.posture = .unchecked) (i : Fin 32) (i0 i1 i2 i3 : Byte) :
    let sl := s.slots[i.val]
    let n1 := sl.freeAfter .v4 s.free i0
    let n2 := sl.freeAfter .v4 n1 i1
    let n3 := sl.freeAfter .v4 n2 i2
    s.lookup4 i i0 i1 i2 i3 =
      some (sl.entryUnchecked .v4 s.free i0, sl.entryUnchecked .v4 n1 i1, sl.entryUnchecked .v4 n2 i2,
        sl.entryUnchecked .v4 n3 i3, { s with free := sl.freeAfter .v4 n3 i3 }) := by
  have hread : ∀ n idx, State.lookup { s with free := n } i .v4 idx =
      some (s.slots[i.val].entryUnchecked .v4 n idx, { s with free := s.slots[i.val].freeAfter .v4 n idx }) :=
    fun n => State.lookup_of_unchecked (s := { s with free := n }) hp i .v4
  simp only [State.lookup4, State.lookup_of_unchecked hp, hread]

/-- Settles O41: the entry is read in free colours, and its block is drawn. -/
theorem unwrittenEntryUnchecked : Obligations.UnwrittenEntryUnchecked := by
  unfold Obligations.UnwrittenEntryUnchecked
  intro s fr st vp i0 hf hp hfit hw hx hy hend
  exact exec_v1Codes hf (answer := fun o => s.DrawsDueBlock o fr st vp 1 (s.free + 1) _)
    (State.placeV1_draws hfit (State.lookup_unwritten (g := .v1) hp hw) hx hy hend)

/-- Settles O42: the four entries are read whatever they are, and their block is drawn. -/
theorem unwrittenEntriesUncheckedV4 : Obligations.UnwrittenEntriesUncheckedV4 := by
  unfold Obligations.UnwrittenEntriesUncheckedV4
  intro s fr st vp i0 i1 i2 i3 hf hp hfit hx hy hend
  exact exec_v4Codes hf (answer := fun o => s.DrawsDueBlock o fr st vp 4 _ _)
    (State.placeV4_draws hfit (State.lookup4_of_unchecked hp fr.i i0 i1 i2 i3) hx hy hend)

end Sys2Proof.Machine

/-!
PROOFS. Chunk ids of the band without meaning (R108, U9).
-/

namespace Sys2Proof.Machine

/-- A listed id has low byte 0 (R106). -/
theorem chunkRecords_lowByte : ∀ row ∈ chunkRecords, lowByte row.1 = 0 := by
  have hall : chunkRecords.map (fun row => lowByte row.1) = List.replicate 11 0 := rfl
  intro row hrow
  exact List.eq_of_mem_replicate (hall ▸ List.mem_map_of_mem hrow)

/-- A chunk id with a listed high byte and another low byte than 0 has no meaning (R108). -/
theorem decode_chunk_unclear {i1 i0 : Byte} (l1 l0 : Byte)
    (hhigh : i1.toNat ∈ [0x20, 0x21, 0x22, 0x23, 0x24, 0x25, 0x26, 0x27, 0x30, 0x31, 0x32]) (hlow : i0 ≠ 0) :
    decode .chunk [] [i1, i0, l1, l0] = .error (.unclearChunkId (joinU16 i1 i0) (joinU16 l1 l0)) := by
  have hunlisted : ∀ row ∈ chunkRecords, row.1 ≠ joinU16 i1 i0 := fun row hrow he =>
    hlow (by rw [← lowByte_joinU16 i1 i0, ← he, chunkRecords_lowByte row hrow])
  have hband : ∃ row ∈ chunkRecords, highByte row.1 = highByte (joinU16 i1 i0) := by
    rw [← chunkRecords_highBytes] at hhigh
    obtain ⟨row, hrow, he⟩ := List.mem_map.mp hhigh
    exact ⟨row, hrow, by rw [highByte_joinU16, BitVec.eq_of_toNat_eq he]⟩
  simp only [decode, decodeChunk, decodeChunkHeader_of_unlisted _ hunlisted, if_pos hband, withBits]

/-- Where the chunk stands in its strip, the step answers the rejection of an id of the band (R108, R208). -/
theorem step_of_unclearChunkId {s : State} {fr : FrameRegs} {st : StripRegs} {l : List Byte} {cid clen : U16}
    (hf : s.fsm = .decoding (.chunk fr st)) (hle : st.c + 4 ≤ st.S + st.slen) (hl : s.bytes st.c 4 = some l)
    (hd : decode .chunk [] l = .error (.unclearChunkId cid clen)) :
    step s = if 4 ≤ clen.toNat ∧ st.c + clen.toNat ≤ st.S + st.slen then .refused (.unclearChunkId cid)
      else s.failCheck .invalidData := by
  simp only [step, hf, State.fetch, State.fetchWithin, State.fetchAt, if_pos hle, hl, hd, State.reject]

/-- Settles O46: the id is in the band, and the fetch looks at the length first. -/
theorem unclearChunkIdRefused : Obligations.UnclearChunkIdRefused := by
  unfold Obligations.UnclearChunkIdRefused
  intro s fr st i1 i0 l1 l0 hf hle hl hhigh hlow
  rw [step_of_unclearChunkId hf hle hl (decode_chunk_unclear l1 l0 hhigh hlow), joinU16_toNat]
  dsimp only
  split
  · rfl
  · exact fun hp => State.failsWith_failCheck hp _

end Sys2Proof.Machine

/-!
PROOFS. Power-on, the host's commands by the state machine, and what a platform may show (R7, R43, R74, R271, R281, R290,
R292, R295).
-/

namespace Sys2Proof.Machine

/-! ## Power-on and failure -/

/-- Settles O52: the memories are empty, and of `Uninit` the invariant says nothing more. -/
theorem invariantAtPowerOn : Obligations.InvariantAtPowerOn := by
  unfold Obligations.InvariantAtPowerOn
  obtain ⟨hstream, hfb⟩ := State.reset_memories
  exact ⟨hstream, hfb, trivial⟩

/-- HAS_NEXT, DECODE_FRAME and FB_VIEW are refused where the state machine gives a command no meaning (R244, R245, R249). -/
theorem exec_refused_of_whenIdle {s : State} {r : Refusal} (h : ∀ command, s.whenIdle command = .refused r) :
    exec .hasNext s = .refused r ∧ exec .decodeFrame s = .refused r ∧ exec .fbView s = .refused r := by
  simp only [exec, execHasNext, execDecodeFrame, execFbView, h, and_self]

/-- Settles O13: in `Uninit` the three commands have no meaning, and INIT runs since no frame is being decoded. -/
theorem powerOnAcceptsInitOnly : Obligations.PowerOnAcceptsInitOnly := by
  unfold Obligations.PowerOnAcceptsInitOnly
  refine ⟨rfl, fun s hf => ?_⟩
  obtain ⟨hhasNext, hdecodeFrame, hfbView⟩ := exec_refused_of_whenIdle fun command => State.whenIdle_of_uninit command hf
  have hidle : s.fsm.isDecoding = false := by rw [hf]; rfl
  exact ⟨hhasNext, hdecodeFrame, hfbView, fun stream n hn => execInit_next.mpr ⟨hidle, hn, rfl⟩⟩

/-- Settles O14: in `Failed` the three commands have no meaning, and INIT runs since no frame is being decoded. -/
theorem failedIsAbsorbing : Obligations.FailedIsAbsorbing := by
  unfold Obligations.FailedIsAbsorbing
  intro s hf
  obtain ⟨hhasNext, hdecodeFrame, hfbView⟩ := exec_refused_of_whenIdle fun command => State.whenIdle_of_failed command hf
  have hidle : s.fsm.isDecoding = false := by rw [hf]; rfl
  exact ⟨hhasNext, hdecodeFrame, hfbView,
    fun stream n hn => ⟨_, execInit_next.mpr ⟨hidle, hn, rfl⟩, s.bind_fsm stream n⟩⟩

/-! ## The host's queue -/

/-- While no frame is decoded the step issues the oldest command (R17). -/
theorem step_of_cmds_cons {s : State} {c : HostCmd} {rest : List HostCmd} (hidle : s.fsm.isDecoding = false)
    (hcmds : s.cmds = c :: rest) : step s = exec c.instr { s with cmds := rest } := by
  unfold step
  split
  · rename_i hf; rw [hf] at hidle; cases hidle
  · simp only [hcmds]

/-- Without a command an idle decoder stays as it is (R281). -/
theorem step_of_cmds_nil {s : State} (hidle : s.fsm.isDecoding = false) (hcmds : s.cmds = []) : step s = .next s := by
  obtain h | ⟨c, rest, hcons, _⟩ := step_of_idle hidle
  · exact h
  · cases hcmds.symm.trans hcons

/-- While a frame is decoded a command is an overlap (R86, R295). -/
theorem State.whenIdle_of_decoding {s : State} (command : State → Outcome) (h : s.fsm.isDecoding = true) :
    s.whenIdle command = .refused .overlap := by
  obtain ⟨due, hf⟩ | hidle := s.fsm.decoding_or_idle
  · simp only [State.whenIdle, hf]
  · cases h.symm.trans hidle

/-- So is INIT. -/
theorem execInit_of_decoding {s : State} (stream : List Byte) (n : Nat) (h : s.fsm.isDecoding = true) :
    execInit stream n s = .refused .overlap := if_pos h

/-- Settles O47: between frames the step takes the oldest command off the queue; during one no command is accepted. -/
theorem stepIssuesHostCommand : Obligations.StepIssuesHostCommand := by
  unfold Obligations.StepIssuesHostCommand
  refine fun s => ⟨fun hidle => ⟨step_of_cmds_nil hidle, fun rest => ?_⟩, fun h => ?_⟩
  · exact ⟨fun _ _ => step_of_cmds_cons hidle, step_of_cmds_cons hidle, step_of_cmds_cons hidle, step_of_cmds_cons hidle⟩
  · exact ⟨fun stream n => execInit_of_decoding stream n h,
      exec_refused_of_whenIdle fun command => State.whenIdle_of_decoding command h⟩

/-! ## Open parameters -/

/-- The two bytes of a pixel under a valid view (R74, R249). -/
theorem State.imageByte_of_valid {s : State} {x y : Nat} (hv : s.viewValid = true) (hx : x < 320) (hy : y < 240)
    (order : ByteOrder) (upper : Bool) :
    s.imageByte order (2 * (y * 320 + x) + upper.toNat) =
      some (pixelByte order (Framebuffer.pixel s.fb x y) upper) := by
  rw [State.imageByte_pixel order upper hx, State.viewPixel_of_valid hv hx hy, Option.map_some]

/-- The byte image ends with the last pixel's bytes (R74). -/
theorem State.imageByte_beyond (s : State) (order : ByteOrder) {a : Nat} (ha : 153600 ≤ a) : s.imageByte order a = none := by
  have hrow : ¬ a / 2 / 320 < 240 := by omega
  simp [State.imageByte, State.viewPixel, hrow]

/-- The status values at an address are those of the registers placed there (R43, R81). -/
theorem State.mem_statusAt {s : State} {a : Nat} {v : Status} :
    v ∈ s.statusAt a ↔
      (Config.regMap .fsm = a ∧ v = .fsm s.fsm) ∨ (Config.regMap .err = a ∧ s.fsm ≠ .uninit ∧ v = .err s.err) := by
  simp only [State.statusAt, List.mem_filterMap, mem_registersAt, State.status_some]
  constructor
  · rintro ⟨r, ha, ⟨rfl, hv⟩ | ⟨rfl, hv⟩⟩
    · exact .inl ⟨ha, hv⟩
    · exact .inr ⟨ha, hv⟩
  · rintro (⟨ha, hv⟩ | ⟨ha, hv⟩)
    · exact ⟨_, ha, .inl ⟨rfl, hv⟩⟩
    · exact ⟨_, ha, .inr ⟨rfl, hv⟩⟩

/-- Settles O60: the image's bytes are found by address for either order, the status values by the map. -/
theorem openParametersRead : Obligations.OpenParametersRead := by
  unfold Obligations.OpenParametersRead
  refine fun s => ⟨fun x y hv hx hy => ?_, fun a ha => s.imageByte_beyond _ ha, fun _ => rfl,
    fun _ _ => State.mem_statusAt⟩
  have hbyte := State.imageByte_of_valid hv hx hy
  exact ⟨hbyte .little false, hbyte .little true, hbyte .big false, hbyte .big true⟩

end Sys2Proof.Machine
